-- ==== Sys2Proof/Word.lean ====
section
/-!
DEFINITION. The widths of the block's values (spec/00_scope.md R7, R8, R11): 32-bit registers, arguments and indexes,
16-bit source characters, 8-bit output bytes, 6-bit alphabet values.
-/

namespace Sys2Proof

/-- A register, argument or index word (R7 `ADDR_BITS` = 32, R61 command words). -/
abbrev Word := BitVec 32

/-- The code of one source character (R7 `CHAR_BITS` = 16). -/
abbrev CharCode := BitVec 16

/-- One decoded byte (R8, R42). -/
abbrev Byte := BitVec 8

/-- The value of one alphabet character (R8: "A LUT value is 6 bits"). -/
abbrev Sextet := BitVec 6

/-- A result of unsigned arithmetic on naturals, stored into a 32-bit register (R11: storing keeps bits [31:0]). -/
abbrev Word.ofNat (n : Nat) : Word := BitVec.ofNat 32 n

end Sys2Proof
end

