-- ==== Sys2Proof/Config.lean ====
section
/-!
DEFINITION. What is fixed for this hardware: the parameters of spec/00_scope.md R7 with the value this hardware
takes, and the free values, which the spec leaves open (opaque: no proof can see them).
-/

namespace Sys2Proof.Config

/-- R7, decision D5: the width of one source character code. -/
def charBits : Nat := 16

/-- R7, decision D6: the width of every index, length, offset and count. -/
def addrBits : Nat := 32

/-- R7, decisions D12 and D37: an invalid LUT entry at a consulted position raises MalformedCharacter (R108). -/
def alphabetCheck : Bool := true

/-- R7, decision D28: decoder contexts in one block. -/
def nContexts : Nat := 1

/-- R3, decision D38: the identity string, documentation only; no register holds it. -/
def identity : String := "base64_decoder_quartet_engine/xXMateus97Xx-Base64Stream/v7"

/-- R10: the default `WS_SET`, the 25 code points of the Unicode White_Space property (log 13). -/
def wsSet : List CharCode :=
  [0x0009#16, 0x000A#16, 0x000B#16, 0x000C#16, 0x000D#16, 0x0020#16, 0x0085#16, 0x00A0#16, 0x1680#16,
   0x2000#16, 0x2001#16, 0x2002#16, 0x2003#16, 0x2004#16, 0x2005#16, 0x2006#16, 0x2007#16, 0x2008#16,
   0x2009#16, 0x200A#16, 0x2028#16, 0x2029#16, 0x202F#16, 0x205F#16, 0x3000#16]

/-- R7: `LATENCY`, OPEN. No definition of the model reads it (R198). Free value, log 10. -/
opaque latency : Nat

/-- R41: what SRC returns at an index once the host has changed the text under a context ("any value").
Arguments: the draw counter, the index. Free value, log 7. -/
opaque disturbedChar : Nat → Nat → CharCode

/-- R118: a byte whose formula reads an invalid entry in legacy mode (`draw()`).
Arguments: the draw counter, the OUT index. Free value, log 9. -/
opaque legacyByte : Nat → Nat → Byte

/-- R192: a byte below cap of a READ that reset abandoned ("any value").
Arguments: the draw counter, the OUT index. Free value, log 11. -/
opaque abandonedByte : Nat → Nat → Byte

/-- R196: is a byte the host wrote to OUT during a READ kept (true) or may the READ overwrite it (false)?
Arguments: the draw counter, the OUT index. Free value, log 8. -/
opaque hostByteKept : Nat → Nat → Bool

end Sys2Proof.Config
end

