-- ==== Sys2Proof/Syntax.lean ====
section
/-!
DEFINITION. The commands of spec/30_encoding.md: the raw transaction of three words (R61), the register operand of
PEEK (spec/10_state.md R20), and one constructor for each row of the opcode map (R63), ILLEGAL among them.
-/

namespace Sys2Proof

/-- R61: a command is one transfer of three 32-bit words. -/
structure Command where
  word : Word
  arg0 : Word
  arg1 : Word
deriving DecidableEq, Repr

/-- R20: the eight registers of the register file, by name; PEEK's operand. -/
inductive Reg where
  | status          -- register 0
  | srcLen          -- register 1
  | initialCursor   -- register 2
  | sourceCursor    -- register 3
  | decodedPosition -- register 4
  | decodedLength   -- register 5
  | paddingCount    -- register 6
  | config          -- register 7
deriving DecidableEq, Repr

/-- The decoded commands (R63, R68). Operands a command ignores (R62, R65) are not part of it. -/
inductive Instr where
  | construct (nullSource : Bool) (len off : Word) -- CONSTRUCT len, off | CONSTRUCT.NULL (N flag set)
  | read (n : Word)                                -- READ n
  | length                                         -- LENGTH
  | position                                       -- POSITION
  | rewind                                         -- REWIND
  | setpos (v : Word)                              -- SETPOS v
  | write                                          -- WRITE
  | seek                                           -- SEEK
  | setlen                                         -- SETLEN
  | peek (r : Reg)                                 -- PEEK r
  | illegal (c : Command)                          -- .cmd w, a0, a1 : any command R64 makes illegal
deriving DecidableEq, Repr

end Sys2Proof
end

