-- ==== Sys2Proof/WellFormed.lean ====
section
/-!
DEFINITION. Which decoded commands are well formed: an `illegal` command carries a transaction that spec/30_encoding.md
R64 does make illegal, for a reason with a name. Every other constructor is well formed with every operand.
-/

namespace Sys2Proof

/-- R64: why a transaction is illegal. -/
inductive IllegalReason where
  | reservedBits    -- RSV ≠ 0 with any OP
  | misplacedNull   -- N = 1 with OP ≠ 0x1
  | reservedOpcode  -- OP = 0x0 or OP in 0xB to 0xF
  | badRegister     -- PEEK with ARG0 > 7
deriving DecidableEq, Repr

/-- R64: the reason a transaction is illegal, none for a legal one. Written on the numbers of the fields of R61:
OP = word mod 16, N = (word div 16) mod 2, RSV = word div 32. -/
def Command.illegalReason (c : Command) : Option IllegalReason :=
  if c.word.toNat / 32 ≠ 0 then some .reservedBits
  else if c.word.toNat / 16 % 2 = 1 ∧ c.word.toNat % 16 ≠ 1 then some .misplacedNull
  else if c.word.toNat % 16 = 0 ∨ 11 ≤ c.word.toNat % 16 then some .reservedOpcode
  else if c.word.toNat % 16 = 10 ∧ 7 < c.arg0.toNat then some .badRegister
  else none

/-- A decoded command is well formed when its parts are what R64 and R68 say they are. -/
def Instr.wellFormed : Instr → Bool
  | .construct _ _ _ => true
  | .read _ => true
  | .length => true
  | .position => true
  | .rewind => true
  | .setpos _ => true
  | .write => true
  | .seek => true
  | .setlen => true
  | .peek _ => true
  | .illegal c => c.illegalReason.isSome

end Sys2Proof
end

