-- ==== Sys2Proof/Decode.lean ====
section
/-!
DEFINITION. The decoder (spec/30_encoding.md R68), total on every 96-bit command, its ILLEGAL verdict carrying the
transaction; the encoder, from the encoding tables R61 to R63; the assembler's commands (R69, R70); and the numbering of
spec/opcode_table.json.
-/

namespace Sys2Proof

/-- R61: OP, bits 3:0 of the command word. -/
def opField (word : Word) : BitVec 4 := word.extractLsb' 0 4

/-- R61: N, bit 4 of the command word, the null-source flag. -/
def nullField (word : Word) : Bool := word.getLsbD 4

/-- R61: RSV, bits 31:5 of the command word. -/
def rsvField (word : Word) : BitVec 27 := word.extractLsb' 5 27

/-- R20: the register a PEEK argument numbers; none above 7. -/
def regOfNumber (a : Word) : Option Reg :=
  match a.toNat with
  | 0 => some .status
  | 1 => some .srcLen
  | 2 => some .initialCursor
  | 3 => some .sourceCursor
  | 4 => some .decodedPosition
  | 5 => some .decodedLength
  | 6 => some .paddingCount
  | 7 => some .config
  | _ => none

/-- R20: the number of a register. -/
def Reg.number : Reg → Word
  | .status => 0#32
  | .srcLen => 1#32
  | .initialCursor => 2#32
  | .sourceCursor => 3#32
  | .decodedPosition => 4#32
  | .decodedLength => 5#32
  | .paddingCount => 6#32
  | .config => 7#32

/-- R68: the decoding procedure. The two ILLEGAL checks on RSV and N come first; a reserved OP and a PEEK register
above 7 are ILLEGAL (R64). An ignored argument is never looked at (R65). -/
def decode (c : Command) : Instr :=
  if rsvField c.word ≠ 0#27 then .illegal c
  else if nullField c.word = true ∧ opField c.word ≠ 1#4 then .illegal c
  else
    match (opField c.word).toNat with
    | 0x1 => .construct (nullField c.word) c.arg0 c.arg1
    | 0x2 => .read c.arg0
    | 0x3 => .length
    | 0x4 => .position
    | 0x5 => .rewind
    | 0x6 => .setpos c.arg0
    | 0x7 => .write
    | 0x8 => .seek
    | 0x9 => .setlen
    | 0xA =>
      match regOfNumber c.arg0 with
      | some r => .peek r
      | none => .illegal c
    | _ => .illegal c

/-- R63: the match word of a command's opcode row, and its arguments as R62 lays them; an ignored argument is encoded
as 0 (R69). -/
def encode : Instr → Command
  | .construct false len off => ⟨0x00000001#32, len, off⟩
  | .construct true len off => ⟨0x00000011#32, len, off⟩
  | .read n => ⟨0x00000002#32, n, 0#32⟩
  | .length => ⟨0x00000003#32, 0#32, 0#32⟩
  | .position => ⟨0x00000004#32, 0#32, 0#32⟩
  | .rewind => ⟨0x00000005#32, 0#32, 0#32⟩
  | .setpos v => ⟨0x00000006#32, v, 0#32⟩
  | .write => ⟨0x00000007#32, 0#32, 0#32⟩
  | .seek => ⟨0x00000008#32, 0#32, 0#32⟩
  | .setlen => ⟨0x00000009#32, 0#32, 0#32⟩
  | .peek r => ⟨0x0000000A#32, r.number, 0#32⟩
  | .illegal c => c

/-- R69: the lines of the assembler, in the order of its table. Optional operands are Options. -/
inductive AsmLine where
  | construct (len : Word) (off : Option Word)   -- CONSTRUCT len, off ; CONSTRUCT len means off = 0
  | constructNull                                -- CONSTRUCT.NULL
  | read (n : Word)
  | length
  | position
  | rewind
  | setpos (v : Word)
  | write (a0 a1 : Option Word)
  | seek (off origin : Option Word)
  | setlen (v a1 : Option Word)
  | peek (r : Word)                              -- a number, or a register name by its number (R20)
  | cmd (w a0 a1 : Word)                         -- .cmd w, a0, a1
deriving DecidableEq, Repr

/-- R69: what each assembler line encodes. SETPOS 0 and REWIND stay different words (R70). -/
def assemble : AsmLine → Command
  | .construct len off => ⟨0x00000001#32, len, off.getD 0#32⟩
  | .constructNull => ⟨0x00000011#32, 0#32, 0#32⟩
  | .read n => ⟨0x00000002#32, n, 0#32⟩
  | .length => ⟨0x00000003#32, 0#32, 0#32⟩
  | .position => ⟨0x00000004#32, 0#32, 0#32⟩
  | .rewind => ⟨0x00000005#32, 0#32, 0#32⟩
  | .setpos v => ⟨0x00000006#32, v, 0#32⟩
  | .write a0 a1 => ⟨0x00000007#32, a0.getD 0#32, a1.getD 0#32⟩
  | .seek off origin => ⟨0x00000008#32, off.getD 0#32, origin.getD 0#32⟩
  | .setlen v a1 => ⟨0x00000009#32, v.getD 0#32, a1.getD 0#32⟩
  | .peek r => ⟨0x0000000A#32, r, 0#32⟩
  | .cmd w a0 a1 => ⟨w, a0, a1⟩

/-- R69: the assembler line a command prints as; a word no row of R63 matches prints as `.cmd`. CONSTRUCT.NULL prints
without the arguments it does not use (R82). -/
def disassemble (c : Command) : AsmLine :=
  match decode c with
  | .construct false len off => .construct len (some off)
  | .construct true _ _ => .constructNull
  | .read n => .read n
  | .length => .length
  | .position => .position
  | .rewind => .rewind
  | .setpos v => .setpos v
  | .write => .write (some c.arg0) (some c.arg1)
  | .seek => .seek (some c.arg0) (some c.arg1)
  | .setlen => .setlen (some c.arg0) (some c.arg1)
  | .peek r => .peek r.number
  | .illegal c' => .cmd c'.word c'.arg0 c'.arg1

/-- How many bits a command has (R61: always 3 words). -/
def commandBits : Nat := 96

/-- The command whose bits are the low `nbits` bits of `w`, numbered as spec/opcode_table.json numbers them: `cmd_word` is
bits 31:0, ARG0 bits 63:32, ARG1 bits 95:64; every bit from `nbits` up is 0. -/
def commandOfTableWord (nbits w : Nat) : Command :=
  let v := w % 2 ^ nbits
  ⟨Word.ofNat v, Word.ofNat (v / 2 ^ 32), Word.ofNat (v / 2 ^ 64)⟩

/-- The host's question: what the decoder reads from a table word. The decoder refuses nothing: ILLEGAL is a row. -/
def decodeTableWord (nbits w : Nat) : Option Instr :=
  some (decode (commandOfTableWord nbits w))

end Sys2Proof
end

