-- ==== Sys2Proof/Machine/State.lean ====
section
/-!
DEFINITION. The state of the block and of what it reaches, as plain data: the decode state register file
(spec/10_state.md), the SRC and OUT memories (spec/20_memory.md), the ports at transaction level (spec/30_encoding.md
R60, R67), what the outside world does next, and the model's own counters. Then the reset state (R34).
-/

namespace Sys2Proof.Machine

/-- R170: the status codes the block produces. Codes 9 to 15 are reserved and never produced: they have no name. -/
inductive StatusCode where
  | ok                 -- 0
  | emptyInput         -- 1
  | malformedLength    -- 2
  | malformedCharacter -- 3
  | bufferTooSmall     -- 4
  | unsupported        -- 5
  | notConstructed     -- 6
  | offsetOutOfRange   -- 7
  | illegalCommand     -- 8
deriving DecidableEq, Repr

/-- R66: a response, `rsp_status` and `rsp_data`. -/
structure Response where
  status : StatusCode
  data   : Word
deriving DecidableEq, Repr

/-- A memory: cells of an index and its content, indexes strictly rising, no cell holding what an unlisted index reads
as (`Memory.unlisted`). `Memory 8` is a list of `Host.Cell`. -/
abbrev Memory (w : Nat) := List (Nat × BitVec w)

/-- R20: the stored part of the decode state register file. EOS (R26) is derived, CONFIG (R29) hardwired. -/
structure Regs where
  valid           : Bool       -- STATUS.VALID (R26)
  lastErr         : StatusCode -- STATUS.LAST_ERR (R26)
  srcLen          : Word       -- SRC_LEN (R21)
  initialCursor   : Word       -- INITIAL_CURSOR (R22)
  sourceCursor    : Word       -- SOURCE_CURSOR (R23)
  decodedPosition : Word       -- DECODED_POSITION (R24)
  decodedLength   : Word       -- DECODED_LENGTH (R25)
  paddingCount    : BitVec 2   -- PADDING_COUNT (R27)
deriving DecidableEq, Repr

/-- One action of the outside world at the block's ports (R60) or on the memories the host owns (R40, R42). -/
inductive HostInput where
  | offer (c : Command)                 -- one more command for `cmd_valid`/`cmd_word`/`cmd_arg0`/`cmd_arg1`
  | setRspReady (b : Bool)              -- drive `rsp_ready`
  | setRstN (b : Bool)                  -- drive `rst_n`
  | setSrcAck (b : Bool)                -- the SRC port acknowledges its accesses, or no longer does
  | setOutAck (b : Bool)                -- the OUT port acknowledges its accesses, or no longer does
  | srcWrite (i : Word) (c : CharCode)  -- the host stores a character of its source memory
  | outWrite (i : Word) (b : Byte)      -- the host stores a byte of its output buffer (the one buffer, log 21)
deriving DecidableEq, Repr

/-- The two access ports (R60). -/
inductive Port where
  | src -- SRC, reads of the source text
  | out -- OUT, writes of the output buffer
deriving DecidableEq, Repr

/-- A command in flight (R67): accepted, its response still to come, holding an access until its port acknowledges. -/
structure Flight where
  cmd  : Instr -- the command
  hold : Port  -- the port of the access it holds
  done : Nat   -- how many quartets of a READ have had all their accesses acknowledged (R114)
deriving DecidableEq, Repr

/-- The whole state. -/
structure State where
  /-- The decode state register file (R20). -/
  regs : Regs
  /-- SRC, the source text's memory (R40). -/
  src : Memory 16
  /-- OUT, the output buffer's memory (R42). All READs write this one: R42 leaves open whether the host reuses a buffer, and
  here it does (the model's choice, log 21). -/
  out : Memory 8
  /-- `rst_n` (R190): false is reset. -/
  rstN : Bool
  /-- The commands the host offers, in order; the head stands at the command pins (R60, R67). -/
  cmds : List Command
  /-- The response offered and not yet taken (R67); none is `rsp_valid` = 0. -/
  rsp : Option Response
  /-- `rsp_ready` (R67). -/
  rspReady : Bool
  /-- Does the SRC port acknowledge its accesses (R67, R199)? -/
  srcAck : Bool
  /-- Does the OUT port acknowledge its accesses (R67, R199)? -/
  outAck : Bool
  /-- The command accepted and waiting for a port (R67, R192, R199). -/
  inflight : Option Flight
  /-- What the outside world does next, in order. -/
  inputs : List HostInput
  /-- The model's own: the host has changed the context's source text since its CONSTRUCT (R41). -/
  srcDisturbed : Bool
  /-- The model's own: the host has changed the text of the CONSTRUCT in flight (R41). -/
  flightDisturbed : Bool
  /-- The model's own: the OUT indexes the host wrote during the READ in flight whose byte survives it (R196). -/
  keptIndexes : List Nat
  /-- The model's own: how many free values have been drawn (R12 `draw()`). -/
  draws : Nat
deriving DecidableEq, Repr

/-- What stops the machine. The block itself has no trap (R180). -/
inductive Fault where
  /-- Raised by READ alone, when a quartet it would decode does not lie in SRC[0 … SRC_LEN−1]: R40 says every index the
  block presents is below SRC_LEN, and R12 gives `SrcRead` no meaning beyond it. Safe: no state that meets the
  invariants of R32 reaches it (R28, R120). -/
  | sourceIndexOutOfRange
deriving DecidableEq, Repr

/-- What the model refuses. -/
inductive Refusal where
  /-- Raised by an arm of `exec` that has no meaning yet (none of this model). Safe. -/
  | notModelled (mnemonic : String)
deriving DecidableEq, Repr

/-- R34: the reset value of every register of the register file. -/
def Regs.reset : Regs where
  valid := false
  lastErr := .ok
  srcLen := 0#32
  initialCursor := 0#32
  sourceCursor := 0#32
  decodedPosition := 0#32
  decodedLength := 0#32
  paddingCount := 0#2

/-- R34, R190: the machine right after reset has been released: registers at their reset values, idle, nothing in
flight, no response offered. The memories are the host's and list nothing (log 1), the input pins stand ready and the
host does nothing (log 3). -/
def State.reset : State where
  regs := Regs.reset
  src := []
  out := []
  rstN := true
  cmds := []
  rsp := none
  rspReady := true
  srcAck := true
  outAck := true
  inflight := none
  inputs := []
  srcDisturbed := false
  flightDisturbed := false
  keptIndexes := []
  draws := 0

end Sys2Proof.Machine
end

