-- ==== Sys2Proof/Machine/Ops.lean ====
section
/-!
DEFINITION. The shared operations: reading and writing the memories (spec/20_memory.md), and the two ways a command
completes, `respond` and `raise` (spec/00_scope.md R13), which are this hardware's taking of an error: it has no trap
and no return from one (spec/60_exceptions.md R180, R181).
-/

namespace Sys2Proof.Machine

/-- What an index that nothing has written reads as: 0 (DESIGN CHOICE, log 1). -/
def Memory.unlisted (w : Nat) : BitVec w := 0#w

/-- The canonical form: indexes strictly rising, and no cell that holds what an unlisted index reads as. -/
abbrev Memory.wf {w : Nat} (m : Memory w) : Prop :=
  m.Pairwise (fun c d => c.1 < d.1) ∧ ∀ c ∈ m, c.2 ≠ Memory.unlisted w

/-- The content of one index (R48: one whole character or byte). -/
def Memory.read {w : Nat} : Memory w → Nat → BitVec w
  | [], _ => Memory.unlisted w
  | (b, x) :: m, a => if b = a then x else Memory.read m a

/-- Put a cell in front, unless it holds what an unlisted index reads as. -/
def Memory.consCell {w : Nat} (a : Nat) (v : BitVec w) (m : Memory w) : Memory w :=
  if v = Memory.unlisted w then m else (a, v) :: m

/-- Store one index (R48), keeping the canonical form. -/
def Memory.write {w : Nat} : Memory w → Nat → BitVec w → Memory w
  | [], a, v => Memory.consCell a v []
  | (b, x) :: m, a, v =>
    if a < b then Memory.consCell a v ((b, x) :: m)
    else if a = b then Memory.consCell a v m
    else (b, x) :: Memory.write m a v

/-- Store a run of contents at rising indexes from `a` on (R43: ascending, each once). -/
def Memory.writeRun {w : Nat} : Memory w → Nat → List (BitVec w) → Memory w
  | m, _, [] => m
  | m, a, v :: vs => Memory.writeRun (Memory.write m a v) (a + 1) vs

/-- Put back, at each index of a list, what `old` holds there. -/
def Memory.restore {w : Nat} (old : Memory w) : Memory w → List Nat → Memory w
  | m, [] => m
  | m, a :: as => Memory.restore old (Memory.write m a (old.read a)) as

/-- Store `f i` at every index `i` below `n`. -/
def Memory.fillBelow {w : Nat} (m : Memory w) (f : Nat → BitVec w) : Nat → Memory w
  | 0 => m
  | n + 1 => Memory.write (Memory.fillBelow m f n) n (f n)

/-- R12, R40: `SrcRead(i)` for READ. Under a source the host has changed since CONSTRUCT it is any value (R41, log 7). -/
def State.srcRead (s : State) (i : Nat) : CharCode :=
  if s.srcDisturbed then Config.disturbedChar s.draws i else s.src.read i

/-- R12, R40: `SrcRead(i)` for CONSTRUCT. Under a text the host has changed since this CONSTRUCT began it is any value
(R41 "from the start of the CONSTRUCT that names it", log 7). -/
def State.srcReadNew (s : State) (i : Nat) : CharCode :=
  if s.flightDisturbed then Config.disturbedChar s.draws i else s.src.read i

/-- R12, R42: `OutWrite` of a run of bytes from the buffer's beginning, in the one OUT memory that all READs share (the
model's choice, log 21). -/
def State.outWriteRun (s : State) (bytes : List Byte) : State :=
  { s with out := s.out.writeRun 0 bytes }

/-- A free value has been used: the next one is another (R12 `draw()`), if `used` says that one was. -/
def State.countDraw (s : State) (used : Bool) : State :=
  { s with draws := if used then s.draws + 1 else s.draws }

/-- R13: `respond(code, data)`: the response is offered, and LAST_ERR takes its code. -/
def State.respond (s : State) (code : StatusCode) (data : Word) : State :=
  { s with
    regs := { s.regs with lastErr := code }
    rsp := some ⟨code, data⟩ }

/-- R13: `respond(OK, data)` ends a command. -/
def complete (s : State) (data : Word) : Host.Outcome State Fault Refusal :=
  .next (s.respond .ok data)

/-- R13, R180: `raise E(data)`: an error completes the command normally, writing LAST_ERR and no other register. This is
the one way an error is taken: nothing is saved, there is no vector, and nothing to return from (R181). -/
def raise (s : State) (error : StatusCode) (data : Word) : Host.Outcome State Fault Refusal :=
  .next (s.respond error data)

/-- R113 step 1, R176: a decoding command on a block that is not constructed raises NotConstructed; otherwise `k`. -/
def whenConstructed (s : State) (k : Host.Outcome State Fault Refusal) : Host.Outcome State Fault Refusal :=
  if s.regs.valid then k else raise s .notConstructed 0#32

end Sys2Proof.Machine
end

