-- ==== Sys2Proof/Machine/Construct.lean ====
section
/-!
DEFINITION. CONSTRUCT (spec/40_construct.md R80 to R95).
-/

namespace Sys2Proof.Machine

/-- R10: `IsWs(c)`, membership of `WS_SET`, on the full code. -/
def isWs (c : CharCode) : Bool := decide (c ∈ Config.wsSet)

/-- R82: are the `n` characters from index `i` on all whitespace? It stops at the first that is not (R93). -/
def allWs (rd : Nat → CharCode) : Nat → Nat → Bool
  | 0, _ => true
  | n + 1, i => if isWs (rd i) then allWs rd n (i + 1) else false

/-- R81, R84: the first of the `n` indexes from `s` on that holds no whitespace; the index after them if all do. -/
def skipWs (rd : Nat → CharCode) : Nat → Nat → Nat
  | 0, s => s
  | n + 1, s => if isWs (rd s) then skipWs rd n (s + 1) else s

/-- R81, R84: move the end `e` back over whitespace, at most `n` characters. -/
def dropWs (rd : Nat → CharCode) : Nat → Nat → Nat
  | 0, e => e
  | n + 1, e => if isWs (rd (e - 1)) then dropWs rd n (e - 1) else e

/-- R87: the padding count, from the last two characters of a content that ends before `e`. -/
def paddingOf (rd : Nat → CharCode) (e : Nat) : BitVec 2 :=
  if rd (e - 1) = 0x3D#16 ∧ rd (e - 2) = 0x3D#16 then 2#2
  else if rd (e - 1) = 0x3D#16 then 1#2
  else 0#2

/-- R81, R88, R89: the registers of a new context over a text of `len` characters whose content is SRC[s … e−1]. -/
def Regs.newContext (r : Regs) (rd : Nat → CharCode) (len : Word) (s e : Nat) : Regs :=
  let p := paddingOf rd e
  { r with
    valid := true
    srcLen := len
    initialCursor := Word.ofNat s
    sourceCursor := Word.ofNat s
    paddingCount := p
    decodedLength := Word.ofNat (3 * ((e - s) / 4) - p.toNat)
    decodedPosition := 0#32 }

/-- R81: CONSTRUCT, its checks in the order of R179. The context it makes is undisturbed, unless the host changed its text
while the command was in flight (R41). -/
def execConstruct (nullSource : Bool) (len off : Word) (st : State) : Host.Outcome State Fault Refusal :=
  let rd := st.srcReadNew
  if nullSource = true ∨ len = 0#32 then raise st .emptyInput 0#32
  else if allWs rd len.toNat 0 = true then raise st .emptyInput 0#32
  else if len.toNat < off.toNat then raise st .offsetOutOfRange 0#32
  else
    let s := skipWs rd (len.toNat - off.toNat) off.toNat
    let e := dropWs rd (len.toNat - s) len.toNat
    if e - s = 0 then raise st .emptyInput 0#32
    else if (e - s) % 4 ≠ 0 then raise st .malformedLength 0#32
    else
      let r := st.regs.newContext rd len s e
      complete { st with regs := r, srcDisturbed := st.flightDisturbed } r.decodedLength

end Sys2Proof.Machine
end

