-- ==== Sys2Proof/Machine/Flags.lean ====
section
/-!
DEFINITION. The flags and the words made of fields: the status codes' numbers (spec/60_exceptions.md R170), EOS and the
STATUS word (spec/10_state.md R26), and the hardwired CONFIG word (R29).
-/

namespace Sys2Proof.Machine

/-- R170: the number of a status code, as `rsp_status` and STATUS.LAST_ERR carry it. -/
def StatusCode.code : StatusCode → BitVec 4
  | .ok => 0#4
  | .emptyInput => 1#4
  | .malformedLength => 2#4
  | .malformedCharacter => 3#4
  | .bufferTooSmall => 4#4
  | .unsupported => 5#4
  | .notConstructed => 6#4
  | .offsetOutOfRange => 7#4
  | .illegalCommand => 8#4

/-- R26: EOS, derived and not stored: `VALID ∧ (DECODED_POSITION == DECODED_LENGTH)`. -/
def Regs.eos (r : Regs) : Bool :=
  r.valid && decide (r.decodedPosition = r.decodedLength)

/-- R26: the STATUS word. Bits 31:8 and 3:2 are reserved and read as 0, LAST_ERR is bits 7:4, EOS bit 1, VALID bit 0. -/
def Regs.statusWord (r : Regs) : Word :=
  0#24 ++ r.lastErr.code ++ 0#2 ++ BitVec.ofBool r.eos ++ BitVec.ofBool r.valid

/-- R29: the CONFIG word, hardwired: ADDR_BITS in bits 23:16, CHAR_BITS in bits 15:8, ALPHABET_CHECK in bit 0. -/
def configWord : Word :=
  0#8 ++ BitVec.ofNat 8 Config.addrBits ++ BitVec.ofNat 8 Config.charBits ++ 0#7 ++ BitVec.ofBool Config.alphabetCheck

end Sys2Proof.Machine
end

