-- ==== Sys2Proof/Machine/Operands.lean ====
section
/-!
DEFINITION. The operand forms (spec/30_encoding.md R62): arguments are unsigned naturals taken whole; a register
operand selects one of the eight registers (spec/10_state.md R20); a buffer length gives the capacity a READ uses
(spec/41_read.md R111).
-/

namespace Sys2Proof.Machine

/-- R20, R144: the value of a register. Bits above the width used read as 0. -/
def Regs.read (r : Regs) : Reg → Word
  | .status => r.statusWord
  | .srcLen => r.srcLen
  | .initialCursor => r.initialCursor
  | .sourceCursor => r.sourceCursor
  | .decodedPosition => r.decodedPosition
  | .decodedLength => r.decodedLength
  | .paddingCount => r.paddingCount.setWidth 32
  | .config => configWord

/-- R111: `cap`, the largest multiple of 3 that a buffer of `n` bytes holds. -/
def capOf (n : Word) : Nat := (n.toNat / 3) * 3

end Sys2Proof.Machine
end

