-- ==== Sys2Proof/Machine/Query.lean ====
section
/-!
DEFINITION. LENGTH, POSITION, REWIND, SETPOS and PEEK (spec/42_state_queries.md R140 to R145).
-/

namespace Sys2Proof.Machine

/-- R142, R143: the full rewind, DECODED_POSITION to 0 and SOURCE_CURSOR to INITIAL_CURSOR. -/
def State.rewound (s : State) : State :=
  { s with regs := { s.regs with decodedPosition := 0#32, sourceCursor := s.regs.initialCursor } }

/-- R140: LENGTH. -/
def execLength (s : State) : Host.Outcome State Fault Refusal :=
  whenConstructed s (complete s s.regs.decodedLength)

/-- R141: POSITION. -/
def execPosition (s : State) : Host.Outcome State Fault Refusal :=
  whenConstructed s (complete s s.regs.decodedPosition)

/-- R142: REWIND. -/
def execRewind (s : State) : Host.Outcome State Fault Refusal :=
  whenConstructed s (complete s.rewound 0#32)

/-- R143: SETPOS. Every non-zero position is Unsupported; 0 is the rewind. -/
def execSetpos (v : Word) (s : State) : Host.Outcome State Fault Refusal :=
  whenConstructed s (if v ≠ 0#32 then raise s .unsupported 0#32 else complete s.rewound 0#32)

/-- R144: PEEK, on a constructed block or not. STATUS is read before this command's own LAST_ERR write. -/
def execPeek (r : Reg) (s : State) : Host.Outcome State Fault Refusal :=
  complete s (s.regs.read r)

end Sys2Proof.Machine
end

