-- ==== Sys2Proof/Machine/Datapath.lean ====
section
/-!
DEFINITION. The datapath of READ (spec/41_read.md): the `character_to_sixbit_lut` (R100 to R103), the `sixbit_packer`
(R104, R105) and the quartet function (R106 to R109, R118).
-/

namespace Sys2Proof.Machine

/-- R100, R103: an entry of the lookup table. -/
structure LutEntry where
  valid : Bool
  value : Sextet
deriving DecidableEq, Repr

/-- R103: the sentinel, valid = 0 and value = 0. -/
def LutEntry.invalid : LutEntry := ⟨false, 0#6⟩

/-- R103: the 7-bit entry word, bit 6 valid, bits 5:0 value. -/
def LutEntry.word (e : LutEntry) : BitVec 7 := BitVec.ofBool e.valid ++ e.value

/-- R100, R101: the `character_to_sixbit_lut`, by the closed form of R101. -/
def lut (c : BitVec 8) : LutEntry :=
  let n := c.toNat
  if 0x41 ≤ n ∧ n ≤ 0x5A then ⟨true, BitVec.ofNat 6 (n - 0x41)⟩
  else if 0x61 ≤ n ∧ n ≤ 0x7A then ⟨true, BitVec.ofNat 6 (n - 0x47)⟩
  else if 0x30 ≤ n ∧ n ≤ 0x39 then ⟨true, BitVec.ofNat 6 (n + 4)⟩
  else if n = 0x2B then ⟨true, 62#6⟩
  else if n = 0x2F then ⟨true, 63#6⟩
  else .invalid

/-- R104: the `sixbit_packer`. The formulas of the source, each result stored into 8 bits. -/
def pack (b1 b2 b3 b4 : Sextet) : Byte × Byte × Byte :=
  ((b1.setWidth 8 <<< 2) ||| (b2.setWidth 8 >>> 4),
   (b2.setWidth 8 <<< 4) ||| (b3.setWidth 8 >>> 2),
   (b3.setWidth 8 <<< 6) ||| b4.setWidth 8)

/-- R102, R109: the table entry of a character whose code is below 256: `LUT(c[7:0])`. -/
def entryOf (c : CharCode) : LutEntry := lut (c.setWidth 8)

/-- R106: the lowest of the four positions of a quartet whose code is 256 or above. -/
def rangeFault (rd : Nat → CharCode) (cur : Nat) : Option Nat :=
  [0, 1, 2, 3].find? (fun i => decide (256 ≤ (rd (cur + i)).toNat))

/-- R107: the positions whose table value feeds one of the first `k` bytes. -/
def consulted (k : Nat) : List Nat := [0, 1, 2, 3].filter (fun i => decide (i ≤ k))

/-- R108: the lowest consulted position whose table entry is invalid. -/
def alphabetFault (rd : Nat → CharCode) (cur k : Nat) : Option Nat :=
  (consulted k).find? (fun i => !(entryOf (rd (cur + i))).valid)

/-- R104, R118: the three bytes of a quartet. With the alphabet check on, the packer's. With it off (legacy mode), a
byte whose formula reads an invalid entry is `garbage` of its lane: byte 0 reads entries 0 and 1, byte 1 entries 1 and
2, byte 2 entries 2 and 3. -/
def quartetBytes (check : Bool) (garbage : Nat → Byte) (rd : Nat → CharCode) (cur : Nat) : List Byte :=
  let e0 := entryOf (rd (cur + 0))
  let e1 := entryOf (rd (cur + 1))
  let e2 := entryOf (rd (cur + 2))
  let e3 := entryOf (rd (cur + 3))
  let y := pack e0.value e1.value e2.value e3.value
  [if check || (e0.valid && e1.valid) then y.1 else garbage 0,
   if check || (e1.valid && e2.valid) then y.2.1 else garbage 1,
   if check || (e2.valid && e3.valid) then y.2.2 else garbage 2]

/-- R109: what the quartet function returns: the source index of the bad character, or the bytes produced. `outside` is
no result of R109: a quartet that does not lie below the bound of R40, where `SrcRead` has no meaning (log 2). -/
inductive QuartetResult where
  | outside
  | bad (i : Nat)
  | good (bytes : List Byte)
deriving DecidableEq, Repr

/-- R109: `Quartet(cur, k)` over the characters `rd` of a source of `bound` characters. It writes nothing. -/
def quartet (check : Bool) (garbage : Nat → Byte) (rd : Nat → CharCode) (bound cur k : Nat) : QuartetResult :=
  if cur + 4 ≤ bound then
    match rangeFault rd cur with
    | some i => .bad (cur + i)
    | none =>
      match (if check then alphabetFault rd cur k else none) with
      | some i => .bad (cur + i)
      | none => .good ((quartetBytes check garbage rd cur).take k)
  else .outside

end Sys2Proof.Machine
end

