-- ==== Sys2Proof/Machine/Read.lean ====
section
/-!
DEFINITION. READ (spec/41_read.md R110 to R119, R126).
-/

namespace Sys2Proof.Machine

/-- How a READ's decoding ended: `done`, at a bad character (R112), or at a quartet outside the source (log 2). -/
inductive RunEnd where
  | done
  | malformed (i : Nat)
  | outside
deriving DecidableEq, Repr

/-- What a READ has decoded: its bytes in OUT order, where `cur`, `pos` and `out` of R111 stand, and how it ended. -/
structure Run where
  bytes : List Byte
  cur   : Nat
  pos   : Nat
  out   : Nat
  stop  : RunEnd
deriving DecidableEq, Repr

/-- R114, R115: how many quartets of a run were good: each produced 1 to 3 bytes, and all but the last 3. -/
def Run.quartetsGood (r : Run) : Nat := (r.bytes.length + 2) / 3

/-- R109, R112: how many quartets of a run were read: the good ones, and the one that ended it. -/
def Run.quartetsRead (r : Run) : Nat :=
  match r.stop with
  | .done => r.quartetsGood
  | .malformed _ => r.quartetsGood + 1
  | .outside => r.quartetsGood + 1

/-- The run of a quartet that produced `ys` at the front of the run `r` that followed it. -/
def Run.after (ys : List Byte) (r : Run) : Run := { r with bytes := ys ++ r.bytes }

/-- R111, R115: the final quartet, where `decodedLength − pos` is 1 to 3 and there is room. -/
def finalQuartet (rd : Nat → CharCode) (garbage : Nat → Byte) (r : Regs) (cap cur pos out : Nat) : Run :=
  if 0 < r.decodedLength.toNat - pos ∧ r.decodedLength.toNat - pos ≤ 3 ∧ out < cap then
    let k := 3 - r.paddingCount.toNat
    match quartet Config.alphabetCheck (fun j => garbage (out + j)) rd r.srcLen.toNat cur k with
    | .outside => ⟨[], cur, pos, out, .outside⟩
    | .bad i => ⟨[], cur, pos, out, .malformed i⟩
    | .good ys => ⟨ys, cur + 4, pos + k, out + k, .done⟩
  else ⟨[], cur, pos, out, .done⟩

/-- R111, R114: the interior quartets, and the final one after them. Each pass of the loop adds 3 to `out`, so `cap / 3`
passes at most (`fuel`) reach its end (R199). -/
def readRun (rd : Nat → CharCode) (garbage : Nat → Byte) (r : Regs) (cap : Nat) : Nat → Nat → Nat → Nat → Run
  | 0, cur, pos, out => finalQuartet rd garbage r cap cur pos out
  | fuel + 1, cur, pos, out =>
    if out < cap ∧ pos + 3 < r.decodedLength.toNat then
      match quartet Config.alphabetCheck (fun j => garbage (out + j)) rd r.srcLen.toNat cur 3 with
      | .outside => ⟨[], cur, pos, out, .outside⟩
      | .bad i => ⟨[], cur, pos, out, .malformed i⟩
      | .good ys => (readRun rd garbage r cap fuel (cur + 4) (pos + 3) (out + 3)).after ys
    else finalQuartet rd garbage r cap cur pos out

/-- R111: all the decoding of a READ of `n` bytes in state `s`, from the registers' cursor and position. -/
def State.runOf (s : State) (n : Word) : Run :=
  readRun s.srcRead (Config.legacyByte s.draws) s.regs (capOf n) (capOf n / 3)
    s.regs.sourceCursor.toNat s.regs.decodedPosition.toNat 0

/-- Does a READ in this state use a free value (a disturbed source, R41; legacy mode, R118)? -/
def State.readDraws (s : State) : Bool := s.srcDisturbed || !Config.alphabetCheck

/-- R111: READ, its checks in the order of R179. The bytes decoded before a bad quartet are written although the registers
do not move (R112). -/
def execRead (n : Word) (s : State) : Host.Outcome State Fault Refusal :=
  whenConstructed s <|
    if capOf n = 0 then raise s .bufferTooSmall 0#32
    else
      let run := s.runOf n
      let t := (s.outWriteRun run.bytes).countDraw s.readDraws
      match run.stop with
      | .outside => .fault .sourceIndexOutOfRange
      | .malformed i => raise t .malformedCharacter (Word.ofNat i)
      | .done =>
        complete
          { t with regs := { t.regs with sourceCursor := Word.ofNat run.cur, decodedPosition := Word.ofNat run.pos } }
          (Word.ofNat run.out)

end Sys2Proof.Machine
end

