-- ==== Sys2Proof/Machine/Unsupported.lean ====
section
/-!
DEFINITION. WRITE, SEEK, SETLEN and ILLEGAL (spec/43_unsupported.md R160 to R163).
-/

namespace Sys2Proof.Machine

/-- R160: WRITE. -/
def execWrite (s : State) : Host.Outcome State Fault Refusal :=
  whenConstructed s (raise s .unsupported 0#32)

/-- R161: SEEK. -/
def execSeek (s : State) : Host.Outcome State Fault Refusal :=
  whenConstructed s (raise s .unsupported 0#32)

/-- R162: SETLEN. -/
def execSetlen (s : State) : Host.Outcome State Fault Refusal :=
  whenConstructed s (raise s .unsupported 0#32)

/-- R163: ILLEGAL. The verdict does not depend on VALID (R179), nor on why the command is illegal. -/
def execIllegal (_c : Command) (s : State) : Host.Outcome State Fault Refusal :=
  raise s .illegalCommand 0#32

end Sys2Proof.Machine
end

