-- ==== Sys2Proof/Machine/Dispatch.lean ====
section
/-!
DEFINITION. One arm per row of the opcode map (spec/30_encoding.md R63).
-/

namespace Sys2Proof.Machine

def exec (i : Instr) (s : State) : Host.Outcome State Fault Refusal :=
  match i with
  | .construct nullSource len off => Sys2Proof.Machine.execConstruct nullSource len off s
  | .read n => Sys2Proof.Machine.execRead n s
  | .length => Sys2Proof.Machine.execLength s
  | .position => Sys2Proof.Machine.execPosition s
  | .rewind => Sys2Proof.Machine.execRewind s
  | .setpos v => Sys2Proof.Machine.execSetpos v s
  | .write => Sys2Proof.Machine.execWrite s
  | .seek => Sys2Proof.Machine.execSeek s
  | .setlen => Sys2Proof.Machine.execSetlen s
  | .peek r => Sys2Proof.Machine.execPeek r s
  | .illegal c => Sys2Proof.Machine.execIllegal c s

end Sys2Proof.Machine
end

