-- ==== Sys2Proof/Machine/Sequencer.lean ====
section
/-!
DEFINITION. The sequencer and its ports at transaction level: the handshake (spec/30_encoding.md R60, R67), reset
(spec/70_reset_and_hazards.md R190, R192), ports that do not acknowledge (R199), and the moves of the outside world.
-/

namespace Sys2Proof.Machine

/-- R67, R190: `cmd_ready`: out of reset, no command accepted and unanswered. -/
def State.cmdReady (s : State) : Bool := s.rstN && s.inflight.isNone && s.rsp.isNone

/-- R60, R190: `rsp_valid`. -/
def State.rspValid (s : State) : Bool := s.rstN && s.rsp.isSome

/-- Does a port acknowledge its accesses (R60, R199)? -/
def State.acks (s : State) : Port → Bool
  | .src => s.srcAck
  | .out => s.outAck

/-- R199: after `d` quartets, does this command present another SRC access? CONSTRUCT reads SRC, once, when the source is
neither null nor empty (R82, R93), READ for every quartet it decodes (R113 to R116). -/
def needsSource (s : State) (i : Instr) (d : Nat) : Bool :=
  match i with
  | .construct nullSource len _ => !nullSource && decide (len ≠ 0#32) && decide (d = 0)
  | .read n => s.regs.valid && decide (capOf n ≠ 0) && decide (d < (s.runOf n).quartetsRead)
  | .length => false
  | .position => false
  | .rewind => false
  | .setpos _ => false
  | .write => false
  | .seek => false
  | .setlen => false
  | .peek _ => false
  | .illegal _ => false

/-- R199: with `d` quartets done and the next one read, does this command write OUT? Only a READ whose next quartet is good
does (R42, R43, R109). -/
def needsOutput (s : State) (i : Instr) (d : Nat) : Bool :=
  match i with
  | .construct _ _ _ => false
  | .read n => s.regs.valid && decide (capOf n ≠ 0) && decide (d < (s.runOf n).quartetsGood)
  | .length => false
  | .position => false
  | .rewind => false
  | .setpos _ => false
  | .write => false
  | .seek => false
  | .setlen => false
  | .peek _ => false
  | .illegal _ => false

/-- R67, R199: the port at which a command with `d` quartets done comes to wait; none when it runs to its end. A quartet is
read, then written (R109); while both ports acknowledge nothing waits, so with one that does not, the wait is at quartet
`d` or nowhere. -/
def waitsAt (s : State) (i : Instr) (d : Nat) : Option Port :=
  if !s.srcAck && needsSource s i d then some .src
  else if !s.outAck && needsOutput s i d then some .out
  else none

/-- R67: how many quartets of a command in flight are done once the access it holds has been acknowledged: the one it was
writing, if it held an OUT access. -/
def Flight.doneNow (f : Flight) : Nat :=
  match f.hold with
  | .src => f.done
  | .out => f.done + 1

/-- R60, R190: `src_req`: the command in flight holds a SRC access, until `src_ack` (R67). -/
def State.srcReq (s : State) : Bool :=
  match s.inflight with
  | some f => s.rstN && decide (f.hold = .src)
  | none => false

/-- R60, R190: `out_we`: the command in flight holds an OUT access, until `out_ack` (R67). -/
def State.outWe (s : State) : Bool :=
  match s.inflight with
  | some f => s.rstN && decide (f.hold = .out)
  | none => false

/-- R192: the OUT bytes after reset abandoned the command in flight: of a READ, every byte below its cap is any value
(log 11), every other byte untouched. A READ whose response is offered and not yet taken counts as completed, so its bytes
stay as written: the spec leaves open whether it is still in flight then (the model's choice, log 19). -/
def State.abandonedOut (s : State) : Memory 8 :=
  match s.inflight.map Flight.cmd with
  | some (.read n) => s.out.fillBelow (Config.abandonedByte s.draws) (capOf n)
  | some (.construct _ _ _) => s.out
  | some .length => s.out
  | some .position => s.out
  | some .rewind => s.out
  | some (.setpos _) => s.out
  | some .write => s.out
  | some .seek => s.out
  | some .setlen => s.out
  | some (.peek _) => s.out
  | some (.illegal _) => s.out
  | none => s.out

/-- R190, R192: a clock edge with `rst_n` = 0: every register takes its reset value, a command in flight is abandoned
without a response, a response not yet taken is dropped (the OUT bytes of its READ stay, log 19). SRC is never written. -/
def State.enterReset (s : State) : State :=
  { s with
    regs := Regs.reset
    out := s.abandonedOut
    rsp := none
    inflight := none
    srcDisturbed := false
    flightDisturbed := false
    keptIndexes := []
    draws := if s.inflight.isSome then s.draws + 1 else s.draws }

/-- R41: is source index `i` part of the text of the CONSTRUCT in flight? -/
def State.inFlightText (s : State) (i : Nat) : Bool :=
  match s.inflight.map Flight.cmd with
  | some (.construct nullSource len _) => !nullSource && decide (i < len.toNat)
  | some (.read _) => false
  | some .length => false
  | some .position => false
  | some .rewind => false
  | some (.setpos _) => false
  | some .write => false
  | some .seek => false
  | some .setlen => false
  | some (.peek _) => false
  | some (.illegal _) => false
  | none => false

/-- R196: is OUT index `i` part of the buffer of the READ in flight? Once its response is offered the READ is over, and a
host write stands, although R196 counts the time up to the transfer of the response (the model's choice, log 20). -/
def State.inFlightBuffer (s : State) (i : Nat) : Bool :=
  match s.inflight.map Flight.cmd with
  | some (.read n) => decide (i < n.toNat)
  | some (.construct _ _ _) => false
  | some .length => false
  | some .position => false
  | some .rewind => false
  | some (.setpos _) => false
  | some .write => false
  | some .seek => false
  | some .setlen => false
  | some (.peek _) => false
  | some (.illegal _) => false
  | none => false

/-- R41: the host stores a character of SRC. Changing a character of the current context's text, or of the text of the
CONSTRUCT in flight, disturbs that text. -/
def State.hostSrcWrite (s : State) (i : Nat) (c : CharCode) : State :=
  let changed := decide (c ≠ s.src.read i)
  { s with
    src := s.src.write i c
    srcDisturbed := s.srcDisturbed || (changed && s.regs.valid && decide (i < s.regs.srcLen.toNat))
    flightDisturbed := s.flightDisturbed || (changed && s.inFlightText i) }

/-- R42, R196: the host stores a byte of OUT. Into the buffer of the READ in flight, it may be kept or overwritten
(log 8). -/
def State.hostOutWrite (s : State) (i : Nat) (b : Byte) : State :=
  if s.inFlightBuffer i then
    { s with
      out := s.out.write i b
      keptIndexes := if Config.hostByteKept s.draws i then s.keptIndexes ++ [i] else s.keptIndexes
      draws := s.draws + 1 }
  else { s with out := s.out.write i b }

/-- One action of the outside world. -/
def State.applyInput (s : State) : HostInput → State
  | .offer c => { s with cmds := s.cmds ++ [c] }
  | .setRspReady b => { s with rspReady := b }
  | .setRstN b => { s with rstN := b }
  | .setSrcAck b => { s with srcAck := b }
  | .setOutAck b => { s with outAck := b }
  | .srcWrite i c => s.hostSrcWrite i.toNat c
  | .outWrite i b => s.hostOutWrite i.toNat b

/-- The outside world's next action; with none, nothing changes (R187: an idle block keeps its registers). -/
def State.hostMove (s : State) : State :=
  match s.inputs with
  | [] => s
  | x :: xs => { s with inputs := xs }.applyInput x

/-- R196, R41: the command that was in flight in state `s` has completed: at the OUT indexes where the host's byte
survives, it stands over the READ's, and the disturbances of the flight are over. -/
def settleFlight (s : State) : Host.Outcome State Fault Refusal → Host.Outcome State Fault Refusal
  | .next t =>
    .next { t with
      out := Memory.restore s.out t.out s.keptIndexes
      keptIndexes := []
      flightDisturbed := false
      draws := if s.flightDisturbed then t.draws + 1 else t.draws }
  | .fault f => .fault f
  | .refused r => .refused r

/-- R67, R51: the command `i` has been accepted. It completes in this step, or, where it comes to wait at a port that does
not acknowledge, is in flight and holds that access (R199). -/
def beginCommand (s : State) (i : Instr) : Host.Outcome State Fault Refusal :=
  match waitsAt s i 0 with
  | some p => .next { s with inflight := some ⟨i, p, 0⟩ }
  | none => exec i s

/-- R67: the access that the command in flight holds has been acknowledged. It goes on, to its end or to its next wait. -/
def resumeCommand (s : State) (f : Flight) : Host.Outcome State Fault Refusal :=
  match waitsAt s f.cmd f.doneNow with
  | some p => .next { s with inflight := some ⟨f.cmd, p, f.doneNow⟩ }
  | none => settleFlight s (exec f.cmd { s with inflight := none })

/-- R67: the command in flight holds its access until that port acknowledges; until then only the outside world moves. -/
def continueCommand (s : State) (f : Flight) : Host.Outcome State Fault Refusal :=
  if s.acks f.hold then resumeCommand s f else .next s.hostMove

/-- R67: a response is offered: it transfers when the host is ready; until then only the outside world moves, and
`cmd_ready` is 0. -/
def offerResponse (s : State) : Host.Outcome State Fault Refusal :=
  if s.rspReady then .next { s with rsp := none } else .next s.hostMove

/-- R67: the block is idle: it accepts the command that stands at the pins; with none, only the outside world moves. -/
def acceptCommand (s : State) : Host.Outcome State Fault Refusal :=
  match s.cmds with
  | [] => .next s.hostMove
  | c :: cs => beginCommand { s with cmds := cs } (decode c)

/-- One step of the block and its surroundings: the block moves when it can, the outside world otherwise (log 5). -/
def clockStep (s : State) : Host.Outcome State Fault Refusal :=
  if s.rstN then
    match s.inflight with
    | some f => continueCommand s f
    | none =>
      match s.rsp with
      | some _ => offerResponse s
      | none => acceptCommand s
  else .next s.enterReset.hostMove

/-- Log 5: the state in which the block, out of reset and idle with its ports answering, has the command `c` at its
pins. -/
def State.withCommand (s : State) (c : Command) : State :=
  { s with
    rstN := true
    cmds := c :: s.cmds
    rsp := none
    srcAck := true
    outAck := true
    inflight := none }

end Sys2Proof.Machine
end

