-- ==== Sys2Proof/Machine/Step.lean ====
section
/-!
DEFINITION. The step function, and placing a command where the step takes its next one.
-/

namespace Sys2Proof.Machine

/-- One step of the machine. -/
def step (s : State) : Host.Outcome State Fault Refusal := clockStep s

/-- The state whose very next step accepts and runs the command with the bits `w` (numbered as spec/opcode_table.json numbers
them). It stands for the host offering that command at the pins of an idle block (log 5). -/
def State.withFetchWord (s : State) (nbits w : Nat) : State := s.withCommand (commandOfTableWord nbits w)

end Sys2Proof.Machine
end

