-- ==== Sys2Proof/Safety.lean ====
section
/-!
DEFINITION. The invariants of the block (spec/10_state.md R32, with R20, R22, R26, R27, R34) and of the model's own
fields, what a safe step is, and the words the statements use for the decoded stream (spec/41_read.md).
-/

namespace Sys2Proof.Machine

/-- R32: `L`, the length of the trimmed content of the current context. -/
def Regs.contentLen (r : Regs) : Nat := 4 * ((r.decodedLength.toNat + r.paddingCount.toNat) / 3)

/-- R32: what holds of the registers of a constructed block between commands (items 1 to 5), with R27's range. -/
structure Regs.ContextInv (r : Regs) : Prop where
  padding : r.paddingCount.toNat ≤ 2
  length : r.decodedLength.toNat = 3 * (r.contentLen / 4) - r.paddingCount.toNat ∧ 4 ≤ r.contentLen
  position : r.decodedPosition.toNat ≤ r.decodedLength.toNat
  content : r.initialCursor.toNat + r.contentLen ≤ r.srcLen.toNat
  cursor : r.sourceCursor.toNat = r.initialCursor.toNat + 4 * ((r.decodedPosition.toNat + 2) / 3)
  triplet : r.decodedPosition.toNat % 3 = 0 ∨ r.decodedPosition = r.decodedLength

/-- The register file's invariant: R32 while VALID = 1; while VALID = 0 every register but LAST_ERR still holds its
reset value (R34, R91). -/
def Regs.Inv (r : Regs) : Prop :=
  if r.valid then r.ContextInv else r = { Regs.reset with lastErr := r.lastErr }

/-- Every listed index of a memory is one of the 2^32 that exist (R7 `ADDR_BITS`). -/
def Memory.Within {w : Nat} (m : Memory w) : Prop := ∀ c ∈ m, c.1 < 2 ^ 32

/-- What a command in flight is (R67, R199): only CONSTRUCT and READ wait. A CONSTRUCT waits to read a text it names; a READ
of a constructed block has done fewer quartets than its buffer has room for. -/
def Flight.Fits (f : Flight) (r : Regs) : Prop :=
  match f.cmd with
  | .construct nullSource len _ => nullSource = false ∧ len ≠ 0#32 ∧ f.hold = .src ∧ f.done = 0
  | .read n => r.valid = true ∧ 3 * f.done < capOf n
  | .length => False
  | .position => False
  | .rewind => False
  | .setpos _ => False
  | .write => False
  | .seek => False
  | .setlen => False
  | .peek _ => False
  | .illegal _ => False

/-- The invariant of the whole state. -/
structure State.Inv (s : State) : Prop where
  regs : s.regs.Inv
  srcForm : s.src.wf
  srcWithin : s.src.Within
  outForm : s.out.wf
  outWithin : s.out.Within
  /-- A response offered carries the code LAST_ERR holds (R26, R13). -/
  response : ∀ r, s.rsp = some r → s.regs.lastErr = r.status
  /-- A command accepted and unanswered excludes an offered response (R67). -/
  handshake : s.inflight.isSome → s.rsp = none
  /-- A command in flight is one that can wait. -/
  flight : ∀ f, s.inflight = some f → f.Fits s.regs
  /-- Only the text of a context can be disturbed (R41). -/
  disturbed : s.srcDisturbed = true → s.regs.valid = true
  /-- The model's own records of a flight are empty when nothing is in flight. -/
  quiet : s.inflight = none → s.flightDisturbed = false ∧ s.keptIndexes = []
  /-- The OUT indexes the host's bytes survive at exist. -/
  kept : ∀ a ∈ s.keptIndexes, a < 2 ^ 32

/-- R27, R84, R87: the registers of an undisturbed context agree with the characters of its text: the content begins and
ends with a character that is no whitespace, and PADDING_COUNT counts its last two characters. -/
def State.ContextMatchesSource (s : State) : Prop :=
  s.regs.valid = true → s.srcDisturbed = false →
    isWs (s.src.read s.regs.initialCursor.toNat) = false ∧
    isWs (s.src.read (s.regs.initialCursor.toNat + s.regs.contentLen - 1)) = false ∧
    s.regs.paddingCount = paddingOf s.src.read (s.regs.initialCursor.toNat + s.regs.contentLen)

/-- A step that raises no fault of the machine. -/
def State.StepIsSafe (s : State) : Prop := ∀ f, step s ≠ .fault f

/-- R109: how many bytes the quartet that starts at decoded position `pos` produces (R114, R115). -/
def Regs.bytesOfQuartetAt (r : Regs) (pos : Nat) : Nat :=
  if pos + 3 < r.decodedLength.toNat then 3 else 3 - r.paddingCount.toNat

/-- R106, R108: the quartet at index `cur` of a text read through `rd`, of which `k` bytes are produced, holds no bad
character: every code is below 256, and the table has a value for every consulted one (positions 0 to k, R107). -/
def CleanQuartet (rd : Nat → CharCode) (cur k : Nat) : Prop :=
  (∀ i < 4, (rd (cur + i)).toNat < 256) ∧ ∀ i < 4, i ≤ k → (entryOf (rd (cur + i))).valid = true

/-- R106, R108: `bad` is the index MalformedCharacter reports for the quartet at `cur` of which `k` bytes are produced: the
lowest of its four codes that is 256 or above; where none is, the lowest consulted one without a value. -/
def ReportsBad (rd : Nat → CharCode) (cur k bad : Nat) : Prop :=
  (∃ i < 4, bad = cur + i ∧ 256 ≤ (rd (cur + i)).toNat ∧ ∀ j < i, (rd (cur + j)).toNat < 256) ∨
  ((∀ i < 4, (rd (cur + i)).toNat < 256) ∧
    ∃ i < 4, i ≤ k ∧ bad = cur + i ∧ (entryOf (rd (cur + i))).valid = false ∧
      ∀ j < i, (entryOf (rd (cur + j))).valid = true)

/-- R122: byte `j` of the decoded stream of the text, read through `rd`, whose content begins at index `init`: byte
`j mod 3` of the triplet of quartet `j div 3` (R104, R46). -/
def streamByte (rd : Nat → CharCode) (init j : Nat) : Byte :=
  let v (i : Nat) := (entryOf (rd (init + 4 * (j / 3) + i))).value
  let y := pack (v 0) (v 1) (v 2) (v 3)
  if j % 3 = 0 then y.1 else if j % 3 = 1 then y.2.1 else y.2.2

/-- R121: how many bytes a successful READ of `n` returns: the smaller of `cap` and what remains. -/
def Regs.readCount (r : Regs) (n : Word) : Nat :=
  min (capOf n) (r.decodedLength.toNat - r.decodedPosition.toNat)

/-- R84: SRC[s … e−1] is the trimmed view of a text of `len` characters from `off` on, and it is not empty. -/
structure TrimmedView (rd : Nat → CharCode) (len off s e : Nat) : Prop where
  start : off ≤ s
  nonempty : s < e
  stop : e ≤ len
  leading : ∀ j, off ≤ j → j < s → isWs (rd j) = true
  trailing : ∀ j, e ≤ j → j < len → isWs (rd j) = true
  first : isWs (rd s) = false
  last : isWs (rd (e - 1)) = false

/-- SRC holds the characters `cs` from index `a` on. -/
def HoldsText (src : Memory 16) (a : Nat) (cs : List CharCode) : Prop :=
  ∀ i (h : i < cs.length), src.read (a + i) = cs[i]

/-- The first `n` bytes of a READ's buffer. -/
def bufferBytes (out : Memory 8) (n : Nat) : List Byte := (List.range n).map (fun j => out.read j)

/-- READs of the given buffer lengths one after another, each buffer's bytes taken before the next READ (R197): all the
bytes in order and the state reached, or none if one of them does not answer OK. -/
def readAll : List Word → State → Option (List Byte × State)
  | [], s => some ([], s)
  | n :: ns, s =>
    match exec (.read n) s with
    | .next t =>
      match t.rsp with
      | some ⟨.ok, w⟩ => (readAll ns t).map (fun r => (bufferBytes t.out w.toNat ++ r.1, r.2))
      | _ => none
    | _ => none

/-- R101 read backwards (RFC 4648 Table 1, 93_implementation_defined K2): the character of a 6-bit value. -/
def alphabetChar (v : Sextet) : CharCode :=
  let n := v.toNat
  if n < 26 then BitVec.ofNat 16 (n + 0x41)
  else if n < 52 then BitVec.ofNat 16 (n + 0x47)
  else if n < 62 then BitVec.ofNat 16 (n - 4)
  else if n = 62 then 0x2B#16
  else 0x2F#16

/-- R123: `E(B)`, the standard RFC 4648 encoding with padding (93_implementation_defined K4). -/
def rfcEncode : List Byte → List CharCode
  | [] => []
  | [a] => [alphabetChar (a.extractLsb' 2 6), alphabetChar (a.extractLsb' 0 2 ++ 0#4), 0x3D#16, 0x3D#16]
  | [a, b] =>
    [alphabetChar (a.extractLsb' 2 6), alphabetChar (a.extractLsb' 0 2 ++ b.extractLsb' 4 4),
      alphabetChar (b.extractLsb' 0 4 ++ 0#2), 0x3D#16]
  | a :: b :: c :: rest =>
    alphabetChar (a.extractLsb' 2 6) :: alphabetChar (a.extractLsb' 0 2 ++ b.extractLsb' 4 4) ::
      alphabetChar (b.extractLsb' 0 4 ++ c.extractLsb' 6 2) :: alphabetChar (c.extractLsb' 0 6) :: rfcEncode rest

end Sys2Proof.Machine
end

