-- ==== Sys2Proof/Certificates/Slice0/Obligations.lean ====
section
/-!
DEFINITION. The statements for the provers. Each docstring names the rule of spec/ it formalises, or says that it is derived.
-/

open Sys2Proof Sys2Proof.Machine

/-! ## Encoding (spec/30_encoding.md) -/

/-- Derived from R61 to R63 and R68: decoding what a well-formed command encodes to gives it back, with every operand at
every value. -/
def Obligations.DecodeOfEncodeIsTheCommand : Prop :=
  ∀ i : Instr, i.wellFormed = true → decode (encode i) = i

/-- Derived from R62, R65, R68: every transaction decodes to a well-formed command, and encoding that command gives the
transaction back with its ignored arguments as 0: no other bit is dropped. -/
def Obligations.EncodeOfDecodeDropsOnlyIgnoredArguments : Prop :=
  ∀ c : Command, (decode c).wellFormed = true ∧
    match decode c with
    | .construct _ _ _ => encode (decode c) = c
    | .read _ => encode (decode c) = { c with arg1 := 0#32 }
    | .length => encode (decode c) = { c with arg0 := 0#32, arg1 := 0#32 }
    | .position => encode (decode c) = { c with arg0 := 0#32, arg1 := 0#32 }
    | .rewind => encode (decode c) = { c with arg0 := 0#32, arg1 := 0#32 }
    | .setpos _ => encode (decode c) = { c with arg1 := 0#32 }
    | .write => encode (decode c) = { c with arg0 := 0#32, arg1 := 0#32 }
    | .seek => encode (decode c) = { c with arg0 := 0#32, arg1 := 0#32 }
    | .setlen => encode (decode c) = { c with arg0 := 0#32, arg1 := 0#32 }
    | .peek _ => encode (decode c) = { c with arg1 := 0#32 }
    | .illegal d => d = c ∧ encode (decode c) = c

/-- R63: the opcode map. A word that a row's match and mask select decodes to that row's command with the arguments of R62
(PEEK's register up to 7, R68); a word no row matches is ILLEGAL; and at most one row matches any word. -/
def Obligations.OpcodeMapSelectsTheRow : Prop :=
  ∀ c : Command,
    (c.word &&& 0xFFFFFFEF#32 = 0x00000001#32 → decode c = .construct (c.word.getLsbD 4) c.arg0 c.arg1) ∧
    (c.word &&& 0xFFFFFFFF#32 = 0x00000002#32 → decode c = .read c.arg0) ∧
    (c.word &&& 0xFFFFFFFF#32 = 0x00000003#32 → decode c = .length) ∧
    (c.word &&& 0xFFFFFFFF#32 = 0x00000004#32 → decode c = .position) ∧
    (c.word &&& 0xFFFFFFFF#32 = 0x00000005#32 → decode c = .rewind) ∧
    (c.word &&& 0xFFFFFFFF#32 = 0x00000006#32 → decode c = .setpos c.arg0) ∧
    (c.word &&& 0xFFFFFFFF#32 = 0x00000007#32 → decode c = .write) ∧
    (c.word &&& 0xFFFFFFFF#32 = 0x00000008#32 → decode c = .seek) ∧
    (c.word &&& 0xFFFFFFFF#32 = 0x00000009#32 → decode c = .setlen) ∧
    (c.word &&& 0xFFFFFFFF#32 = 0x0000000A#32 →
      (∀ r : Reg, r.number = c.arg0 → decode c = .peek r) ∧ (7 < c.arg0.toNat → decode c = .illegal c)) ∧
    ((∀ row ∈ [(0xFFFFFFEF#32, 0x00000001#32), (0xFFFFFFFF#32, 0x00000002#32), (0xFFFFFFFF#32, 0x00000003#32),
        (0xFFFFFFFF#32, 0x00000004#32), (0xFFFFFFFF#32, 0x00000005#32), (0xFFFFFFFF#32, 0x00000006#32),
        (0xFFFFFFFF#32, 0x00000007#32), (0xFFFFFFFF#32, 0x00000008#32), (0xFFFFFFFF#32, 0x00000009#32),
        (0xFFFFFFFF#32, 0x0000000A#32)], c.word &&& row.1 ≠ row.2) → decode c = .illegal c) ∧
    (([(0xFFFFFFEF#32, 0x00000001#32), (0xFFFFFFFF#32, 0x00000002#32), (0xFFFFFFFF#32, 0x00000003#32),
        (0xFFFFFFFF#32, 0x00000004#32), (0xFFFFFFFF#32, 0x00000005#32), (0xFFFFFFFF#32, 0x00000006#32),
        (0xFFFFFFFF#32, 0x00000007#32), (0xFFFFFFFF#32, 0x00000008#32), (0xFFFFFFFF#32, 0x00000009#32),
        (0xFFFFFFFF#32, 0x0000000A#32)]).filter (fun row => decide (c.word &&& row.1 = row.2))).length ≤ 1

/-- R64 and R163: a transaction is ILLEGAL exactly for a reserved opcode, RSV ≠ 0, N = 1 with OP ≠ 0x1, or PEEK with
ARG0 > 7; whatever the state, it answers IllegalCommand with data 0 and changes nothing but LAST_ERR. -/
def Obligations.IllegalCommandsAreExactlyThese : Prop :=
  ∀ c : Command,
    (decode c = .illegal c ↔
      (c.word.toNat % 16 = 0 ∨ 0xB ≤ c.word.toNat % 16) ∨ c.word.toNat / 32 ≠ 0 ∨
      (c.word.toNat / 16 % 2 = 1 ∧ c.word.toNat % 16 ≠ 1) ∨ (c.word.toNat % 16 = 0xA ∧ 7 < c.arg0.toNat)) ∧
    ∀ s : State, exec (.illegal c) s = .next { s with
      regs := { s.regs with lastErr := .illegalCommand }
      rsp := some ⟨.illegalCommand, 0#32⟩ }

/-- R65: an ignored argument is never checked: any value gives the same result as 0. -/
def Obligations.IgnoredArgumentsHaveNoEffect : Prop :=
  ∀ (w a0 a1 : Word) (s : State),
    (w = 0x2#32 ∨ w = 0x6#32 ∨ w = 0xA#32 → exec (decode ⟨w, a0, a1⟩) s = exec (decode ⟨w, a0, 0#32⟩) s) ∧
    (w = 0x3#32 ∨ w = 0x4#32 ∨ w = 0x5#32 ∨ w = 0x7#32 ∨ w = 0x8#32 ∨ w = 0x9#32 →
      exec (decode ⟨w, a0, a1⟩) s = exec (decode ⟨w, 0#32, 0#32⟩) s)

/-- Derived from R63 and R69, a sanity check: words written out from the opcode map decode to their commands. -/
def Obligations.WrittenOutWordsDecode : Prop :=
  decode ⟨0x00000001#32, 12#32, 3#32⟩ = .construct false 12#32 3#32 ∧
  decode ⟨0x00000011#32, 0#32, 0#32⟩ = .construct true 0#32 0#32 ∧
  decode ⟨0x00000002#32, 0xFFFFFFFF#32, 7#32⟩ = .read 0xFFFFFFFF#32 ∧
  decode ⟨0x00000006#32, 5#32, 0#32⟩ = .setpos 5#32 ∧
  decode ⟨0x00000008#32, 1#32, 2#32⟩ = .seek ∧
  decode ⟨0x0000000A#32, 7#32, 0#32⟩ = .peek .config ∧
  decode ⟨0x00000012#32, 0#32, 0#32⟩ = .illegal ⟨0x00000012#32, 0#32, 0#32⟩

/-- Derived from R70 and R143: SETPOS 0 and REWIND are different words with the same effect, in every state. -/
def Obligations.SetposZeroIsAnotherWordForRewind : Prop :=
  assemble (.setpos 0#32) ≠ assemble .rewind ∧
    ∀ s : State, exec (decode (assemble (.setpos 0#32))) s = exec (decode (assemble .rewind)) s

/-! ## The step (spec/30_encoding.md R67, spec/70_reset_and_hazards.md) -/

/-- Derived from R67, R68 and R51: with an idle block out of reset and a command at its pins, a step is `exec` of the
decoded command in the state from which the command has been taken, unless it comes to wait at a port that does not
acknowledge: then it is in flight, holding its access to that port, and nothing else changes (R199). -/
def Obligations.StepRunsTheDecodedCommand : Prop :=
  (∀ (s : State) (c : Command) (cs : List Command), s.rstN = true → s.inflight = none → s.rsp = none →
    s.cmds = c :: cs →
    (waitsAt { s with cmds := cs } (decode c) 0 = none → step s = exec (decode c) { s with cmds := cs }) ∧
    (∀ p, waitsAt { s with cmds := cs } (decode c) 0 = some p →
      step s = .next { s with cmds := cs, inflight := some ⟨decode c, p, 0⟩ }) ∧
    (s.srcAck = true → s.outAck = true → waitsAt { s with cmds := cs } (decode c) 0 = none)) ∧
  ∀ (s : State) (nbits w : Nat), step (s.withFetchWord nbits w) =
    exec (decode (commandOfTableWord nbits w))
      { s with rstN := true, rsp := none, srcAck := true, outAck := true, inflight := none }

/-- Derived from R67: the handshake. From a state that meets the invariant: with `cmd_ready` = 1 a waiting command is taken
and either its response is offered or it is in flight; with `cmd_ready` = 0 out of reset no command is taken; a command in
flight stays so until its response is offered; a response stays offered until the host is ready, and then `cmd_ready` is 1
again; `rsp_valid` is 1 while a response is offered and 0 while none is. -/
def Obligations.OneResponseForEachCommand : Prop :=
  ∀ s t : State, s.Inv → step s = .next t →
    (s.cmdReady = true → ∀ c cs, s.cmds = c :: cs →
      t.cmds = cs ∧ t.cmdReady = false ∧ (t.rsp.isSome = true ↔ t.inflight.isSome = false)) ∧
    (s.rstN = true → s.cmdReady = false → t.cmds = s.cmds ∨ ∃ c, t.cmds = s.cmds ++ [c]) ∧
    (s.rstN = true → ∀ f, s.inflight = some f →
      (∃ f', t.inflight = some f' ∧ f'.cmd = f.cmd ∧ t.rsp = none) ∨ (t.inflight = none ∧ t.rsp.isSome = true)) ∧
    (s.rstN = true → ∀ r, s.rsp = some r →
      (s.rspReady = false → t.rsp = some r) ∧ (s.rspReady = true → t = { s with rsp := none } ∧ t.cmdReady = true)) ∧
    (s.rstN = true → (s.rspValid = true ↔ ∃ r, s.rsp = some r))

/-- Derived from R187: an idle block keeps its registers, with `cmd_ready` = 1, and with nothing going on around it its whole state. -/
def Obligations.IdleBlockKeepsItsRegisters : Prop :=
  ∀ s : State, s.rstN = true → s.inflight = none → s.rsp = none → s.cmds = [] →
    s.cmdReady = true ∧ ∃ t, step s = .next t ∧ t.regs = s.regs ∧ (s.inputs = [] → t = s)

/-- Derived from R199 and R67: from a state that meets the invariant and out of reset, an idle block with its ports
acknowledging completes any command in one step with a response, and so it completes any command in flight. When just the
port of the access it holds acknowledges, a command in flight completes too, or it goes on, with nothing else changed, to
hold an access to the other port, which does not acknowledge; a READ has then done one quartet more when it held an OUT
access. It never waits for a quartet its buffer has no room for (the order of the waits, and their count in quartets, are
the model's choice, log 6). However a command in flight comes to complete, what it does is its own effect, `exec` of it in
the state it is in: its registers, its response and, but where the host's bytes are kept (log 8), its OUT bytes; nothing
else changes but the model's own records of the flight. A port that never acknowledges stalls it: while the outside world
does nothing, a step changes nothing. -/
def Obligations.EveryCommandTerminates : Prop :=
  (∀ (s : State) (c : Command) (cs : List Command), s.Inv → s.rstN = true → s.inflight = none → s.rsp = none →
    s.srcAck = true → s.outAck = true → s.cmds = c :: cs →
    ∃ t r, step s = .next t ∧ t.cmds = cs ∧ t.inflight = none ∧ t.rsp = some r) ∧
  ∀ (s : State) (f : Flight), s.Inv → s.rstN = true → s.inflight = some f →
    (s.srcAck = true → s.outAck = true → ∃ t r, step s = .next t ∧ t.inflight = none ∧ t.rsp = some r) ∧
    (s.acks f.hold = true →
      (∃ t r, step s = .next t ∧ t.inflight = none ∧ t.rsp = some r) ∨
      ∃ p, p ≠ f.hold ∧ s.acks p = false ∧
        step s = .next { s with inflight := some ⟨f.cmd, p, if f.hold = .out then f.done + 1 else f.done⟩ } ∧
        ∀ n, f.cmd = .read n → 3 * (if f.hold = .out then f.done + 1 else f.done) < n.toNat / 3 * 3) ∧
    (∀ t, step s = .next t → t.inflight = none →
      ∃ u, exec f.cmd { s with inflight := none } = .next u ∧
        t = { u with out := t.out, keptIndexes := [], flightDisturbed := false, draws := t.draws } ∧
        (∀ a ∈ s.keptIndexes, t.out.read a = s.out.read a) ∧
        (∀ a, a ∉ s.keptIndexes → t.out.read a = u.out.read a)) ∧
    (s.acks f.hold = false → s.inputs = [] → step s = .next s)

/-- Derived from R34 and R29: the reset values: every register of the file reads 0 and CONFIG 0x00201001, and a reset with
nothing in flight and nothing going on around it touches neither memory (that a READ whose response is offered is no longer
in flight is the model's choice, log 19). -/
def Obligations.ResetValues : Prop :=
  (∀ r : Reg, State.reset.regs.read r = if r = .config then 0x00201001#32 else 0#32) ∧
  State.reset.regs.valid = false ∧ State.reset.regs.eos = false ∧ State.reset.regs.lastErr.code = 0#4 ∧
  ∀ s : State, s.rstN = false → s.inflight = none → s.inputs = [] →
    ∃ t, step s = .next t ∧ t.src = s.src ∧ t.out = s.out ∧ t.regs = State.reset.regs

/-- R190: while `rst_n` is 0 the outputs are held at 0, and a step in it leaves every register at its reset value, nothing
in flight and no response; once `rst_n` is 1 the block is idle with `cmd_ready` = 1. -/
def Obligations.ResetClearsTheBlock : Prop :=
  ∀ s : State, s.rstN = false →
    s.cmdReady = false ∧ s.rspValid = false ∧ s.srcReq = false ∧ s.outWe = false ∧
    ∃ t, step s = .next t ∧ (∀ r : Reg, t.regs.read r = if r = .config then 0x00201001#32 else 0#32) ∧
      t.inflight = none ∧ t.rsp = none ∧ (t.rstN = true → t.cmdReady = true)

/-- Derived from R192 (the free value is this model's form of "any value", log 11): a command in flight when reset is asserted is abandoned with no response; of the OUT bytes of a READ only those
below its cap (the largest multiple of 3 up to its buffer length) may change, and each is then a free value; SRC is not
written. -/
def Obligations.ResetAbandonsTheCommandInFlight : Prop :=
  ∀ (s : State) (f : Flight), s.rstN = false → s.inflight = some f → s.inputs = [] →
    ∃ t, step s = .next t ∧ t.inflight = none ∧ t.rsp = none ∧ t.regs = Regs.reset ∧ t.src = s.src ∧
      (∀ a, (∀ n, f.cmd = .read n → n.toNat / 3 * 3 ≤ a) → t.out.read a = s.out.read a) ∧
      (∀ n a, f.cmd = .read n → s.out.wf → a < n.toNat / 3 * 3 → t.out.read a = Config.abandonedByte s.draws a)

/-! ## Invariants (spec/10_state.md R32) -/

/-- Derived from R34 and R32 (the memories' form and the fields of the model's own are the model's choice, logs 1, 6, 7, 8):
the reset state meets the invariant, and its context agrees with its source. -/
def Obligations.ResetMeetsTheInvariant : Prop :=
  State.reset.Inv ∧ State.reset.ContextMatchesSource

/-- Derived from R32 (the memories' form and the fields of the model's own are the model's choice, logs 1, 6, 7, 8): every
step keeps the register invariants of R32 (while VALID = 1), the reset values of an unconstructed block, the
memories' canonical form, and the handshake's exclusions. -/
def Obligations.EveryStepKeepsTheInvariant : Prop :=
  ∀ s t : State, s.Inv → step s = .next t → t.Inv

/-- Derived from R27, R41, R84, R87, R89: every step keeps an undisturbed context in agreement with the characters of its
source: trimmed ends, and the padding count of the last two characters. -/
def Obligations.EveryStepKeepsTheContextInAgreement : Prop :=
  ∀ s t : State, s.Inv → s.ContextMatchesSource → step s = .next t → t.ContextMatchesSource

/-- Derived from R28, R40 and R120: from a state that meets the invariant no step faults or is refused: the cursor never
exceeds the validated bounds. -/
def Obligations.NoStepLeavesTheSource : Prop :=
  ∀ s : State, s.Inv → s.StepIsSafe ∧ ∃ t, step s = .next t

/-! ## Rules over all commands -/

/-- R26: the STATUS word's bits: VALID in bit 0, EOS (VALID and position = length) in bit 1, LAST_ERR in bits 7:4, the
others 0; every command that completes leaves in LAST_ERR the code of its response; VALID is 0 after reset,
becomes 1 by a CONSTRUCT that answers OK and changes by no other command. -/
def Obligations.StatusRegister : Prop :=
  (∀ r : Regs, r.statusWord.getLsbD 0 = r.valid ∧
    r.statusWord.getLsbD 1 = (r.valid && decide (r.decodedPosition = r.decodedLength)) ∧
    r.statusWord.extractLsb' 2 2 = 0#2 ∧ r.statusWord.extractLsb' 4 4 = r.lastErr.code ∧
    r.statusWord.extractLsb' 8 24 = 0#24) ∧
  State.reset.regs.valid = false ∧
  ∀ (i : Instr) (s t : State), exec i s = .next t →
    ∃ r, t.rsp = some r ∧ t.regs.lastErr = r.status ∧
      (t.regs.valid = true ↔ s.regs.valid = true ∨ (r.status = .ok ∧ ∃ z len off, i = .construct z len off))

/-- Derived from R170 and R66: the codes' numbers, which command produces which code, and `rsp_data` = 0 on every error but
MalformedCharacter. -/
def Obligations.StatusCodesOfEachCommand : Prop :=
  ([StatusCode.ok, .emptyInput, .malformedLength, .malformedCharacter, .bufferTooSmall, .unsupported, .notConstructed,
      .offsetOutOfRange, .illegalCommand].map StatusCode.code = [0#4, 1#4, 2#4, 3#4, 4#4, 5#4, 6#4, 7#4, 8#4]) ∧
  ∀ (i : Instr) (s t : State) (r : Response), exec i s = .next t → t.rsp = some r →
    (r.status ≠ .ok → r.status ≠ .malformedCharacter → r.data = 0#32) ∧
    match i with
    | .construct _ _ _ => r.status ∈ [StatusCode.ok, .emptyInput, .malformedLength, .offsetOutOfRange]
    | .read _ => r.status ∈ [StatusCode.ok, .malformedCharacter, .bufferTooSmall, .notConstructed]
    | .length => r.status ∈ [StatusCode.ok, .notConstructed]
    | .position => r.status ∈ [StatusCode.ok, .notConstructed]
    | .rewind => r.status ∈ [StatusCode.ok, .notConstructed]
    | .setpos v => r.status ∈ [StatusCode.ok, .notConstructed] ∨ (v ≠ 0#32 ∧ r.status = .unsupported)
    | .write => r.status ∈ [StatusCode.unsupported, .notConstructed]
    | .seek => r.status ∈ [StatusCode.unsupported, .notConstructed]
    | .setlen => r.status ∈ [StatusCode.unsupported, .notConstructed]
    | .peek _ => r.status = .ok
    | .illegal _ => r.status = .illegalCommand

/-- Derived from R13 and R180: a command that raises writes no register but LAST_ERR; it writes no byte of OUT either, but for the bytes
a READ decoded before a malformed character (R112). -/
def Obligations.ErrorsWriteOnlyLastErr : Prop :=
  ∀ (i : Instr) (s t : State) (r : Response), exec i s = .next t → t.rsp = some r → r.status ≠ .ok →
    t.regs = { s.regs with lastErr := r.status } ∧ t.src = s.src ∧ (r.status ≠ .malformedCharacter → t.out = s.out)

/-- Derived from R20, R29 and R125: which command writes which register: SRC_LEN, INITIAL_CURSOR, DECODED_LENGTH, PADDING_COUNT and VALID only
CONSTRUCT; SOURCE_CURSOR and DECODED_POSITION only CONSTRUCT, READ, REWIND and SETPOS 0; CONFIG reads the same in every
state. -/
def Obligations.RegistersAreWrittenOnlyByTheirCommands : Prop :=
  ∀ (i : Instr) (s t : State), exec i s = .next t →
    ((∀ z len off, i ≠ .construct z len off) →
      t.regs.srcLen = s.regs.srcLen ∧ t.regs.initialCursor = s.regs.initialCursor ∧
      t.regs.decodedLength = s.regs.decodedLength ∧ t.regs.paddingCount = s.regs.paddingCount ∧
      t.regs.valid = s.regs.valid) ∧
    ((∀ z len off, i ≠ .construct z len off) → (∀ n, i ≠ .read n) → i ≠ .rewind → i ≠ .setpos 0#32 →
      t.regs.sourceCursor = s.regs.sourceCursor ∧ t.regs.decodedPosition = s.regs.decodedPosition) ∧
    t.regs.read .config = 0x00201001#32 ∧ s.regs.read .config = 0x00201001#32

/-- Derived from R40, R42, R51: no command writes SRC, only READ writes OUT, and a command leaves the ports, the queue of
commands and the outside world's plans as they are. -/
def Obligations.CommandsTouchOnlyTheirMemories : Prop :=
  ∀ (i : Instr) (s t : State), exec i s = .next t →
    t.src = s.src ∧ ((∀ n, i ≠ .read n) → t.out = s.out) ∧
    t.rstN = s.rstN ∧ t.cmds = s.cmds ∧ t.rspReady = s.rspReady ∧ t.srcAck = s.srcAck ∧ t.outAck = s.outAck ∧
    t.inflight = s.inflight ∧ t.inputs = s.inputs

/-- R176: on a block that is not constructed, every command but CONSTRUCT, PEEK and ILLEGAL answers NotConstructed and
writes nothing but LAST_ERR. -/
def Obligations.UnconstructedBlockAnswersNotConstructed : Prop :=
  ∀ (i : Instr) (s : State), s.regs.valid = false → (∀ z len off, i ≠ .construct z len off) → (∀ r, i ≠ .peek r) →
    (∀ c, i ≠ .illegal c) →
    exec i s = .next { s with
      regs := { s.regs with lastErr := .notConstructed }
      rsp := some ⟨.notConstructed, 0#32⟩ }

/-! ## CONSTRUCT (spec/40_construct.md) -/

/-- R82 and R85, R171: a null source, an empty one, one of whitespace alone (whatever the offset, tested before it), and
one with whitespace alone from an in-range offset on, each answer EmptyInput and write nothing but LAST_ERR; a null or an
empty source is not read. -/
def Obligations.ConstructEmptyInput : Prop :=
  ∀ (z : Bool) (len off : Word) (s : State),
    z = true ∨ len = 0#32 ∨ (∀ j < len.toNat, isWs (s.srcReadNew j) = true) ∨
      (off.toNat ≤ len.toNat ∧ ∀ j, off.toNat ≤ j → j < len.toNat → isWs (s.srcReadNew j) = true) →
    exec (.construct z len off) s = .next { s with
      regs := { s.regs with lastErr := .emptyInput }
      rsp := some ⟨.emptyInput, 0#32⟩ } ∧
    (z = true ∨ len = 0#32 → ∀ d, needsSource s (.construct z len off) d = false)

/-- R83, R177, R179: an offset beyond a source that is not all whitespace answers OffsetOutOfRange. -/
def Obligations.ConstructOffsetOutOfRange : Prop :=
  ∀ (len off : Word) (s : State) (j : Nat), j < len.toNat → isWs (s.srcReadNew j) = false → len.toNat < off.toNat →
    exec (.construct false len off) s = .next { s with
      regs := { s.regs with lastErr := .offsetOutOfRange }
      rsp := some ⟨.offsetOutOfRange, 0#32⟩ }

/-- R86, R172: a trimmed view SRC[a … e−1] whose length is no multiple of 4 answers MalformedLength. -/
def Obligations.ConstructMalformedLength : Prop :=
  ∀ (len off : Word) (s : State) (a e : Nat), TrimmedView s.srcReadNew len.toNat off.toNat a e → (e - a) % 4 ≠ 0 →
    exec (.construct false len off) s = .next { s with
      regs := { s.regs with lastErr := .malformedLength }
      rsp := some ⟨.malformedLength, 0#32⟩ }

/-- Derived from R84, R87, R88, R89 and R90, with R81 (that the length lies below 2^32 is R25's, which the spec derives; that
the context takes over the disturbance of its flight is the model's choice, log 7): a trimmed view SRC[a … e−1] whose length is a multiple of 4 makes a context, whatever
characters it holds (R90): SRC_LEN is the length named, both cursors stand at the view's first character, PADDING_COUNT
counts the `=` among its last two, DECODED_LENGTH is 3 bytes a quartet less the padding, the position is 0, VALID is 1;
the response is OK with DECODED_LENGTH; the new context meets the invariants of R32; nothing else changes but the model's
own mark of a disturbed text. -/
def Obligations.ConstructMakesTheContext : Prop :=
  ∀ (len off : Word) (s : State) (a e p : Nat), TrimmedView s.srcReadNew len.toNat off.toNat a e → (e - a) % 4 = 0 →
    p = (if s.srcReadNew (e - 1) = 0x3D#16 ∧ s.srcReadNew (e - 2) = 0x3D#16 then 2
      else if s.srcReadNew (e - 1) = 0x3D#16 then 1 else 0) →
    1 ≤ 3 * ((e - a) / 4) - p ∧ 3 * ((e - a) / 4) - p < 2 ^ 32 ∧
    ∃ r : Regs, r =
        { valid := true
          lastErr := .ok
          srcLen := len
          initialCursor := BitVec.ofNat 32 a
          sourceCursor := BitVec.ofNat 32 a
          decodedPosition := 0#32
          decodedLength := BitVec.ofNat 32 (3 * ((e - a) / 4) - p)
          paddingCount := BitVec.ofNat 2 p } ∧
      r.ContextInv ∧ r.contentLen = e - a ∧
      exec (.construct false len off) s = .next { s with
        regs := r
        rsp := some ⟨.ok, BitVec.ofNat 32 (3 * ((e - a) / 4) - p)⟩
        srcDisturbed := s.flightDisturbed }

/-- R91: every CONSTRUCT completes, and one that raises leaves SRC_LEN, the cursors, DECODED_POSITION, DECODED_LENGTH,
PADDING_COUNT and VALID as they were: only LAST_ERR changes, and the whole old context stays. -/
def Obligations.FailedConstructKeepsTheContext : Prop :=
  ∀ (z : Bool) (len off : Word) (s : State),
    ∃ t r, exec (.construct z len off) s = .next t ∧ t.rsp = some r ∧
      (r.status ≠ .ok → t = { s with regs := { s.regs with lastErr := r.status }, rsp := some r })

/-- Derived from R92, R93 and R40: what a CONSTRUCT answers, and every register it makes, depend on its operands and on the
`len` characters of its text alone: nothing of the old context survives, and no other character of SRC is looked at. -/
def Obligations.ConstructDependsOnItsTextAlone : Prop :=
  ∀ (z : Bool) (len off : Word) (s s' t : State) (r : Response),
    s.flightDisturbed = false → s'.flightDisturbed = false →
    (∀ j < len.toNat, s.src.read j = s'.src.read j) →
    exec (.construct z len off) s = .next t → t.rsp = some r →
    ∃ t', exec (.construct z len off) s' = .next t' ∧ t'.rsp = some r ∧ (r.status = .ok → t'.regs = t.regs)

/-- Derived (R95, which the spec derives from R84 to R88): surrounding a content C with whitespace, and putting any prefix P before it with `off` = |P|, changes neither the
answer (DECODED_LENGTH) nor PADDING_COUNT; INITIAL_CURSOR moves by |P| plus the leading whitespace. -/
def Obligations.WhitespaceAndOffsetLaws : Prop :=
  ∀ (pre before content after : List CharCode) (len off len' : Word) (s s' : State),
    (∀ c ∈ before, isWs c = true) → (∀ c ∈ after, isWs c = true) →
    content ≠ [] → content.length % 4 = 0 →
    (∀ c, content.head? = some c → isWs c = false) → (∀ c, content.getLast? = some c → isWs c = false) →
    s.flightDisturbed = false → s'.flightDisturbed = false →
    HoldsText s.src 0 content → len.toNat = content.length →
    HoldsText s'.src 0 (pre ++ before ++ content ++ after) →
    len'.toNat = (pre ++ before ++ content ++ after).length → off.toNat = pre.length →
    ∃ t t' d, exec (.construct false len 0#32) s = .next t ∧ exec (.construct false len' off) s' = .next t' ∧
      t.rsp = some ⟨.ok, d⟩ ∧ t'.rsp = some ⟨.ok, d⟩ ∧
      t.regs.decodedLength = d ∧ t'.regs.decodedLength = d ∧ t'.regs.paddingCount = t.regs.paddingCount ∧
      t.regs.initialCursor.toNat = 0 ∧ t'.regs.initialCursor.toNat = pre.length + before.length

/-! ## READ (spec/41_read.md) -/

/-- R101 and R103: the lookup table: which codes are valid, and their values, an invalid entry's word is 0 and a valid one's
is its value under a leading 1; 64 of the 256 entries are valid. -/
def Obligations.LookupTableContents : Prop :=
  (∀ c : BitVec 8,
    (0x41 ≤ c.toNat ∧ c.toNat ≤ 0x5A → (lut c).valid = true ∧ (lut c).value.toNat = c.toNat - 0x41) ∧
    (0x61 ≤ c.toNat ∧ c.toNat ≤ 0x7A → (lut c).valid = true ∧ (lut c).value.toNat = c.toNat - 0x47) ∧
    (0x30 ≤ c.toNat ∧ c.toNat ≤ 0x39 → (lut c).valid = true ∧ (lut c).value.toNat = c.toNat + 4) ∧
    (c.toNat = 0x2B → (lut c).valid = true ∧ (lut c).value.toNat = 62) ∧
    (c.toNat = 0x2F → (lut c).valid = true ∧ (lut c).value.toNat = 63) ∧
    ((lut c).valid = true → (0x41 ≤ c.toNat ∧ c.toNat ≤ 0x5A) ∨ (0x61 ≤ c.toNat ∧ c.toNat ≤ 0x7A) ∨
      (0x30 ≤ c.toNat ∧ c.toNat ≤ 0x39) ∨ c.toNat = 0x2B ∨ c.toNat = 0x2F) ∧
    ((lut c).valid = false → (lut c).word = 0#7 ∧ (lut c).value = 0#6) ∧
    ((lut c).valid = true → (lut c).word = 1#1 ++ (lut c).value)) ∧
  ((List.range 256).filter (fun n => (lut (BitVec.ofNat 8 n)).valid)).length = 64

/-- Derived from R104 and R105: the packer's three bytes, each formula of R104 stored into 8 bits; the bit-slice form, which
the spec derives in R104; and, as R105 derives, the three bytes together are the 24-bit value of the four 6-bit lanes in
order. -/
def Obligations.PackerConvertsLanes : Prop :=
  ∀ b1 b2 b3 b4 : Sextet,
    ((pack b1 b2 b3 b4).1.toNat = (b1.toNat <<< 2 ||| b2.toNat >>> 4) % 256 ∧
      (pack b1 b2 b3 b4).2.1.toNat = (b2.toNat <<< 4 ||| b3.toNat >>> 2) % 256 ∧
      (pack b1 b2 b3 b4).2.2.toNat = (b3.toNat <<< 6 ||| b4.toNat) % 256) ∧
    (pack b1 b2 b3 b4 = (b1.extractLsb' 0 6 ++ b2.extractLsb' 4 2, b2.extractLsb' 0 4 ++ b3.extractLsb' 2 4,
      b3.extractLsb' 0 2 ++ b4.extractLsb' 0 6)) ∧
    (pack b1 b2 b3 b4).1 ++ (pack b1 b2 b3 b4).2.1 ++ (pack b1 b2 b3 b4).2.2 = b1 ++ b2 ++ b3 ++ b4

/-- Derived from R105, R107 and R119: the bits the final quartet discards have no effect: byte 0 depends on the second
value's high two bits only, byte 1 on the second value's low four bits and the third's high four bits only. -/
def Obligations.DiscardedBitsHaveNoEffect : Prop :=
  ∀ b1 b2 b3 b4 b2' b3' b4' : Sextet,
    (b2.extractLsb' 4 2 = b2'.extractLsb' 4 2 → (pack b1 b2 b3 b4).1 = (pack b1 b2' b3' b4').1) ∧
    (b2.extractLsb' 0 4 = b2'.extractLsb' 0 4 → b3.extractLsb' 2 4 = b3'.extractLsb' 2 4 →
      (pack b1 b2 b3 b4).2.1 = (pack b1 b2' b3' b4').2.1)

/-- Derived from R104 and R106 to R109, with ALPHABET_CHECK = 1 (the consulted positions 0 to k are those of R107, which the
spec derives from R104): a quartet inside the source without a bad character answers its first
`k` bytes, packed from the table's values; one with a bad character answers the index R106 and R108 report. -/
def Obligations.QuartetFunction : Prop :=
  ∀ (g : Nat → Byte) (rd : Nat → CharCode) (bound cur k : Nat), cur + 4 ≤ bound → 1 ≤ k → k ≤ 3 →
    (CleanQuartet rd cur k → quartet true g rd bound cur k = .good
      (([(pack (entryOf (rd cur)).value (entryOf (rd (cur + 1))).value (entryOf (rd (cur + 2))).value
            (entryOf (rd (cur + 3))).value).1,
        (pack (entryOf (rd cur)).value (entryOf (rd (cur + 1))).value (entryOf (rd (cur + 2))).value
            (entryOf (rd (cur + 3))).value).2.1,
        (pack (entryOf (rd cur)).value (entryOf (rd (cur + 1))).value (entryOf (rd (cur + 2))).value
            (entryOf (rd (cur + 3))).value).2.2] : List Byte).take k)) ∧
    (∀ bad, ReportsBad rd cur k bad → quartet true g rd bound cur k = .bad bad) ∧
    (¬ CleanQuartet rd cur k → ∃ bad, ReportsBad rd cur k bad)

/-- Derived from R118 (ALPHABET_CHECK = 0, a parameter value this hardware does not take): a quartet whose codes are all
below 256 always answers `k` bytes; a byte whose formula reads valid entries only is the packer's, any other is the free
value of its lane. -/
def Obligations.LegacyQuartet : Prop :=
  ∀ (g : Nat → Byte) (rd : Nat → CharCode) (bound cur k : Nat), cur + 4 ≤ bound → k ≤ 3 →
    (∀ i < 4, (rd (cur + i)).toNat < 256) →
    ∃ ys : List Byte, quartet false g rd bound cur k = .good ys ∧ ys.length = k ∧
      ∀ (j : Nat) (y : Byte), ys[j]? = some y →
        if (entryOf (rd (cur + j))).valid = true ∧ (entryOf (rd (cur + j + 1))).valid = true
        then y = streamByte rd cur j
        else y = g j

/-- R113: a READ on an unconstructed block answers NotConstructed whatever its buffer; on a constructed one with a buffer
of 0, 1 or 2 bytes it answers BufferTooSmall, at end-of-stream too; nothing changes but LAST_ERR, and no byte is written. -/
def Obligations.ReadPreconditions : Prop :=
  ∀ (n : Word) (s : State),
    (s.regs.valid = false → exec (.read n) s = .next { s with
      regs := { s.regs with lastErr := .notConstructed }
      rsp := some ⟨.notConstructed, 0#32⟩ }) ∧
    (s.regs.valid = true → n.toNat < 3 → exec (.read n) s = .next { s with
      regs := { s.regs with lastErr := .bufferTooSmall }
      rsp := some ⟨.bufferTooSmall, 0#32⟩ })

/-- Derived from R116 (its sentence that 0 is returned exactly at end-of-stream is one the spec derives from R114, R115 and
cap ≥ 3): at end-of-stream a READ with room for a triplet needs no source character, answers OK with 0, writes no byte and
moves nothing; and a READ answers OK with 0 only there. -/
def Obligations.ReadAtEndOfStream : Prop :=
  ∀ (n : Word) (s : State), s.Inv → s.regs.valid = true → 3 ≤ n.toNat →
    (s.regs.decodedPosition = s.regs.decodedLength →
      (∀ d, needsSource s (.read n) d = false) ∧ ∃ t, exec (.read n) s = .next t ∧ t.rsp = some ⟨.ok, 0#32⟩ ∧ t.out = s.out ∧ t.src = s.src ∧
        t.regs = { s.regs with lastErr := .ok }) ∧
    (∀ t, exec (.read n) s = .next t → t.rsp = some ⟨.ok, 0#32⟩ → s.regs.decodedPosition = s.regs.decodedLength)

/-- Derived from R111, R114, R115, R117, R121 and R122: when no quartet in reach of the buffer holds a bad character, a READ answers OK
with w = min(cap, what remains), its bytes are bytes DECODED_POSITION on of the decoded stream, every other byte of OUT
stays, the position moves by w and the cursor by 4 a quartet, and nothing else changes. -/
def Obligations.ReadDeliversTheDecodedStream : Prop :=
  ∀ (n : Word) (s : State), s.Inv → s.regs.valid = true → 3 ≤ n.toNat →
    (∀ q, s.regs.decodedPosition.toNat + 3 * q < s.regs.decodedLength.toNat → 3 * q < n.toNat / 3 * 3 →
      CleanQuartet s.srcRead (s.regs.sourceCursor.toNat + 4 * q)
        (s.regs.bytesOfQuartetAt (s.regs.decodedPosition.toNat + 3 * q))) →
    ∃ t w, w = min (n.toNat / 3 * 3) (s.regs.decodedLength.toNat - s.regs.decodedPosition.toNat) ∧
      exec (.read n) s = .next t ∧
      t = { s with
        regs := { s.regs with
          lastErr := .ok
          decodedPosition := BitVec.ofNat 32 (s.regs.decodedPosition.toNat + w)
          sourceCursor := BitVec.ofNat 32 (s.regs.sourceCursor.toNat + 4 * ((w + 2) / 3)) }
        rsp := some ⟨.ok, BitVec.ofNat 32 w⟩
        out := t.out
        draws := t.draws } ∧
      (∀ j < w, t.out.read j =
        streamByte s.srcRead s.regs.initialCursor.toNat (s.regs.decodedPosition.toNat + j)) ∧
      (∀ j, w ≤ j → t.out.read j = s.out.read j)

/-- Derived from R112, R106, R108 and R179: when the first `q` quartets in reach are clean and the next one in reach holds a bad
character, a READ answers MalformedCharacter with the index R106 and R108 report; no register but LAST_ERR changes; OUT
holds the bytes of the `q` quartets before it and no other new byte, and `q` is (data − SOURCE_CURSOR) div 4. -/
def Obligations.ReadReportsTheFirstBadCharacter : Prop :=
  ∀ (n : Word) (s : State) (q bad : Nat), s.Inv → s.regs.valid = true →
    s.regs.decodedPosition.toNat + 3 * q < s.regs.decodedLength.toNat → 3 * q < n.toNat / 3 * 3 →
    (∀ p < q, CleanQuartet s.srcRead (s.regs.sourceCursor.toNat + 4 * p)
      (s.regs.bytesOfQuartetAt (s.regs.decodedPosition.toNat + 3 * p))) →
    ReportsBad s.srcRead (s.regs.sourceCursor.toNat + 4 * q)
      (s.regs.bytesOfQuartetAt (s.regs.decodedPosition.toNat + 3 * q)) bad →
    (bad - s.regs.sourceCursor.toNat) / 4 = q ∧ bad < s.regs.srcLen.toNat ∧
    ∃ t, exec (.read n) s = .next t ∧
      t = { s with
        regs := { s.regs with lastErr := .malformedCharacter }
        rsp := some ⟨.malformedCharacter, BitVec.ofNat 32 bad⟩
        out := t.out
        draws := t.draws } ∧
      (∀ j < 3 * q, t.out.read j =
        streamByte s.srcRead s.regs.initialCursor.toNat (s.regs.decodedPosition.toNat + j)) ∧
      (∀ j, 3 * q ≤ j → t.out.read j = s.out.read j)

/-- Derived (R121 and R120, which the spec derives from R113 to R117): a READ that answers OK returns w = min(cap, DECODED_LENGTH − DECODED_POSITION); the position moves by w
and the cursor by 4·⌈w / 3⌉. -/
def Obligations.BytesPerRead : Prop :=
  ∀ (n : Word) (s t : State) (w : Word), s.Inv → s.regs.valid = true → exec (.read n) s = .next t →
    t.rsp = some ⟨.ok, w⟩ →
    w.toNat = min (n.toNat / 3 * 3) (s.regs.decodedLength.toNat - s.regs.decodedPosition.toNat) ∧
    t.regs.decodedPosition.toNat = s.regs.decodedPosition.toNat + w.toNat ∧
    t.regs.sourceCursor.toNat = s.regs.sourceCursor.toNat + 4 * ((w.toNat + 2) / 3)

/-- Derived from R43, R112, R117, R125, the frame of READ in every state: SRC, VALID, SRC_LEN, INITIAL_CURSOR, DECODED_LENGTH
and PADDING_COUNT stay; the cursor and the position stay unless it answers OK; every byte of OUT at or above cap stays,
and, when it answers OK with w, every byte at or above w. -/
def Obligations.ReadFrame : Prop :=
  ∀ (n : Word) (s t : State) (r : Response), exec (.read n) s = .next t → t.rsp = some r →
    t.regs = { s.regs with
      lastErr := r.status
      sourceCursor := t.regs.sourceCursor
      decodedPosition := t.regs.decodedPosition } ∧
    (r.status ≠ .ok → t.regs.sourceCursor = s.regs.sourceCursor ∧ t.regs.decodedPosition = s.regs.decodedPosition) ∧
    t = { s with regs := t.regs, rsp := t.rsp, out := t.out, draws := t.draws } ∧
    (∀ j, n.toNat / 3 * 3 ≤ j → t.out.read j = s.out.read j) ∧
    (r.status = .ok → ∀ j, r.data.toNat ≤ j → t.out.read j = s.out.read j)

/-- Derived from R112 and R181: a READ repeated after MalformedCharacter meets the same character, reports it again, and
rewrites the same bytes: it changes nothing at all (OUT too, because the two READs share their buffer here, log 21). -/
def Obligations.RepeatedReadReportsAgain : Prop :=
  ∀ (n : Word) (s t : State) (d : Word), s.Inv → s.srcDisturbed = false → exec (.read n) s = .next t →
    t.rsp = some ⟨.malformedCharacter, d⟩ → exec (.read n) t = .next t

/-- Derived from R124 and R40: what a READ answers and delivers depends only on the content's characters relative to
INITIAL_CURSOR and on the registers relative to it: the bytes it delivers, those before a bad quartet too, are the same, and
an index it reports moves with INITIAL_CURSOR. -/
def Obligations.ReadDependsOnTheContentAlone : Prop :=
  ∀ (n : Word) (s s' t : State) (r : Response), s.Inv → s'.Inv → s.regs.valid = true → s'.regs.valid = true →
    s.srcDisturbed = false → s'.srcDisturbed = false →
    s'.regs.decodedLength = s.regs.decodedLength → s'.regs.decodedPosition = s.regs.decodedPosition →
    s'.regs.paddingCount = s.regs.paddingCount →
    (∀ j < s.regs.contentLen,
      s'.src.read (s'.regs.initialCursor.toNat + j) = s.src.read (s.regs.initialCursor.toNat + j)) →
    exec (.read n) s = .next t → t.rsp = some r →
    ∃ t' r', exec (.read n) s' = .next t' ∧ t'.rsp = some r' ∧ r'.status = r.status ∧
      t'.regs.decodedPosition = t.regs.decodedPosition ∧
      (r.status = .ok → r'.data = r.data ∧ ∀ j < r.data.toNat, t'.out.read j = t.out.read j) ∧
      (r.status = .malformedCharacter →
        r'.data.toNat + s.regs.initialCursor.toNat = r.data.toNat + s'.regs.initialCursor.toNat ∧
        ∀ j < 3 * ((r.data.toNat - s.regs.sourceCursor.toNat) / 4), t'.out.read j = t.out.read j)

/-- Derived (R122, which the spec derives from R109 and R121): READs with any buffer lengths of 3 or more, from the start of an undisturbed context to its end, none of them
raising, deliver the DECODED_LENGTH bytes of the decoded stream, the same however the buffers are cut. -/
def Obligations.ChunkingInvariance : Prop :=
  ∀ (s t u : State) (ns ms : List Word) (bs cs : List Byte), s.Inv → s.regs.valid = true → s.srcDisturbed = false →
    s.regs.decodedPosition = 0#32 → (∀ n ∈ ns, 3 ≤ n.toNat) → (∀ m ∈ ms, 3 ≤ m.toNat) →
    readAll ns s = some (bs, t) → t.regs.decodedPosition = t.regs.decodedLength →
    readAll ms s = some (cs, u) → u.regs.decodedPosition = u.regs.decodedLength →
    bs = cs ∧ bs.length = s.regs.decodedLength.toNat ∧
    ∀ (j : Nat) (b : Byte), bs[j]? = some b → b = streamByte s.src.read s.regs.initialCursor.toNat j

/-- Derived from R123 and R82: CONSTRUCT on the RFC 4648 encoding of a non-empty byte sequence B, then a READ into a buffer
large enough, delivers exactly B, and POSITION = LENGTH = |B|; the encoding of the empty sequence is the empty source,
which R82 answers with EmptyInput (log 17). -/
def Obligations.DecodingInvertsEncoding : Prop :=
  ∀ (bytes : List Byte) (len n : Word) (s : State), s.Inv → s.flightDisturbed = false →
    HoldsText s.src 0 (rfcEncode bytes) → len.toNat = (rfcEncode bytes).length →
    bytes.length ≤ n.toNat / 3 * 3 →
    (bytes ≠ [] → ∃ t u, exec (.construct false len 0#32) s = .next t ∧ exec (.read n) t = .next u ∧
      u.rsp = some ⟨.ok, BitVec.ofNat 32 bytes.length⟩ ∧ bufferBytes u.out bytes.length = bytes ∧
      u.regs.decodedPosition.toNat = bytes.length ∧ u.regs.decodedLength.toNat = bytes.length) ∧
    (bytes = [] → ∃ t, exec (.construct false len 0#32) s = .next t ∧ t.rsp = some ⟨.emptyInput, 0#32⟩)

/-- Derived from R41 and 93_implementation_defined U3 (the free values are this model's form of "any value", log 7): the host
changing a character of a context's source text disturbs it, and every character a READ then sees is a free value; changing
a character of the text of the CONSTRUCT in flight disturbs that, and every character the CONSTRUCT then sees is a free
value. The write stores its character and leaves every other index of SRC; one that changes no character of a text leaves
that text's mark as it was. -/
def Obligations.ChangedSourceReadsAsFreeValues : Prop :=
  ∀ (s : State) (i : Nat) (c : CharCode),
    (s.regs.valid = true → i < s.regs.srcLen.toNat → c ≠ s.src.read i →
      (s.hostSrcWrite i c).srcDisturbed = true ∧
      ∀ j, (s.hostSrcWrite i c).srcRead j = Config.disturbedChar s.draws j) ∧
    (∀ f len off, s.inflight = some f → f.cmd = .construct false len off → i < len.toNat → c ≠ s.src.read i →
      (s.hostSrcWrite i c).flightDisturbed = true ∧
      ∀ j, (s.hostSrcWrite i c).srcReadNew j = Config.disturbedChar s.draws j) ∧
    (s.src.wf → (s.hostSrcWrite i c).src.read i = c ∧
      ∀ a, a ≠ i → (s.hostSrcWrite i c).src.read a = s.src.read a) ∧
    ((s.regs.valid = true → i < s.regs.srcLen.toNat → c = s.src.read i) →
      (s.hostSrcWrite i c).srcDisturbed = s.srcDisturbed) ∧
    ((∀ f len off, s.inflight = some f → f.cmd = .construct false len off → i < len.toNat → c = s.src.read i) →
      (s.hostSrcWrite i c).flightDisturbed = s.flightDisturbed)

/-- Derived from R196 and 93_implementation_defined U4 (the choice is this model's free value, log 8; how long a READ counts
as in flight is its choice too, log 20): while a READ is in flight, a host write to its buffer stores the byte and lists its
index exactly when the free choice says that the byte is kept, and a host write beyond the buffer stores the byte and lists
nothing; when the READ completes, whichever port lets it, the host's bytes stand at the indexes listed, and the READ's bytes
everywhere else. -/
def Obligations.HostWritesDuringReadAreKeptOrOverwritten : Prop :=
  (∀ (s : State) (f : Flight) (n : Word) (i : Nat) (b : Byte), s.out.wf → s.inflight = some f → f.cmd = .read n →
    (s.inFlightBuffer i = true ↔ i < n.toNat) ∧
    (s.hostOutWrite i b).out.read i = b ∧ (∀ a, a ≠ i → (s.hostOutWrite i b).out.read a = s.out.read a) ∧
    (s.hostOutWrite i b).keptIndexes =
      (if i < n.toNat ∧ Config.hostByteKept s.draws i = true then s.keptIndexes ++ [i] else s.keptIndexes)) ∧
  ∀ (s t : State) (f : Flight) (n : Word), s.Inv → s.rstN = true → s.inflight = some f → f.cmd = .read n →
    step s = .next t → t.inflight = none →
    ∃ u, exec (.read n) { s with inflight := none } = .next u ∧ t.rsp = u.rsp ∧ t.regs = u.regs ∧
      (∀ a ∈ s.keptIndexes, t.out.read a = s.out.read a) ∧ (∀ a, a ∉ s.keptIndexes → t.out.read a = u.out.read a)

/-! ## The other commands (spec/42_state_queries.md, spec/43_unsupported.md) -/

/-- R140 and R141: LENGTH and POSITION answer DECODED_LENGTH and DECODED_POSITION on a constructed block, NotConstructed
otherwise, and change nothing but LAST_ERR; the length of a constructed block that meets the invariant is 1 or more. -/
def Obligations.LengthAndPosition : Prop :=
  ∀ s : State,
    (s.regs.valid = true →
      exec .length s = .next { s with
        regs := { s.regs with lastErr := .ok }, rsp := some ⟨.ok, s.regs.decodedLength⟩ } ∧
      exec .position s = .next { s with
        regs := { s.regs with lastErr := .ok }, rsp := some ⟨.ok, s.regs.decodedPosition⟩ }) ∧
    (s.regs.valid = false →
      exec .length s = .next { s with
        regs := { s.regs with lastErr := .notConstructed }, rsp := some ⟨.notConstructed, 0#32⟩ } ∧
      exec .position s = .next { s with
        regs := { s.regs with lastErr := .notConstructed }, rsp := some ⟨.notConstructed, 0#32⟩ }) ∧
    (s.Inv → s.regs.valid = true → 1 ≤ s.regs.decodedLength.toNat)

/-- R142 and R143: REWIND, and SETPOS 0, set the position to 0 and the cursor to INITIAL_CURSOR and answer OK with 0, so
that EOS becomes 0 in every state that meets the invariant; SETPOS of any other value answers Unsupported; on an
unconstructed block both answer NotConstructed; nothing else changes. -/
def Obligations.RewindAndSetpos : Prop :=
  ∀ (s : State) (v : Word),
    (s.regs.valid = true →
      exec .rewind s = .next { s with
        regs := { s.regs with lastErr := .ok, decodedPosition := 0#32, sourceCursor := s.regs.initialCursor }
        rsp := some ⟨.ok, 0#32⟩ } ∧
      exec (.setpos 0#32) s = exec .rewind s ∧
      (s.Inv → ∀ t, exec .rewind s = .next t → t.regs.eos = false) ∧
      (v ≠ 0#32 → exec (.setpos v) s = .next { s with
        regs := { s.regs with lastErr := .unsupported }, rsp := some ⟨.unsupported, 0#32⟩ })) ∧
    (s.regs.valid = false →
      exec .rewind s = .next { s with
        regs := { s.regs with lastErr := .notConstructed }, rsp := some ⟨.notConstructed, 0#32⟩ } ∧
      exec (.setpos v) s = .next { s with
        regs := { s.regs with lastErr := .notConstructed }, rsp := some ⟨.notConstructed, 0#32⟩ })

/-- Derived (R145, which the spec derives from R142, R89 and R122): after a context has been read from its start to its end, REWIND puts the position back to 0, and READs to the
end, with any buffer lengths of 3 or more, deliver the same bytes and leave POSITION = LENGTH. -/
def Obligations.RewindLaw : Prop :=
  ∀ (s t : State) (ns : List Word) (bs : List Byte), s.Inv → s.regs.valid = true → s.srcDisturbed = false →
    s.regs.decodedPosition = 0#32 → (∀ n ∈ ns, 3 ≤ n.toNat) → readAll ns s = some (bs, t) →
    t.regs.decodedPosition = t.regs.decodedLength →
    ∃ u, exec .rewind t = .next u ∧ u.regs.decodedPosition = 0#32 ∧
      (∃ v, readAll ns u = some (bs, v) ∧ v.regs.decodedPosition = v.regs.decodedLength) ∧
      ∀ (ms : List Word) (cs : List Byte) (v : State), (∀ m ∈ ms, 3 ≤ m.toNat) → readAll ms u = some (cs, v) →
        v.regs.decodedPosition = v.regs.decodedLength → cs = bs ∧ v.regs.decodedLength = s.regs.decodedLength

/-- R144 with R20, R26, R29: PEEK answers OK with the register its number names, constructed or not, STATUS as it stood
before this command's own LAST_ERR write, PADDING_COUNT in bits 1:0, CONFIG 0x00201001; it changes nothing but LAST_ERR; a
number above 7 is an illegal command. -/
def Obligations.PeekReadsTheRegisterFile : Prop :=
  ∀ (s : State) (a1 : Word),
    (∀ r : Reg, decode ⟨0x0000000A#32, r.number, a1⟩ = .peek r ∧
      exec (.peek r) s = .next { s with
        regs := { s.regs with lastErr := .ok }
        rsp := some ⟨.ok, match r with
          | .status => BitVec.ofNat 32 ((if s.regs.valid = true then 1 else 0) +
              (if s.regs.valid = true ∧ s.regs.decodedPosition = s.regs.decodedLength then 2 else 0) +
              16 * s.regs.lastErr.code.toNat)
          | .srcLen => s.regs.srcLen
          | .initialCursor => s.regs.initialCursor
          | .sourceCursor => s.regs.sourceCursor
          | .decodedPosition => s.regs.decodedPosition
          | .decodedLength => s.regs.decodedLength
          | .paddingCount => BitVec.ofNat 32 s.regs.paddingCount.toNat
          | .config => 0x00201001#32⟩ }) ∧
    ([Reg.status, .srcLen, .initialCursor, .sourceCursor, .decodedPosition, .decodedLength, .paddingCount,
        .config].map Reg.number = [0#32, 1#32, 2#32, 3#32, 4#32, 5#32, 6#32, 7#32]) ∧
    ∀ a0 : Word, 7 < a0.toNat → exec (decode ⟨0x0000000A#32, a0, a1⟩) s = .next { s with
      regs := { s.regs with lastErr := .illegalCommand }, rsp := some ⟨.illegalCommand, 0#32⟩ }

/-- R160, R161 and R162: WRITE, SEEK and SETLEN answer Unsupported on a constructed block and NotConstructed otherwise, and
change nothing but LAST_ERR. -/
def Obligations.WriteSeekSetlenAreUnsupported : Prop :=
  ∀ (i : Instr) (s : State), i = .write ∨ i = .seek ∨ i = .setlen →
    (s.regs.valid = true → exec i s = .next { s with
      regs := { s.regs with lastErr := .unsupported }, rsp := some ⟨.unsupported, 0#32⟩ }) ∧
    (s.regs.valid = false → exec i s = .next { s with
      regs := { s.regs with lastErr := .notConstructed }, rsp := some ⟨.notConstructed, 0#32⟩ })

/-! ## Parameters (spec/00_scope.md R10, spec/10_state.md R29) -/

/-- Derived from R10 (its default set is general knowledge, K3, and the value of a parameter: log 13): WS_SET is the 25 code points the rule lists; it holds space, tab, LF and CR, none of the 64 alphabet characters,
and not `=`. -/
def Obligations.WhitespaceSetIsLegal : Prop :=
  (∀ c : CharCode, isWs c = true ↔
    (0x0009 ≤ c.toNat ∧ c.toNat ≤ 0x000D) ∨ c.toNat = 0x0020 ∨ c.toNat = 0x0085 ∨ c.toNat = 0x00A0 ∨ c.toNat = 0x1680 ∨
    (0x2000 ≤ c.toNat ∧ c.toNat ≤ 0x200A) ∨ c.toNat = 0x2028 ∨ c.toNat = 0x2029 ∨ c.toNat = 0x202F ∨ c.toNat = 0x205F ∨
    c.toNat = 0x3000) ∧
  (∀ c : CharCode, c.toNat < 256 → (entryOf c).valid = true → isWs c = false) ∧ isWs 0x3D#16 = false

/-- R29: CONFIG is hardwired: ALPHABET_CHECK 1 in bit 0, CHAR_BITS 16 in bits 15:8, ADDR_BITS 32 in bits 23:16, the other
bits 0, in every state; PEEK 7 answers 0x00201001. -/
def Obligations.ConfigIsHardwired : Prop :=
  ∀ s : State, (s.regs.read .config).getLsbD 0 = true ∧ (s.regs.read .config).extractLsb' 1 7 = 0#7 ∧
    (s.regs.read .config).extractLsb' 8 8 = 0x10#8 ∧ (s.regs.read .config).extractLsb' 16 8 = 0x20#8 ∧
    (s.regs.read .config).extractLsb' 24 8 = 0#8 ∧
    ∃ t, exec (.peek .config) s = .next t ∧ t.rsp = some ⟨.ok, 0x00201001#32⟩

/-! ## Accesses to the ports (spec/30_encoding.md R60, R67, spec/70_reset_and_hazards.md R199) -/

/-- Derived from R67, R60 and R190: the block holds an access until it is acknowledged. `src_req` is 1 exactly while, out of
reset, the command in flight holds a SRC access, `out_we` exactly while it holds an OUT access. Without that port's
acknowledge, whatever the other port does, a step keeps the command and the access, no response is offered, and the request
stays 1 unless the outside world asserts reset. -/
def Obligations.AccessesAreHeldUntilAcknowledged : Prop :=
  ∀ s : State,
    (s.srcReq = true ↔ s.rstN = true ∧ ∃ f, s.inflight = some f ∧ f.hold = .src) ∧
    (s.outWe = true ↔ s.rstN = true ∧ ∃ f, s.inflight = some f ∧ f.hold = .out) ∧
    ∀ t, step s = .next t →
      (s.srcReq = true → s.srcAck = false →
        t.inflight = s.inflight ∧ t.rsp = s.rsp ∧ t.regs = s.regs ∧ (t.rstN = true → t.srcReq = true)) ∧
      (s.outWe = true → s.outAck = false →
        t.inflight = s.inflight ∧ t.rsp = s.rsp ∧ t.regs = s.regs ∧ (t.rstN = true → t.outWe = true))

/-- Derived from R199 with R93, R113 to R116, R109, R112 and R121 (that a command waits by quartets is the model's choice,
log 6): which commands need which port. CONSTRUCT of a source neither null nor empty needs SRC, and never OUT. A READ of a
constructed block with room for a triplet needs SRC when it is not at end-of-stream; one that answers OK with `w` bytes
needs both ports for each of its `w / 3` quartets, rounded up; one that answers MalformedCharacter needs SRC for the bad
quartet and OUT only for those before it. Where a port is needed and does not acknowledge, the command waits there, at SRC
before OUT. A CONSTRUCT of a null or an empty source, a READ of an unconstructed block or with no room for a triplet, and
every other command need no port. -/
def Obligations.CommandsNeedTheirPorts : Prop :=
  (∀ (s : State) (len off : Word), len ≠ 0#32 →
    needsSource s (.construct false len off) 0 = true ∧ ∀ d, needsOutput s (.construct false len off) d = false) ∧
  (∀ (s : State) (n : Word), s.Inv → s.regs.valid = true → 3 ≤ n.toNat →
    (s.regs.decodedPosition.toNat < s.regs.decodedLength.toNat → needsSource s (.read n) 0 = true) ∧
    (∀ t w d, exec (.read n) s = .next t → t.rsp = some ⟨.ok, w⟩ →
      (needsSource s (.read n) d = true ↔ 3 * d < w.toNat) ∧ (needsOutput s (.read n) d = true ↔ 3 * d < w.toNat)) ∧
    (∀ t x d, exec (.read n) s = .next t → t.rsp = some ⟨.malformedCharacter, x⟩ →
      (needsSource s (.read n) d = true ↔ d ≤ (x.toNat - s.regs.sourceCursor.toNat) / 4) ∧
      (needsOutput s (.read n) d = true ↔ d < (x.toNat - s.regs.sourceCursor.toNat) / 4))) ∧
  (∀ (s : State) (z : Bool) (len off : Word) (d : Nat), z = true ∨ len = 0#32 →
    needsSource s (.construct z len off) d = false ∧ needsOutput s (.construct z len off) d = false) ∧
  (∀ (s : State) (n : Word) (d : Nat), s.regs.valid = false ∨ n.toNat < 3 →
    needsSource s (.read n) d = false ∧ needsOutput s (.read n) d = false) ∧
  (∀ (s : State) (i : Instr) (d : Nat), (∀ z len off, i ≠ .construct z len off) → (∀ n, i ≠ .read n) →
    needsSource s i d = false ∧ needsOutput s i d = false) ∧
  ∀ (s : State) (i : Instr) (d : Nat),
    (waitsAt s i d = some .src ↔ s.srcAck = false ∧ needsSource s i d = true) ∧
    (waitsAt s i d = some .out ↔ (s.srcAck = true ∨ needsSource s i d = false) ∧ s.outAck = false ∧
      needsOutput s i d = true)
end

