-- ==== Sys2Proof/Laws/State.lean ====
section
/-!
SUPPORT. One lemma per field per named update of the state and of the register file, each true by definition, so that no
later proof unfolds a record update.
-/

namespace Sys2Proof.Machine

/-! respond -/

@[simp] theorem State.respond_regs (s : State) (code : StatusCode) (data : Word) : (s.respond code data).regs = { s.regs with lastErr := code } := rfl
@[simp] theorem State.respond_src (s : State) (code : StatusCode) (data : Word) : (s.respond code data).src = s.src := rfl
@[simp] theorem State.respond_out (s : State) (code : StatusCode) (data : Word) : (s.respond code data).out = s.out := rfl
@[simp] theorem State.respond_rstN (s : State) (code : StatusCode) (data : Word) : (s.respond code data).rstN = s.rstN := rfl
@[simp] theorem State.respond_cmds (s : State) (code : StatusCode) (data : Word) : (s.respond code data).cmds = s.cmds := rfl
@[simp] theorem State.respond_rsp (s : State) (code : StatusCode) (data : Word) : (s.respond code data).rsp = some ⟨code, data⟩ := rfl
@[simp] theorem State.respond_rspReady (s : State) (code : StatusCode) (data : Word) : (s.respond code data).rspReady = s.rspReady := rfl
@[simp] theorem State.respond_srcAck (s : State) (code : StatusCode) (data : Word) : (s.respond code data).srcAck = s.srcAck := rfl
@[simp] theorem State.respond_outAck (s : State) (code : StatusCode) (data : Word) : (s.respond code data).outAck = s.outAck := rfl
@[simp] theorem State.respond_inflight (s : State) (code : StatusCode) (data : Word) : (s.respond code data).inflight = s.inflight := rfl
@[simp] theorem State.respond_inputs (s : State) (code : StatusCode) (data : Word) : (s.respond code data).inputs = s.inputs := rfl
@[simp] theorem State.respond_srcDisturbed (s : State) (code : StatusCode) (data : Word) : (s.respond code data).srcDisturbed = s.srcDisturbed := rfl
@[simp] theorem State.respond_flightDisturbed (s : State) (code : StatusCode) (data : Word) : (s.respond code data).flightDisturbed = s.flightDisturbed := rfl
@[simp] theorem State.respond_keptIndexes (s : State) (code : StatusCode) (data : Word) : (s.respond code data).keptIndexes = s.keptIndexes := rfl
@[simp] theorem State.respond_draws (s : State) (code : StatusCode) (data : Word) : (s.respond code data).draws = s.draws := rfl

/-! outWriteRun -/

@[simp] theorem State.outWriteRun_regs (s : State) (bytes : List Byte) : (s.outWriteRun bytes).regs = s.regs := rfl
@[simp] theorem State.outWriteRun_src (s : State) (bytes : List Byte) : (s.outWriteRun bytes).src = s.src := rfl
@[simp] theorem State.outWriteRun_out (s : State) (bytes : List Byte) : (s.outWriteRun bytes).out = s.out.writeRun 0 bytes := rfl
@[simp] theorem State.outWriteRun_rstN (s : State) (bytes : List Byte) : (s.outWriteRun bytes).rstN = s.rstN := rfl
@[simp] theorem State.outWriteRun_cmds (s : State) (bytes : List Byte) : (s.outWriteRun bytes).cmds = s.cmds := rfl
@[simp] theorem State.outWriteRun_rsp (s : State) (bytes : List Byte) : (s.outWriteRun bytes).rsp = s.rsp := rfl
@[simp] theorem State.outWriteRun_rspReady (s : State) (bytes : List Byte) : (s.outWriteRun bytes).rspReady = s.rspReady := rfl
@[simp] theorem State.outWriteRun_srcAck (s : State) (bytes : List Byte) : (s.outWriteRun bytes).srcAck = s.srcAck := rfl
@[simp] theorem State.outWriteRun_outAck (s : State) (bytes : List Byte) : (s.outWriteRun bytes).outAck = s.outAck := rfl
@[simp] theorem State.outWriteRun_inflight (s : State) (bytes : List Byte) : (s.outWriteRun bytes).inflight = s.inflight := rfl
@[simp] theorem State.outWriteRun_inputs (s : State) (bytes : List Byte) : (s.outWriteRun bytes).inputs = s.inputs := rfl
@[simp] theorem State.outWriteRun_srcDisturbed (s : State) (bytes : List Byte) : (s.outWriteRun bytes).srcDisturbed = s.srcDisturbed := rfl
@[simp] theorem State.outWriteRun_flightDisturbed (s : State) (bytes : List Byte) : (s.outWriteRun bytes).flightDisturbed = s.flightDisturbed := rfl
@[simp] theorem State.outWriteRun_keptIndexes (s : State) (bytes : List Byte) : (s.outWriteRun bytes).keptIndexes = s.keptIndexes := rfl
@[simp] theorem State.outWriteRun_draws (s : State) (bytes : List Byte) : (s.outWriteRun bytes).draws = s.draws := rfl

/-! countDraw -/

@[simp] theorem State.countDraw_regs (s : State) (used : Bool) : (s.countDraw used).regs = s.regs := rfl
@[simp] theorem State.countDraw_src (s : State) (used : Bool) : (s.countDraw used).src = s.src := rfl
@[simp] theorem State.countDraw_out (s : State) (used : Bool) : (s.countDraw used).out = s.out := rfl
@[simp] theorem State.countDraw_rstN (s : State) (used : Bool) : (s.countDraw used).rstN = s.rstN := rfl
@[simp] theorem State.countDraw_cmds (s : State) (used : Bool) : (s.countDraw used).cmds = s.cmds := rfl
@[simp] theorem State.countDraw_rsp (s : State) (used : Bool) : (s.countDraw used).rsp = s.rsp := rfl
@[simp] theorem State.countDraw_rspReady (s : State) (used : Bool) : (s.countDraw used).rspReady = s.rspReady := rfl
@[simp] theorem State.countDraw_srcAck (s : State) (used : Bool) : (s.countDraw used).srcAck = s.srcAck := rfl
@[simp] theorem State.countDraw_outAck (s : State) (used : Bool) : (s.countDraw used).outAck = s.outAck := rfl
@[simp] theorem State.countDraw_inflight (s : State) (used : Bool) : (s.countDraw used).inflight = s.inflight := rfl
@[simp] theorem State.countDraw_inputs (s : State) (used : Bool) : (s.countDraw used).inputs = s.inputs := rfl
@[simp] theorem State.countDraw_srcDisturbed (s : State) (used : Bool) : (s.countDraw used).srcDisturbed = s.srcDisturbed := rfl
@[simp] theorem State.countDraw_flightDisturbed (s : State) (used : Bool) : (s.countDraw used).flightDisturbed = s.flightDisturbed := rfl
@[simp] theorem State.countDraw_keptIndexes (s : State) (used : Bool) : (s.countDraw used).keptIndexes = s.keptIndexes := rfl
@[simp] theorem State.countDraw_draws (s : State) (used : Bool) : (s.countDraw used).draws = if used then s.draws + 1 else s.draws := rfl

/-! rewound -/

@[simp] theorem State.rewound_regs (s : State) : (s.rewound).regs = { s.regs with decodedPosition := 0#32, sourceCursor := s.regs.initialCursor } := rfl
@[simp] theorem State.rewound_src (s : State) : (s.rewound).src = s.src := rfl
@[simp] theorem State.rewound_out (s : State) : (s.rewound).out = s.out := rfl
@[simp] theorem State.rewound_rstN (s : State) : (s.rewound).rstN = s.rstN := rfl
@[simp] theorem State.rewound_cmds (s : State) : (s.rewound).cmds = s.cmds := rfl
@[simp] theorem State.rewound_rsp (s : State) : (s.rewound).rsp = s.rsp := rfl
@[simp] theorem State.rewound_rspReady (s : State) : (s.rewound).rspReady = s.rspReady := rfl
@[simp] theorem State.rewound_srcAck (s : State) : (s.rewound).srcAck = s.srcAck := rfl
@[simp] theorem State.rewound_outAck (s : State) : (s.rewound).outAck = s.outAck := rfl
@[simp] theorem State.rewound_inflight (s : State) : (s.rewound).inflight = s.inflight := rfl
@[simp] theorem State.rewound_inputs (s : State) : (s.rewound).inputs = s.inputs := rfl
@[simp] theorem State.rewound_srcDisturbed (s : State) : (s.rewound).srcDisturbed = s.srcDisturbed := rfl
@[simp] theorem State.rewound_flightDisturbed (s : State) : (s.rewound).flightDisturbed = s.flightDisturbed := rfl
@[simp] theorem State.rewound_keptIndexes (s : State) : (s.rewound).keptIndexes = s.keptIndexes := rfl
@[simp] theorem State.rewound_draws (s : State) : (s.rewound).draws = s.draws := rfl

/-! enterReset -/

@[simp] theorem State.enterReset_regs (s : State) : (s.enterReset).regs = Regs.reset := rfl
@[simp] theorem State.enterReset_src (s : State) : (s.enterReset).src = s.src := rfl
@[simp] theorem State.enterReset_out (s : State) : (s.enterReset).out = s.abandonedOut := rfl
@[simp] theorem State.enterReset_rstN (s : State) : (s.enterReset).rstN = s.rstN := rfl
@[simp] theorem State.enterReset_cmds (s : State) : (s.enterReset).cmds = s.cmds := rfl
@[simp] theorem State.enterReset_rsp (s : State) : (s.enterReset).rsp = none := rfl
@[simp] theorem State.enterReset_rspReady (s : State) : (s.enterReset).rspReady = s.rspReady := rfl
@[simp] theorem State.enterReset_srcAck (s : State) : (s.enterReset).srcAck = s.srcAck := rfl
@[simp] theorem State.enterReset_outAck (s : State) : (s.enterReset).outAck = s.outAck := rfl
@[simp] theorem State.enterReset_inflight (s : State) : (s.enterReset).inflight = none := rfl
@[simp] theorem State.enterReset_inputs (s : State) : (s.enterReset).inputs = s.inputs := rfl
@[simp] theorem State.enterReset_srcDisturbed (s : State) : (s.enterReset).srcDisturbed = false := rfl
@[simp] theorem State.enterReset_flightDisturbed (s : State) : (s.enterReset).flightDisturbed = false := rfl
@[simp] theorem State.enterReset_keptIndexes (s : State) : (s.enterReset).keptIndexes = [] := rfl
@[simp] theorem State.enterReset_draws (s : State) : (s.enterReset).draws = if s.inflight.isSome then s.draws + 1 else s.draws := rfl

/-! withCommand -/

@[simp] theorem State.withCommand_regs (s : State) (c : Command) : (s.withCommand c).regs = s.regs := rfl
@[simp] theorem State.withCommand_src (s : State) (c : Command) : (s.withCommand c).src = s.src := rfl
@[simp] theorem State.withCommand_out (s : State) (c : Command) : (s.withCommand c).out = s.out := rfl
@[simp] theorem State.withCommand_rstN (s : State) (c : Command) : (s.withCommand c).rstN = true := rfl
@[simp] theorem State.withCommand_cmds (s : State) (c : Command) : (s.withCommand c).cmds = c :: s.cmds := rfl
@[simp] theorem State.withCommand_rsp (s : State) (c : Command) : (s.withCommand c).rsp = none := rfl
@[simp] theorem State.withCommand_rspReady (s : State) (c : Command) : (s.withCommand c).rspReady = s.rspReady := rfl
@[simp] theorem State.withCommand_srcAck (s : State) (c : Command) : (s.withCommand c).srcAck = true := rfl
@[simp] theorem State.withCommand_outAck (s : State) (c : Command) : (s.withCommand c).outAck = true := rfl
@[simp] theorem State.withCommand_inflight (s : State) (c : Command) : (s.withCommand c).inflight = none := rfl
@[simp] theorem State.withCommand_inputs (s : State) (c : Command) : (s.withCommand c).inputs = s.inputs := rfl
@[simp] theorem State.withCommand_srcDisturbed (s : State) (c : Command) : (s.withCommand c).srcDisturbed = s.srcDisturbed := rfl
@[simp] theorem State.withCommand_flightDisturbed (s : State) (c : Command) : (s.withCommand c).flightDisturbed = s.flightDisturbed := rfl
@[simp] theorem State.withCommand_keptIndexes (s : State) (c : Command) : (s.withCommand c).keptIndexes = s.keptIndexes := rfl
@[simp] theorem State.withCommand_draws (s : State) (c : Command) : (s.withCommand c).draws = s.draws := rfl

/-! hostSrcWrite -/

@[simp] theorem State.hostSrcWrite_regs (s : State) (i : Nat) (c : CharCode) : (s.hostSrcWrite i c).regs = s.regs := rfl
@[simp] theorem State.hostSrcWrite_src (s : State) (i : Nat) (c : CharCode) : (s.hostSrcWrite i c).src = s.src.write i c := rfl
@[simp] theorem State.hostSrcWrite_out (s : State) (i : Nat) (c : CharCode) : (s.hostSrcWrite i c).out = s.out := rfl
@[simp] theorem State.hostSrcWrite_rstN (s : State) (i : Nat) (c : CharCode) : (s.hostSrcWrite i c).rstN = s.rstN := rfl
@[simp] theorem State.hostSrcWrite_cmds (s : State) (i : Nat) (c : CharCode) : (s.hostSrcWrite i c).cmds = s.cmds := rfl
@[simp] theorem State.hostSrcWrite_rsp (s : State) (i : Nat) (c : CharCode) : (s.hostSrcWrite i c).rsp = s.rsp := rfl
@[simp] theorem State.hostSrcWrite_rspReady (s : State) (i : Nat) (c : CharCode) : (s.hostSrcWrite i c).rspReady = s.rspReady := rfl
@[simp] theorem State.hostSrcWrite_srcAck (s : State) (i : Nat) (c : CharCode) : (s.hostSrcWrite i c).srcAck = s.srcAck := rfl
@[simp] theorem State.hostSrcWrite_outAck (s : State) (i : Nat) (c : CharCode) : (s.hostSrcWrite i c).outAck = s.outAck := rfl
@[simp] theorem State.hostSrcWrite_inflight (s : State) (i : Nat) (c : CharCode) : (s.hostSrcWrite i c).inflight = s.inflight := rfl
@[simp] theorem State.hostSrcWrite_inputs (s : State) (i : Nat) (c : CharCode) : (s.hostSrcWrite i c).inputs = s.inputs := rfl
@[simp] theorem State.hostSrcWrite_srcDisturbed (s : State) (i : Nat) (c : CharCode) : (s.hostSrcWrite i c).srcDisturbed = (s.srcDisturbed ||
      (decide (c ≠ s.src.read i) && s.regs.valid && decide (i < s.regs.srcLen.toNat))) := rfl
@[simp] theorem State.hostSrcWrite_flightDisturbed (s : State) (i : Nat) (c : CharCode) : (s.hostSrcWrite i c).flightDisturbed = (s.flightDisturbed ||
      (decide (c ≠ s.src.read i) && s.inFlightText i)) := rfl
@[simp] theorem State.hostSrcWrite_keptIndexes (s : State) (i : Nat) (c : CharCode) : (s.hostSrcWrite i c).keptIndexes = s.keptIndexes := rfl
@[simp] theorem State.hostSrcWrite_draws (s : State) (i : Nat) (c : CharCode) : (s.hostSrcWrite i c).draws = s.draws := rfl

/-! newContext -/

@[simp] theorem Regs.newContext_valid (r : Regs) (rd : Nat → CharCode) (len : Word) (s e : Nat) :
    (r.newContext rd len s e).valid = true := rfl
@[simp] theorem Regs.newContext_lastErr (r : Regs) (rd : Nat → CharCode) (len : Word) (s e : Nat) :
    (r.newContext rd len s e).lastErr = r.lastErr := rfl
@[simp] theorem Regs.newContext_srcLen (r : Regs) (rd : Nat → CharCode) (len : Word) (s e : Nat) :
    (r.newContext rd len s e).srcLen = len := rfl
@[simp] theorem Regs.newContext_initialCursor (r : Regs) (rd : Nat → CharCode) (len : Word) (s e : Nat) :
    (r.newContext rd len s e).initialCursor = Word.ofNat s := rfl
@[simp] theorem Regs.newContext_sourceCursor (r : Regs) (rd : Nat → CharCode) (len : Word) (s e : Nat) :
    (r.newContext rd len s e).sourceCursor = Word.ofNat s := rfl
@[simp] theorem Regs.newContext_decodedPosition (r : Regs) (rd : Nat → CharCode) (len : Word) (s e : Nat) :
    (r.newContext rd len s e).decodedPosition = 0#32 := rfl
@[simp] theorem Regs.newContext_decodedLength (r : Regs) (rd : Nat → CharCode) (len : Word) (s e : Nat) :
    (r.newContext rd len s e).decodedLength = Word.ofNat (3 * ((e - s) / 4) - (paddingOf rd e).toNat) := rfl
@[simp] theorem Regs.newContext_paddingCount (r : Regs) (rd : Nat → CharCode) (len : Word) (s e : Nat) :
    (r.newContext rd len s e).paddingCount = paddingOf rd e := rfl

/-! completing a command -/

@[simp] theorem complete_eq (s : State) (data : Word) : complete s data = .next (s.respond .ok data) := rfl

@[simp] theorem raise_eq (s : State) (error : StatusCode) (data : Word) : raise s error data = .next (s.respond error data) := rfl

theorem whenConstructed_valid {s : State} (h : s.regs.valid = true) (k : Host.Outcome State Fault Refusal) :
    whenConstructed s k = k := by simp [whenConstructed, h]

theorem whenConstructed_invalid {s : State} (h : s.regs.valid = false) (k : Host.Outcome State Fault Refusal) :
    whenConstructed s k = .next (s.respond .notConstructed 0#32) := by simp [whenConstructed, h]

end Sys2Proof.Machine
end

