-- ==== Sys2Proof/Laws/Construct.lean ====
section
/-!
SUPPORT. What the scans of CONSTRUCT answer, and what CONSTRUCT does, said once (spec/40_construct.md R81 to R89).
-/

namespace Sys2Proof.Machine

/-- The all-whitespace scan answers true exactly when every character scanned is whitespace (R82). -/
theorem allWs_iff {rd : Nat → CharCode} {n i : Nat} :
    allWs rd n i = true ↔ ∀ j, i ≤ j → j < i + n → isWs (rd j) = true := by
  induction n generalizing i with
  | zero => simp only [allWs, true_iff]; intro j h1 h2; omega
  | succ n ih =>
    unfold allWs
    split
    · next hi =>
      rw [ih]
      refine ⟨fun h j h1 h2 => ?_, fun h j h1 h2 => h j (by omega) (by omega)⟩
      by_cases hj : j = i
      · subst hj; exact hi
      · exact h j (by omega) (by omega)
    · next hi =>
      simp only [Bool.false_eq_true, false_iff]
      exact fun h => hi (h i le_rfl (by omega))

/-- The forward trim stops at the first character that is no whitespace, or at the end of its range (R84). -/
theorem skipWs_spec (rd : Nat → CharCode) (n s : Nat) :
    s ≤ skipWs rd n s ∧ skipWs rd n s ≤ s + n ∧
      (∀ j, s ≤ j → j < skipWs rd n s → isWs (rd j) = true) ∧
      (skipWs rd n s < s + n → isWs (rd (skipWs rd n s)) = false) := by
  induction n generalizing s with
  | zero =>
    simp only [skipWs]
    exact ⟨le_rfl, le_rfl, fun j h1 h2 => by omega, fun h => by omega⟩
  | succ n ih =>
    unfold skipWs
    split
    · next hs =>
      obtain ⟨h1, h2, h3, h4⟩ := ih (s + 1)
      refine ⟨by omega, by omega, fun j hj hj' => ?_, fun h => h4 (by omega)⟩
      by_cases hjs : j = s
      · subst hjs; exact hs
      · exact h3 j (by omega) hj'
    · next hs => exact ⟨le_rfl, by omega, fun j h1 h2 => by omega, fun _ => by simpa using hs⟩

/-- The backward trim stops after the last character that is no whitespace, or at the start of its range (R84). -/
theorem dropWs_spec (rd : Nat → CharCode) (n e : Nat) (hn : n ≤ e) :
    dropWs rd n e ≤ e ∧ e - n ≤ dropWs rd n e ∧
      (∀ j, dropWs rd n e ≤ j → j < e → isWs (rd j) = true) ∧
      (e - n < dropWs rd n e → isWs (rd (dropWs rd n e - 1)) = false) := by
  induction n generalizing e with
  | zero =>
    simp only [dropWs]
    exact ⟨le_rfl, by omega, fun j h1 h2 => by omega, fun h => by omega⟩
  | succ n ih =>
    unfold dropWs
    split
    · next hs =>
      obtain ⟨h1, h2, h3, h4⟩ := ih (e - 1) (by omega)
      refine ⟨by omega, by omega, fun j hj hj' => ?_, fun h => h4 (by omega)⟩
      by_cases hje : j = e - 1
      · subst hje; exact hs
      · exact h3 j hj (by omega)
    · next hs => exact ⟨le_rfl, by omega, fun j h1 h2 => by omega, fun _ => by simpa using hs⟩

/-- The forward trim of a range with whitespace up to `s` and none at `s` is `s`. -/
theorem skipWs_eq {rd : Nat → CharCode} {off len s : Nat} (h1 : off ≤ s) (h2 : s < len)
    (hws : ∀ j, off ≤ j → j < s → isWs (rd j) = true) (hs : isWs (rd s) = false) :
    skipWs rd (len - off) off = s := by
  obtain ⟨g1, g2, g3, g4⟩ := skipWs_spec rd (len - off) off
  rcases lt_trichotomy (skipWs rd (len - off) off) s with h | h | h
  · have := hws _ g1 h
    rw [g4 (by omega)] at this
    simp at this
  · exact h
  · have := g3 s h1 h
    rw [hs] at this
    simp at this

/-- The backward trim of a range with whitespace from `e` on and none just before `e` is `e`. -/
theorem dropWs_eq {rd : Nat → CharCode} {s len e : Nat} (h1 : s < e) (h2 : e ≤ len)
    (hws : ∀ j, e ≤ j → j < len → isWs (rd j) = true) (he : isWs (rd (e - 1)) = false) :
    dropWs rd (len - s) len = e := by
  obtain ⟨g1, g2, g3, g4⟩ := dropWs_spec rd (len - s) len (by omega)
  rcases lt_trichotomy (dropWs rd (len - s) len) e with h | h | h
  · have := g3 (e - 1) (by omega) (by omega)
    rw [he] at this
    simp at this
  · exact h
  · have := hws (dropWs rd (len - s) len - 1) (by omega) (by omega)
    rw [g4 (by omega)] at this
    simp at this

/-- A text with an in-range offset has a trimmed view, or nothing but whitespace from the offset on. -/
theorem trimmedView_or_blank (rd : Nat → CharCode) {len off : Nat} (h : off ≤ len) :
    (∃ s e, TrimmedView rd len off s e) ∨ ∀ j, off ≤ j → j < len → isWs (rd j) = true := by
  obtain ⟨g1, g2, g3, g4⟩ := skipWs_spec rd (len - off) off
  by_cases hs : skipWs rd (len - off) off < len
  · obtain ⟨k1, k2, k3, k4⟩ := dropWs_spec rd (len - skipWs rd (len - off) off) len (by omega)
    have hne := g4 (by omega)
    have hlt : skipWs rd (len - off) off < dropWs rd (len - skipWs rd (len - off) off) len := by
      by_contra hc
      have := k3 (skipWs rd (len - off) off) (by omega) hs
      rw [hne] at this
      simp at this
    exact .inl ⟨_, _, g1, hlt, k1, g3, k3, hne, k4 (by omega)⟩
  · exact .inr (fun j h1 h2 => g3 j h1 (by omega))

/-- CONSTRUCT of a null or empty source (R82). -/
theorem execConstruct_null {st : State} {nullSource : Bool} {len off : Word} (h : nullSource = true ∨ len = 0#32) :
    execConstruct nullSource len off st = .next (st.respond .emptyInput 0#32) := by
  simp [execConstruct, h]

/-- CONSTRUCT of a text of whitespace alone, whatever the offset (R82). -/
theorem execConstruct_blank {st : State} {len off : Word} (hlen : len ≠ 0#32)
    (h : ∀ j < len.toNat, isWs (st.srcReadNew j) = true) :
    execConstruct false len off st = .next (st.respond .emptyInput 0#32) := by
  have : allWs st.srcReadNew len.toNat 0 = true := allWs_iff.mpr (fun j _ hj => h j (by omega))
  simp [execConstruct, hlen, this]

/-- The text holds a character that is no whitespace. -/
theorem not_allWs {rd : Nat → CharCode} {n i : Nat} (hi : i < n) (h : isWs (rd i) = false) : allWs rd n 0 = false := by
  by_contra hc
  have := allWs_iff.mp (by simpa using hc) i (by omega) (by omega)
  rw [h] at this
  simp at this

/-- CONSTRUCT with an offset beyond a text that is not all whitespace (R83). -/
theorem execConstruct_offset {st : State} {len off : Word} {i : Nat} (hi : i < len.toNat)
    (h : isWs (st.srcReadNew i) = false) (hoff : len.toNat < off.toNat) :
    execConstruct false len off st = .next (st.respond .offsetOutOfRange 0#32) := by
  have hlen : len ≠ 0#32 := by rintro rfl; simp at hi
  simp [execConstruct, hlen, not_allWs hi h, hoff]

/-- CONSTRUCT with whitespace alone from an in-range offset on, in a text that is not all whitespace (R85). -/
theorem execConstruct_blankView {st : State} {len off : Word} {i : Nat} (hi : i < len.toNat)
    (h : isWs (st.srcReadNew i) = false) (hoff : off.toNat ≤ len.toNat)
    (hws : ∀ j, off.toNat ≤ j → j < len.toNat → isWs (st.srcReadNew j) = true) :
    execConstruct false len off st = .next (st.respond .emptyInput 0#32) := by
  have hlen : len ≠ 0#32 := by rintro rfl; simp at hi
  obtain ⟨g1, g2, g3, g4⟩ := skipWs_spec st.srcReadNew (len.toNat - off.toNat) off.toNat
  have hs : skipWs st.srcReadNew (len.toNat - off.toNat) off.toNat = len.toNat := by
    by_contra hc
    have := g4 (by omega)
    rw [hws _ g1 (by omega)] at this
    simp at this
  have hnot : ¬ len.toNat < off.toNat := by omega
  simp [execConstruct, hlen, not_allWs hi h, hnot, hs, dropWs]

/-- CONSTRUCT of a text whose trimmed view is SRC[s … e−1] (R86 to R89). -/
theorem execConstruct_view {st : State} {len off : Word} {s e : Nat}
    (h : TrimmedView st.srcReadNew len.toNat off.toNat s e) :
    execConstruct false len off st =
      if (e - s) % 4 ≠ 0 then .next (st.respond .malformedLength 0#32)
      else .next ({ st with regs := st.regs.newContext st.srcReadNew len s e, srcDisturbed := st.flightDisturbed }.respond
        .ok (Word.ofNat (3 * ((e - s) / 4) - (paddingOf st.srcReadNew e).toNat))) := by
  obtain ⟨h1, h2, h3, h4, h5, h6, h7⟩ := h
  have hlen : len ≠ 0#32 := by rintro rfl; simp at h3; omega
  have hnot : ¬ len.toNat < off.toNat := by omega
  have hs := skipWs_eq (rd := st.srcReadNew) (len := len.toNat) h1 (by omega) h4 h6
  have he := dropWs_eq (rd := st.srcReadNew) h2 h3 h5 h7
  have hz : ¬ e - s = 0 := by omega
  simp only [execConstruct, hlen, not_allWs (show s < len.toNat by omega) h6, hnot, hs, he, hz, or_self,
    Bool.false_eq_true, if_false, raise_eq, complete_eq, Regs.newContext_decodedLength]

/-- R81, R179: every CONSTRUCT completes, in one of these ways. -/
theorem execConstruct_cases (nullSource : Bool) (len off : Word) (st : State) :
    ((nullSource = true ∨ len = 0#32) ∧
      execConstruct nullSource len off st = .next (st.respond .emptyInput 0#32)) ∨
    (nullSource = false ∧ ∃ code, (code = .emptyInput ∨ code = .offsetOutOfRange ∨ code = .malformedLength) ∧
      execConstruct nullSource len off st = .next (st.respond code 0#32)) ∨
    (nullSource = false ∧ ∃ s e, TrimmedView st.srcReadNew len.toNat off.toNat s e ∧ (e - s) % 4 = 0 ∧
      execConstruct nullSource len off st =
        .next ({ st with regs := st.regs.newContext st.srcReadNew len s e, srcDisturbed := st.flightDisturbed }.respond
          .ok (Word.ofNat (3 * ((e - s) / 4) - (paddingOf st.srcReadNew e).toNat)))) := by
  by_cases hnull : nullSource = true ∨ len = 0#32
  · exact .inl ⟨hnull, execConstruct_null hnull⟩
  · obtain ⟨hn, hlen⟩ := not_or.mp hnull
    obtain rfl : nullSource = false := by simpa using hn
    refine .inr ?_
    by_cases hall : ∀ j < len.toNat, isWs (st.srcReadNew j) = true
    · exact .inl ⟨rfl, .emptyInput, by simp, execConstruct_blank hlen hall⟩
    · push Not at hall
      obtain ⟨i, hi, hws⟩ := hall
      have hws' : isWs (st.srcReadNew i) = false := by simpa using hws
      by_cases hoff : len.toNat < off.toNat
      · exact .inl ⟨rfl, .offsetOutOfRange, by simp, execConstruct_offset hi hws' hoff⟩
      · rcases trimmedView_or_blank st.srcReadNew (show off.toNat ≤ len.toNat by omega) with ⟨s, e, hv⟩ | hb
        · by_cases hmod : (e - s) % 4 = 0
          · refine .inr ⟨rfl, s, e, hv, hmod, ?_⟩
            rw [execConstruct_view hv, if_neg (by simpa using hmod)]
          · refine .inl ⟨rfl, .malformedLength, by simp, ?_⟩
            rw [execConstruct_view hv, if_pos hmod]
        · exact .inl ⟨rfl, .emptyInput, by simp, execConstruct_blankView hi hws' (by omega) hb⟩

/-- R87: the padding count is 0, 1 or 2. -/
theorem paddingOf_le (rd : Nat → CharCode) (e : Nat) : (paddingOf rd e).toNat ≤ 2 := by
  unfold paddingOf
  split
  · decide
  · split <;> decide

end Sys2Proof.Machine
end

