-- ==== Sys2Proof/Laws/Datapath.lean ====
section
/-!
SUPPORT. What the quartet function answers (spec/41_read.md R106 to R109), said once: the bytes of a clean quartet, the
index of a bad one, and that every quartet is one or the other.
-/

namespace Sys2Proof.Machine

theorem consulted_three : consulted 3 = [0, 1, 2, 3] := by decide
theorem consulted_two : consulted 2 = [0, 1, 2] := by decide
theorem consulted_one : consulted 1 = [0, 1] := by decide

/-- A consulted position of `k` is a quartet position up to `k`. -/
theorem mem_consulted {k i : Nat} : i ∈ consulted k ↔ i < 4 ∧ i ≤ k := by
  simp only [consulted, List.mem_filter, List.mem_cons, List.not_mem_nil, or_false, decide_eq_true_eq]
  omega

theorem rangeFault_none {rd : Nat → CharCode} {cur : Nat} (h : ∀ i < 4, (rd (cur + i)).toNat < 256) :
    rangeFault rd cur = none := by
  simp only [rangeFault, List.find?_eq_none, List.mem_cons, List.not_mem_nil, or_false, decide_eq_true_eq, not_le]
  intro i hi
  exact h i (by omega)

/-- The first position of a list of consecutive positions that satisfies `p`. -/
theorem find_first {p : Nat → Bool} {i : Nat} (hi : i < 4) (hp : p i = true) (hlt : ∀ j < i, p j = false) :
    [0, 1, 2, 3].find? p = some i := by
  have hcases : i = 0 ∨ i = 1 ∨ i = 2 ∨ i = 3 := by omega
  rcases hcases with rfl | rfl | rfl | rfl
  · simp [hp]
  · simp [hp, hlt 0 (by omega)]
  · simp [hp, hlt 0 (by omega), hlt 1 (by omega)]
  · simp [hp, hlt 0 (by omega), hlt 1 (by omega), hlt 2 (by omega)]

theorem alphabetFault_none {rd : Nat → CharCode} {cur k : Nat}
    (h : ∀ i < 4, i ≤ k → (entryOf (rd (cur + i))).valid = true) : alphabetFault rd cur k = none := by
  simp only [alphabetFault, List.find?_eq_none, mem_consulted, Bool.not_eq_true', Bool.not_eq_false]
  intro i hi
  exact h i hi.1 hi.2

theorem alphabetFault_some {rd : Nat → CharCode} {cur k i : Nat} (hi : i < 4) (hk : i ≤ k)
    (hbad : (entryOf (rd (cur + i))).valid = false)
    (hlt : ∀ j < i, (entryOf (rd (cur + j))).valid = true) : alphabetFault rd cur k = some i := by
  have hfind : [0, 1, 2, 3].find? (fun j => decide (j ≤ k) && !(entryOf (rd (cur + j))).valid) = some i :=
    find_first hi (by simp [hk, hbad]) (fun j hj => by simp [hlt j hj])
  rw [alphabetFault, consulted, List.find?_filter]
  simpa [Bool.decide_and] using hfind

/-- R109: a clean quartet answers its first `k` bytes. -/
theorem quartet_clean {garbage : Nat → Byte} {rd : Nat → CharCode} {bound cur k : Nat} (hb : cur + 4 ≤ bound)
    (h : CleanQuartet rd cur k) (check : Bool) :
    quartet check garbage rd bound cur k = .good ((quartetBytes check garbage rd cur).take k) := by
  rw [quartet, if_pos hb, rangeFault_none h.1]
  cases check <;> simp [alphabetFault_none h.2]

/-- R106, R108: a quartet with a bad character answers its index. -/
theorem quartet_bad {garbage : Nat → Byte} {rd : Nat → CharCode} {bound cur k bad : Nat} (hb : cur + 4 ≤ bound)
    (h : ReportsBad rd cur k bad) : quartet true garbage rd bound cur k = .bad bad := by
  rw [quartet, if_pos hb]
  rcases h with ⟨i, hi, rfl, hbad, hlt⟩ | ⟨hr, i, hi, hk, rfl, hbad, hlt⟩
  · have : rangeFault rd cur = some i :=
      find_first hi (by simpa using hbad) (fun j hj => by simpa using hlt j hj)
    simp only [this]
  · simp only [rangeFault_none hr, if_true, alphabetFault_some hi hk hbad hlt]

/-- The lowest position below 4 that satisfies a predicate some position satisfies. -/
theorem exists_lowest {p : Nat → Prop} (h : ∃ i < 4, p i) : ∃ i < 4, p i ∧ ∀ j < i, ¬ p j := by
  classical
  obtain ⟨i, hi, hp⟩ := h
  refine ⟨Nat.find ⟨i, hp⟩, ?_, Nat.find_spec ⟨i, hp⟩, fun j hj => Nat.find_min ⟨i, hp⟩ hj⟩
  exact lt_of_le_of_lt (Nat.find_min' _ hp) hi

/-- R179: every quartet is clean or reports exactly one index. -/
theorem clean_or_reportsBad (rd : Nat → CharCode) (cur k : Nat) :
    CleanQuartet rd cur k ∨ ∃ bad, ReportsBad rd cur k bad := by
  by_cases hr : ∀ i < 4, (rd (cur + i)).toNat < 256
  · by_cases ha : ∀ i < 4, i ≤ k → (entryOf (rd (cur + i))).valid = true
    · exact .inl ⟨hr, ha⟩
    · push Not at ha
      obtain ⟨i, hi, hp, hlow⟩ := exists_lowest (p := fun i => i ≤ k ∧ ¬ (entryOf (rd (cur + i))).valid = true) (by simpa using ha)
      refine .inr ⟨cur + i, .inr ⟨hr, i, hi, hp.1, rfl, by simpa using hp.2, fun j hj => ?_⟩⟩
      by_contra hc
      exact hlow j hj ⟨by omega, hc⟩
  · push Not at hr
    obtain ⟨i, hi, hp, hlow⟩ := exists_lowest hr
    exact .inr ⟨cur + i, .inl ⟨i, hi, rfl, hp, fun j hj => by simpa using hlow j hj⟩⟩

/-- A clean quartet reports nothing. -/
theorem not_reportsBad_of_clean {rd : Nat → CharCode} {cur k bad : Nat} (h : CleanQuartet rd cur k) :
    ¬ ReportsBad rd cur k bad := by
  rintro (⟨i, hi, -, hbad, -⟩ | ⟨-, i, hi, hk, -, hbad, -⟩)
  · have := h.1 i hi; omega
  · simp [h.2 i hi hk] at hbad

/-- R104, R122: with the check on, the bytes of the quartet at `init + 4 q` are bytes 3q to 3q + 2 of the stream. -/
theorem quartetBytes_stream (garbage : Nat → Byte) (rd : Nat → CharCode) (init q : Nat) :
    quartetBytes true garbage rd (init + 4 * q) =
      [streamByte rd init (3 * q), streamByte rd init (3 * q + 1), streamByte rd init (3 * q + 2)] := by
  have h0 : 3 * q / 3 = q := by omega
  have h1 : (3 * q + 1) / 3 = q := by omega
  have h2 : (3 * q + 2) / 3 = q := by omega
  have m0 : 3 * q % 3 = 0 := by omega
  have m1 : (3 * q + 1) % 3 = 1 := by omega
  have m2 : (3 * q + 2) % 3 = 2 := by omega
  simp [quartetBytes, streamByte, h0, h1, h2, m0, m1, m2]

/-- R109: however a quartet is read, it produces at most three bytes, and at most `k`. -/
theorem quartet_good_length {check : Bool} {garbage : Nat → Byte} {rd : Nat → CharCode} {bound cur k : Nat}
    {ys : List Byte} (h : quartet check garbage rd bound cur k = .good ys) : ys.length = min k 3 := by
  unfold quartet at h
  split at h
  · split at h
    · simp at h
    · split at h
      · simp at h
      · simp only [QuartetResult.good.injEq] at h
        subst h
        simp [quartetBytes]
  · simp at h

/-- R40: a quartet is answered as outside exactly when it does not lie below the bound. -/
theorem quartet_outside {check : Bool} {garbage : Nat → Byte} {rd : Nat → CharCode} {bound cur k : Nat} :
    quartet check garbage rd bound cur k = .outside ↔ bound < cur + 4 := by
  unfold quartet
  split
  · next h =>
    simp only [show ¬ bound < cur + 4 by omega, iff_false]
    split
    · simp
    · split <;> simp
  · next h => simpa using h

/-- A quartet looks at nothing but its own four characters (R40). -/
theorem quartet_congr {check : Bool} {garbage : Nat → Byte} {rd rd' : Nat → CharCode} {bound cur k : Nat}
    (h : ∀ i < 4, cur + i < bound → rd (cur + i) = rd' (cur + i)) :
    quartet check garbage rd bound cur k = quartet check garbage rd' bound cur k := by
  unfold quartet
  split
  · next hb =>
    have h0 := h 0 (by omega) (by omega)
    have h1 := h 1 (by omega) (by omega)
    have h2 := h 2 (by omega) (by omega)
    have h3 := h 3 (by omega) (by omega)
    have hr : rangeFault rd cur = rangeFault rd' cur := by simp only [rangeFault, List.find?, h0, h1, h2, h3]
    have ha : alphabetFault rd cur k = alphabetFault rd' cur k := by
      unfold alphabetFault
      apply List.find?_congr
      intro i hi
      obtain ⟨hi4, -⟩ := mem_consulted.mp hi
      rw [h i hi4 (by omega)]
    have hq : quartetBytes check garbage rd cur = quartetBytes check garbage rd' cur := by
      simp only [quartetBytes, h0, h1, h2, h3]
    rw [hr, ha, hq]
  · rfl

end Sys2Proof.Machine
end

