-- ==== Sys2Proof/Laws/Decode.lean ====
section
/-!
SUPPORT. The fields of a command word (spec/30_encoding.md R61) as numbers, and what the decoder makes of each register
number and opcode.
-/

namespace Sys2Proof

theorem opField_toNat (w : Word) : (opField w).toNat = w.toNat % 16 := by
  simp [opField, BitVec.extractLsb'_toNat]

theorem rsvField_toNat (w : Word) : (rsvField w).toNat = w.toNat / 32 := by
  have := w.isLt
  simp only [rsvField, BitVec.extractLsb'_toNat, Nat.shiftRight_eq_div_pow]
  omega

theorem rsvField_eq_zero {w : Word} : rsvField w = 0#27 ↔ w.toNat < 32 := by
  have h := rsvField_toNat w
  constructor
  · intro hz
    have hn : (rsvField w).toNat = 0 := by rw [hz]; rfl
    omega
  · intro hlt
    apply BitVec.eq_of_toNat_eq
    simp only [BitVec.toNat_ofNat]
    omega

theorem nullField_iff (w : Word) : nullField w = true ↔ w.toNat / 16 % 2 = 1 := by
  rw [nullField, BitVec.getLsbD, Nat.testBit_eq_decide_div_mod_eq]
  simp

theorem opField_ne_one {w : Word} : opField w ≠ 1#4 ↔ w.toNat % 16 ≠ 1 := by
  rw [← opField_toNat, ne_eq, ne_eq, not_iff_not]
  constructor
  · intro h; rw [h]; rfl
  · intro h; exact BitVec.eq_of_toNat_eq (by simpa using h)

/-- A register's number names that register (R20). -/
@[simp] theorem regOfNumber_number (r : Reg) : regOfNumber r.number = some r := by cases r <;> rfl

/-- A number names a register exactly when it is at most 7, and then it is that register's number (R20, R64). -/
theorem regOfNumber_some {a : Word} {r : Reg} : regOfNumber a = some r ↔ a = r.number := by
  constructor
  · intro h
    unfold regOfNumber at h
    apply BitVec.eq_of_toNat_eq
    split at h
    all_goals first
      | (next hn => simp only [Option.some.injEq] at h; subst h; rw [hn]; rfl)
      | simp at h
  · rintro rfl; exact regOfNumber_number r

theorem regOfNumber_none {a : Word} : regOfNumber a = none ↔ 7 < a.toNat := by
  unfold regOfNumber
  split
  case h_9 =>
    rename_i h0 h1 h2 h3 h4 h5 h6 h7
    simp only [true_iff]
    have : a.toNat ≠ 0 ∧ a.toNat ≠ 1 ∧ a.toNat ≠ 2 ∧ a.toNat ≠ 3 ∧ a.toNat ≠ 4 ∧ a.toNat ≠ 5 ∧ a.toNat ≠ 6 ∧
      a.toNat ≠ 7 := ⟨h0, h1, h2, h3, h4, h5, h6, h7⟩
    omega
  all_goals next hn => simp [hn]

/-! The decoder on each word of the opcode map (R63), whatever the arguments. -/

@[simp] theorem decode_construct (len off : Word) : decode ⟨0x1#32, len, off⟩ = .construct false len off := by
  simp [decode, rsvField, opField, nullField]

@[simp] theorem decode_constructNull (len off : Word) : decode ⟨0x11#32, len, off⟩ = .construct true len off := by
  simp [decode, rsvField, opField, nullField]

@[simp] theorem decode_read (a0 a1 : Word) : decode ⟨0x2#32, a0, a1⟩ = .read a0 := by
  simp [decode, rsvField, opField, nullField]

@[simp] theorem decode_length (a0 a1 : Word) : decode ⟨0x3#32, a0, a1⟩ = .length := by
  simp [decode, rsvField, opField, nullField]

@[simp] theorem decode_position (a0 a1 : Word) : decode ⟨0x4#32, a0, a1⟩ = .position := by
  simp [decode, rsvField, opField, nullField]

@[simp] theorem decode_rewind (a0 a1 : Word) : decode ⟨0x5#32, a0, a1⟩ = .rewind := by
  simp [decode, rsvField, opField, nullField]

@[simp] theorem decode_setpos (a0 a1 : Word) : decode ⟨0x6#32, a0, a1⟩ = .setpos a0 := by
  simp [decode, rsvField, opField, nullField]

@[simp] theorem decode_write (a0 a1 : Word) : decode ⟨0x7#32, a0, a1⟩ = .write := by
  simp [decode, rsvField, opField, nullField]

@[simp] theorem decode_seek (a0 a1 : Word) : decode ⟨0x8#32, a0, a1⟩ = .seek := by
  simp [decode, rsvField, opField, nullField]

@[simp] theorem decode_setlen (a0 a1 : Word) : decode ⟨0x9#32, a0, a1⟩ = .setlen := by
  simp [decode, rsvField, opField, nullField]

@[simp] theorem decode_peek (r : Reg) (a1 : Word) : decode ⟨0xA#32, r.number, a1⟩ = .peek r := by
  simp [decode, rsvField, opField, nullField]

theorem decode_badRegister {a0 : Word} (h : 7 < a0.toNat) (a1 : Word) :
    decode ⟨0xA#32, a0, a1⟩ = .illegal ⟨0xA#32, a0, a1⟩ := by
  simp [decode, rsvField, opField, nullField, regOfNumber_none.mpr h]

/-- R63, R64: a transaction is illegal for a reason, or its word is one of the eleven of the opcode map. -/
theorem word_cases (c : Command) :
    c.illegalReason.isSome = true ∨
    (c.illegalReason = none ∧
      (c.word = 0x1#32 ∨ c.word = 0x11#32 ∨ c.word = 0x2#32 ∨ c.word = 0x3#32 ∨ c.word = 0x4#32 ∨ c.word = 0x5#32 ∨
        c.word = 0x6#32 ∨ c.word = 0x7#32 ∨ c.word = 0x8#32 ∨ c.word = 0x9#32 ∨
        (c.word = 0xA#32 ∧ ∃ r : Reg, c.arg0 = r.number))) := by
  by_cases h : c.illegalReason.isSome = true
  · exact .inl h
  · have h' : c.illegalReason = none := by simpa using h
    refine .inr ⟨h', ?_⟩
    unfold Command.illegalReason at h'
    split at h' <;> [simp at h'; skip]
    split at h' <;> [simp at h'; skip]
    split at h' <;> [simp at h'; skip]
    split at h' <;> [simp at h'; skip]
    next h1 h2 h3 h4 =>
      have eq : ∀ k, c.word.toNat = k → k < 32 → c.word = BitVec.ofNat 32 k := fun k hk hlt => by
        apply BitVec.eq_of_toNat_eq
        simp only [BitVec.toNat_ofNat, hk]
        omega
      have hn : c.word.toNat = 0x1 ∨ c.word.toNat = 0x11 ∨ c.word.toNat = 0x2 ∨ c.word.toNat = 0x3 ∨
          c.word.toNat = 0x4 ∨ c.word.toNat = 0x5 ∨ c.word.toNat = 0x6 ∨ c.word.toNat = 0x7 ∨ c.word.toNat = 0x8 ∨
          c.word.toNat = 0x9 ∨ (c.word.toNat = 0xA ∧ ¬ 7 < c.arg0.toNat) := by omega
      rcases hn with hn | hn | hn | hn | hn | hn | hn | hn | hn | hn | ⟨hn, ha⟩
      · exact .inl (eq _ hn (by decide))
      · exact .inr (.inl (eq _ hn (by decide)))
      · exact .inr (.inr (.inl (eq _ hn (by decide))))
      · exact .inr (.inr (.inr (.inl (eq _ hn (by decide)))))
      · exact .inr (.inr (.inr (.inr (.inl (eq _ hn (by decide))))))
      · exact .inr (.inr (.inr (.inr (.inr (.inl (eq _ hn (by decide)))))))
      · exact .inr (.inr (.inr (.inr (.inr (.inr (.inl (eq _ hn (by decide))))))))
      · exact .inr (.inr (.inr (.inr (.inr (.inr (.inr (.inl (eq _ hn (by decide)))))))))
      · exact .inr (.inr (.inr (.inr (.inr (.inr (.inr (.inr (.inl (eq _ hn (by decide))))))))))
      · exact .inr (.inr (.inr (.inr (.inr (.inr (.inr (.inr (.inr (.inl (eq _ hn (by decide)))))))))))
      · refine .inr (.inr (.inr (.inr (.inr (.inr (.inr (.inr (.inr (.inr ⟨eq _ hn (by decide), ?_⟩)))))))))
        cases hr : regOfNumber c.arg0 with
        | none => exact absurd (regOfNumber_none.mp hr) ha
        | some r => exact ⟨r, regOfNumber_some.mp hr⟩

end Sys2Proof
end

