-- ==== Sys2Proof/Laws/Read.lean ====
section
/-!
SUPPORT. What the decoding of a READ answers, said once (spec/41_read.md R111 to R117, R120 to R122): its bounds in every
state, and its exact result in a state that meets the invariants.
-/

namespace Sys2Proof.Machine

/-- R104, R107: with the alphabet check on (this hardware), the quartet function never uses the free values. -/
theorem alphabetCheck_on : Config.alphabetCheck = true := rfl

/-- Whatever the registers hold, the final quartet's run produces as many bytes as `out` moves, at most 3 and only with
room. -/
theorem finalQuartet_bounds (rd : Nat → CharCode) (garbage : Nat → Byte) (r : Regs) (cap cur pos out : Nat) :
    (finalQuartet rd garbage r cap cur pos out).out =
        out + (finalQuartet rd garbage r cap cur pos out).bytes.length ∧
      ((finalQuartet rd garbage r cap cur pos out).bytes.length = 0 ∨
        ((finalQuartet rd garbage r cap cur pos out).bytes.length ≤ 3 ∧ out < cap)) := by
  unfold finalQuartet
  split
  · next h =>
    simp only
    split
    · simp
    · simp
    · next ys hys =>
      have := quartet_good_length hys
      simp only [this]
      omega
  · simp

/-- Whatever the registers hold, a READ's run produces as many bytes as `out` moves, and never more than `cap`. -/
theorem readRun_bounds (rd : Nat → CharCode) (garbage : Nat → Byte) (r : Regs) {cap : Nat} (hcap : cap % 3 = 0)
    (fuel cur pos : Nat) {out : Nat} (hout : out % 3 = 0) (hle : out ≤ cap) :
    (readRun rd garbage r cap fuel cur pos out).out =
        out + (readRun rd garbage r cap fuel cur pos out).bytes.length ∧
      out + (readRun rd garbage r cap fuel cur pos out).bytes.length ≤ cap := by
  induction fuel generalizing cur pos out with
  | zero =>
    rw [readRun]
    have := finalQuartet_bounds rd garbage r cap cur pos out
    omega
  | succ fuel ih =>
    rw [readRun]
    split
    · next h =>
      split
      · exact ⟨by simp, by simpa using hle⟩
      · exact ⟨by simp, by simpa using hle⟩
      · next ys hys =>
        have hlen := quartet_good_length hys
        obtain ⟨i1, i2⟩ := ih (cur + 4) (pos + 3) (out := out + 3) (by omega) (by omega)
        simp only [Run.after, List.length_append]
        omega
    · have := finalQuartet_bounds rd garbage r cap cur pos out
      omega

theorem capOf_mod (n : Word) : capOf n % 3 = 0 := by simp [capOf]

theorem capOf_le (n : Word) : capOf n ≤ n.toNat := by simp only [capOf]; omega

theorem capOf_lt (n : Word) : capOf n < 2 ^ 32 := lt_of_le_of_lt (capOf_le n) n.isLt

/-- R43: a READ produces at most `cap` bytes. -/
theorem runOf_length_le (s : State) (n : Word) : (s.runOf n).bytes.length ≤ capOf n := by
  have := (readRun_bounds s.srcRead (Config.legacyByte s.draws) s.regs (capOf_mod n) (capOf n / 3)
    s.regs.sourceCursor.toNat s.regs.decodedPosition.toNat (out := 0) rfl (Nat.zero_le _)).2
  simpa [State.runOf] using this

theorem runOf_out (s : State) (n : Word) : (s.runOf n).out = (s.runOf n).bytes.length := by
  have := (readRun_bounds s.srcRead (Config.legacyByte s.draws) s.regs (capOf_mod n) (capOf n / 3)
    s.regs.sourceCursor.toNat s.regs.decodedPosition.toNat (out := 0) rfl (Nat.zero_le _)).1
  simpa [State.runOf] using this

/-- R109, R115: a final quartet that could not be decoded has produced nothing and has room. -/
theorem finalQuartet_stopped {rd : Nat → CharCode} {garbage : Nat → Byte} {r : Regs} {cap cur pos out : Nat}
    (h : (finalQuartet rd garbage r cap cur pos out).stop ≠ .done) :
    (finalQuartet rd garbage r cap cur pos out).bytes = [] ∧ out < cap := by
  unfold finalQuartet at h ⊢
  split
  · next hf =>
    rw [if_pos hf] at h
    revert h
    simp only
    split <;> simp [hf.2.2]
  · next hf => exact absurd rfl (by rwa [if_neg hf] at h)

/-- R109, R112, R114: a run that ends at a quartet it could not decode has room left and has produced whole triplets. -/
theorem readRun_stopped {rd : Nat → CharCode} {garbage : Nat → Byte} {r : Regs} {cap fuel cur pos out : Nat}
    (h : (readRun rd garbage r cap fuel cur pos out).stop ≠ .done) :
    (readRun rd garbage r cap fuel cur pos out).bytes.length % 3 = 0 ∧
      out + (readRun rd garbage r cap fuel cur pos out).bytes.length < cap := by
  induction fuel generalizing cur pos out with
  | zero =>
    rw [readRun] at h ⊢
    obtain ⟨e, hlt⟩ := finalQuartet_stopped h
    simpa [e] using hlt
  | succ fuel ih =>
    rw [readRun] at h ⊢
    split
    · next hl =>
      rw [if_pos hl] at h
      split
      · simpa using hl.1
      · simpa using hl.1
      · next ys hys =>
        simp only [hys] at h
        have hlen := quartet_good_length hys
        have := ih (cur := cur + 4) (pos := pos + 3) (out := out + 3) h
        simp only [Run.after, List.length_append]
        omega
    · next hl =>
      rw [if_neg hl] at h
      obtain ⟨e, hlt⟩ := finalQuartet_stopped h
      simpa [e] using hlt

/-- R43, R199: the quartets a READ reads, and those it writes, fit its buffer, and it reads at most one it does not
write. -/
theorem runOf_quartets (s : State) (n : Word) :
    3 * (s.runOf n).quartetsRead ≤ capOf n ∧ (s.runOf n).quartetsGood ≤ (s.runOf n).quartetsRead ∧
      (s.runOf n).quartetsRead ≤ (s.runOf n).quartetsGood + 1 := by
  have hle := runOf_length_le s n
  have hm := capOf_mod n
  have hs : (s.runOf n).stop ≠ .done → (s.runOf n).bytes.length % 3 = 0 ∧ (s.runOf n).bytes.length < capOf n :=
    fun h => by simpa [State.runOf] using readRun_stopped h
  unfold Run.quartetsRead Run.quartetsGood
  split
  · omega
  · next i hi => have := hs (by simp [hi]); omega
  · next hi => have := hs (by simp [hi]); omega

/-- The bytes of the stream from `a` on, `n` of them. -/
def streamRun (rd : Nat → CharCode) (init a n : Nat) : List Byte :=
  (List.range n).map (fun j => streamByte rd init (a + j))

@[simp] theorem streamRun_length (rd : Nat → CharCode) (init a n : Nat) : (streamRun rd init a n).length = n := by
  simp [streamRun]

theorem streamRun_add (rd : Nat → CharCode) (init a m n : Nat) :
    streamRun rd init a (m + n) = streamRun rd init a m ++ streamRun rd init (a + m) n := by
  simp only [streamRun, List.range_add, List.map_append, List.map_map]
  congr 1
  apply List.map_congr_left
  intro j _
  simp [Nat.add_assoc]

@[simp] theorem streamRun_zero (rd : Nat → CharCode) (init a : Nat) : streamRun rd init a 0 = [] := rfl

/-- R104, R107: the first `k` bytes of the quartet at `init + 4 q`, with the check on. -/
theorem quartetBytes_take (garbage : Nat → Byte) (rd : Nat → CharCode) (init q : Nat) {k : Nat} (hk : k ≤ 3) :
    (quartetBytes true garbage rd (init + 4 * q)).take k = streamRun rd init (3 * q) k := by
  rw [quartetBytes_stream]
  have : k = 0 ∨ k = 1 ∨ k = 2 ∨ k = 3 := by omega
  rcases this with rfl | rfl | rfl | rfl <;> simp [streamRun, List.range_succ]

/-- The shape of a context's content (R32): `quartets` whole quartets from `init` on, inside the source. -/
structure Shape (r : Regs) (init quartets : Nat) : Prop where
  padding : r.paddingCount.toNat ≤ 2
  some_quartet : 1 ≤ quartets
  length : r.decodedLength.toNat + r.paddingCount.toNat = 3 * quartets
  inside : init + 4 * quartets ≤ r.srcLen.toNat

/-- R114, R115: how many bytes quartet `q` of the content produces. -/
theorem Shape.bytesAt {r : Regs} {init quartets q : Nat} (h : Shape r init quartets) (hq : q < quartets) :
    r.bytesOfQuartetAt (3 * q) = min 3 (r.decodedLength.toNat - 3 * q) := by
  have := h.padding
  have := h.length
  unfold Regs.bytesOfQuartetAt
  split <;> omega

/-- R121, R122: from quartet `a` on, with every quartet in reach clean, the run delivers the stream: `m` whole quartets,
`min` of the room and what remains. -/
theorem readRun_clean {rd : Nat → CharCode} {garbage : Nat → Byte} {r : Regs} {init quartets cap : Nat}
    (h : Shape r init quartets) (hcap : cap % 3 = 0) {fuel a out : Nat} (ha : a ≤ quartets) (hout : out % 3 = 0)
    (hle : out ≤ cap) (hfuel : (cap - out) / 3 ≤ fuel)
    (hclean : ∀ q, a ≤ q → q < quartets → 3 * (q - a) < cap - out →
      CleanQuartet rd (init + 4 * q) (r.bytesOfQuartetAt (3 * q))) :
    readRun rd garbage r cap fuel (init + 4 * a) (min (3 * a) r.decodedLength.toNat) out =
      let w := min (cap - out) (r.decodedLength.toNat - 3 * a)
      ⟨streamRun rd init (3 * a) w, init + 4 * (a + (w + 2) / 3), min (3 * a) r.decodedLength.toNat + w, out + w, .done⟩ := by
  have hp := h.padding
  have hl := h.length
  have hi := h.inside
  have hfinal : ∀ b out', b ≤ quartets → out' % 3 = 0 → out' ≤ cap →
      ¬ (out' < cap ∧ min (3 * b) r.decodedLength.toNat + 3 < r.decodedLength.toNat) →
      (∀ q, b ≤ q → q < quartets → 3 * (q - b) < cap - out' →
        CleanQuartet rd (init + 4 * q) (r.bytesOfQuartetAt (3 * q))) →
      finalQuartet rd garbage r cap (init + 4 * b) (min (3 * b) r.decodedLength.toNat) out' =
        ⟨streamRun rd init (3 * b) (min (cap - out') (r.decodedLength.toNat - 3 * b)),
          init + 4 * (b + (min (cap - out') (r.decodedLength.toNat - 3 * b) + 2) / 3),
          min (3 * b) r.decodedLength.toNat + min (cap - out') (r.decodedLength.toNat - 3 * b),
          out' + min (cap - out') (r.decodedLength.toNat - 3 * b), .done⟩ := by
    intro b out' hb hout' hle' hno hcl
    unfold finalQuartet
    split
    · next hf =>
      have hbq : b + 1 = quartets := by omega
      have hk := h.bytesAt (q := b) (by omega)
      have hk' : r.bytesOfQuartetAt (3 * b) = 3 - r.paddingCount.toNat := by omega
      have hq := quartet_clean (garbage := fun j => garbage (out' + j)) (bound := r.srcLen.toNat) (by omega)
        (hcl b le_rfl (by omega) (by omega)) true
      rw [hk'] at hq
      simp only [alphabetCheck_on, hq, quartetBytes_take _ _ _ _ (show 3 - r.paddingCount.toNat ≤ 3 by omega)]
      have hw : min (cap - out') (r.decodedLength.toNat - 3 * b) = 3 - r.paddingCount.toNat := by omega
      rw [hw]
      congr 1
      omega
    · next hf =>
      have hw : min (cap - out') (r.decodedLength.toNat - 3 * b) = 0 := by omega
      rw [hw]
      simp
  induction fuel generalizing a out with
  | zero =>
    rw [readRun]
    exact hfinal a out ha hout hle (by omega) hclean
  | succ fuel ih =>
    rw [readRun]
    split
    · next hloop =>
      have hk := h.bytesAt (q := a) (by omega)
      have hk' : r.bytesOfQuartetAt (3 * a) = 3 := by omega
      have hq := quartet_clean (garbage := fun j => garbage (out + j)) (bound := r.srcLen.toNat) (by omega)
        (hclean a le_rfl (by omega) (by omega)) true
      rw [hk'] at hq
      have hih := ih (a := a + 1) (out := out + 3) (by omega) (by omega) (by omega) (by omega)
        (fun q h1 h2 h3 => hclean q (by omega) h2 (by omega))
      have e1 : init + 4 * a + 4 = init + 4 * (a + 1) := by omega
      have e2 : min (3 * a) r.decodedLength.toNat + 3 = min (3 * (a + 1)) r.decodedLength.toNat := by omega
      simp only [alphabetCheck_on, hq, quartetBytes_take _ _ _ _ (le_refl 3)]
      rw [e1, e2, hih]
      have hw : min (cap - out) (r.decodedLength.toNat - 3 * a) =
          3 + min (cap - (out + 3)) (r.decodedLength.toNat - 3 * (a + 1)) := by omega
      simp only [Run.after, hw, streamRun_add]
      simp only [Run.mk.injEq]
      refine ⟨by rw [show 3 * a + 3 = 3 * (a + 1) by omega], by omega, by omega, by omega, trivial⟩
    · next hloop => exact hfinal a out ha hout hle hloop hclean

/-- R112: from quartet `a` on, the quartets before `b` clean and quartet `b`, in reach, holding a bad character: the run
delivers the bytes of the quartets before it and ends with the index it reports. -/
theorem readRun_bad {rd : Nat → CharCode} {garbage : Nat → Byte} {r : Regs} {init quartets cap : Nat}
    (h : Shape r init quartets) (hcap : cap % 3 = 0) {fuel a b out bad : Nat} (hab : a ≤ b) (hb : b < quartets)
    (hout : out % 3 = 0) (hle : out ≤ cap) (hfuel : (cap - out) / 3 ≤ fuel) (hreach : 3 * (b - a) < cap - out)
    (hclean : ∀ q, a ≤ q → q < b → CleanQuartet rd (init + 4 * q) (r.bytesOfQuartetAt (3 * q)))
    (hbad : ReportsBad rd (init + 4 * b) (r.bytesOfQuartetAt (3 * b)) bad) :
    (readRun rd garbage r cap fuel (init + 4 * a) (3 * a) out).stop = .malformed bad ∧
      (readRun rd garbage r cap fuel (init + 4 * a) (3 * a) out).bytes = streamRun rd init (3 * a) (3 * (b - a)) := by
  have hp := h.padding
  have hl := h.length
  have hi := h.inside
  have hfinal : ∀ out', out' % 3 = 0 → out' < cap →
      ¬ (out' < cap ∧ 3 * b + 3 < r.decodedLength.toNat) →
      finalQuartet rd garbage r cap (init + 4 * b) (3 * b) out' = ⟨[], init + 4 * b, 3 * b, out', .malformed bad⟩ := by
    intro out' hout' hle' hno
    have hk := h.bytesAt (q := b) (by omega)
    have hk' : r.bytesOfQuartetAt (3 * b) = 3 - r.paddingCount.toNat := by omega
    rw [hk'] at hbad
    have hq := quartet_bad (garbage := fun j => garbage (out' + j)) (bound := r.srcLen.toNat) (by omega) hbad
    rw [finalQuartet, if_pos (by omega)]
    simp only [alphabetCheck_on, hq]
  induction fuel generalizing a out with
  | zero => omega
  | succ fuel ih =>
    rw [readRun]
    by_cases heq : a = b
    · subst heq
      split
      · next hloop =>
        have hk := h.bytesAt (q := a) hb
        have hk' : r.bytesOfQuartetAt (3 * a) = 3 := by omega
        rw [hk'] at hbad
        have hq := quartet_bad (garbage := fun j => garbage (out + j)) (bound := r.srcLen.toNat) (by omega) hbad
        simp [alphabetCheck_on, hq]
      · next hloop => simp [hfinal out hout (by omega) hloop]
    · have hloop : out < cap ∧ 3 * a + 3 < r.decodedLength.toNat := by omega
      rw [if_pos hloop]
      have hk := h.bytesAt (q := a) (by omega)
      have hk' : r.bytesOfQuartetAt (3 * a) = 3 := by omega
      have hq := quartet_clean (garbage := fun j => garbage (out + j)) (bound := r.srcLen.toNat) (by omega)
        (hclean a le_rfl (by omega)) true
      rw [hk'] at hq
      obtain ⟨i1, i2⟩ := ih (a := a + 1) (out := out + 3) (by omega) (by omega) (by omega) (by omega) (by omega)
        (fun q h1 h2 => hclean q (by omega) h2)
      have e1 : init + 4 * a + 4 = init + 4 * (a + 1) := by omega
      have e2 : 3 * a + 3 = 3 * (a + 1) := by omega
      simp only [alphabetCheck_on, hq, quartetBytes_take _ _ _ _ (le_refl 3)]
      rw [e1, e2]
      refine ⟨i1, ?_⟩
      simp only [Run.after, i2]
      rw [show 3 * (b - a) = 3 + 3 * (b - (a + 1)) by omega, streamRun_add]
      rw [show 3 * a + 3 = 3 * (a + 1) by omega]

/-- R32: the registers of a context have the shape of their content. -/
theorem Regs.ContextInv.shape {r : Regs} (h : r.ContextInv) : Shape r r.initialCursor.toNat (r.contentLen / 4) := by
  have h1 := h.padding
  have h2 := h.length
  have h3 := h.content
  refine ⟨h1, by omega, ?_, ?_⟩
  · simp only [Regs.contentLen] at *; omega
  · simp only [Regs.contentLen] at *; omega

/-- R32 items 4 and 5: the cursor and the position stand at the same quartet. -/
theorem Regs.ContextInv.at_quartet {r : Regs} (h : r.ContextInv) :
    r.sourceCursor.toNat = r.initialCursor.toNat + 4 * ((r.decodedPosition.toNat + 2) / 3) ∧
      r.decodedPosition.toNat = min (3 * ((r.decodedPosition.toNat + 2) / 3)) r.decodedLength.toNat ∧
      (r.decodedPosition.toNat + 2) / 3 ≤ r.contentLen / 4 ∧
      (r.decodedPosition.toNat < r.decodedLength.toNat → r.decodedPosition.toNat = 3 * ((r.decodedPosition.toNat + 2) / 3)) := by
  have hs := h.shape
  have h1 := h.position
  have h2 := hs.length
  have h3 := hs.padding
  refine ⟨h.cursor, ?_, ?_, ?_⟩
  · rcases h.triplet with ht | ht
    · omega
    · have := congrArg BitVec.toNat ht; omega
  · omega
  · intro hlt
    rcases h.triplet with ht | ht
    · omega
    · have := congrArg BitVec.toNat ht; omega

/-- R111 in a context: with every quartet in reach clean, the run delivers the stream. -/
theorem runOf_clean {s : State} (h : s.regs.ContextInv) {n : Word}
    (hclean : ∀ q, s.regs.decodedPosition.toNat + 3 * q < s.regs.decodedLength.toNat → 3 * q < capOf n →
      CleanQuartet s.srcRead (s.regs.sourceCursor.toNat + 4 * q)
        (s.regs.bytesOfQuartetAt (s.regs.decodedPosition.toNat + 3 * q))) :
    s.runOf n =
      ⟨streamRun s.srcRead s.regs.initialCursor.toNat s.regs.decodedPosition.toNat (s.regs.readCount n),
        s.regs.sourceCursor.toNat + 4 * ((s.regs.readCount n + 2) / 3),
        s.regs.decodedPosition.toNat + s.regs.readCount n, s.regs.readCount n, .done⟩ := by
  obtain ⟨hcur, hpos, hle, hlt⟩ := h.at_quartet
  have hsh := h.shape
  have hlen := hsh.length
  have hpad := hsh.padding
  have hposle := h.position
  have key := readRun_clean (rd := s.srcRead) (garbage := Config.legacyByte s.draws) hsh (capOf_mod n)
    (fuel := capOf n / 3) (a := (s.regs.decodedPosition.toNat + 2) / 3) (out := 0) hle rfl (Nat.zero_le _)
    (by omega) (fun q h1 h2 h3 => by
      have hp := hlt (by omega)
      have := hclean (q - (s.regs.decodedPosition.toNat + 2) / 3) (by omega) (by omega)
      rwa [hcur, show s.regs.initialCursor.toNat + 4 * ((s.regs.decodedPosition.toNat + 2) / 3) +
          4 * (q - (s.regs.decodedPosition.toNat + 2) / 3) = s.regs.initialCursor.toNat + 4 * q by omega,
        show s.regs.decodedPosition.toNat + 3 * (q - (s.regs.decodedPosition.toNat + 2) / 3) = 3 * q by omega] at this)
  rw [← hcur, ← hpos] at key
  rw [State.runOf, key]
  have hw : min (capOf n - 0) (s.regs.decodedLength.toNat - 3 * ((s.regs.decodedPosition.toNat + 2) / 3)) =
      s.regs.readCount n := by
    unfold Regs.readCount
    omega
  simp only [hw, Run.mk.injEq]
  refine ⟨?_, by omega, trivial, by omega, trivial⟩
  by_cases hz : s.regs.readCount n = 0
  · rw [hz]; rfl
  · rw [show 3 * ((s.regs.decodedPosition.toNat + 2) / 3) = s.regs.decodedPosition.toNat by
      have := hlt (by unfold Regs.readCount at hz; omega)
      omega]

/-- R112 in a context: `q` clean quartets, then one in reach with a bad character. -/
theorem runOf_bad {s : State} (h : s.regs.ContextInv) {n : Word} {q bad : Nat}
    (hreach : s.regs.decodedPosition.toNat + 3 * q < s.regs.decodedLength.toNat) (hroom : 3 * q < capOf n)
    (hclean : ∀ p < q, CleanQuartet s.srcRead (s.regs.sourceCursor.toNat + 4 * p)
      (s.regs.bytesOfQuartetAt (s.regs.decodedPosition.toNat + 3 * p)))
    (hbad : ReportsBad s.srcRead (s.regs.sourceCursor.toNat + 4 * q)
      (s.regs.bytesOfQuartetAt (s.regs.decodedPosition.toNat + 3 * q)) bad) :
    (s.runOf n).stop = .malformed bad ∧
      (s.runOf n).bytes = streamRun s.srcRead s.regs.initialCursor.toNat s.regs.decodedPosition.toNat (3 * q) := by
  obtain ⟨hcur, hpos, hle, hlt⟩ := h.at_quartet
  have hsh := h.shape
  have hlen := hsh.length
  have hpad := hsh.padding
  have hp := hlt (by omega)
  have e (p : Nat) : s.regs.sourceCursor.toNat + 4 * p =
      s.regs.initialCursor.toNat + 4 * ((s.regs.decodedPosition.toNat + 2) / 3 + p) := by omega
  have e' (p : Nat) : s.regs.decodedPosition.toNat + 3 * p = 3 * ((s.regs.decodedPosition.toNat + 2) / 3 + p) := by omega
  rw [e, e'] at hbad
  have key := readRun_bad (rd := s.srcRead) (garbage := Config.legacyByte s.draws) hsh (capOf_mod n)
    (fuel := capOf n / 3) (a := (s.regs.decodedPosition.toNat + 2) / 3) (out := 0)
    (b := (s.regs.decodedPosition.toNat + 2) / 3 + q) (by omega) (by omega) rfl (Nat.zero_le _) (by omega) (by omega)
    (fun p h1 h2 => by
      have := hclean (p - (s.regs.decodedPosition.toNat + 2) / 3) (by omega)
      rwa [e, e', show (s.regs.decodedPosition.toNat + 2) / 3 + (p - (s.regs.decodedPosition.toNat + 2) / 3) = p by omega]
        at this)
    hbad
  rw [← hcur, ← hp, show 3 * ((s.regs.decodedPosition.toNat + 2) / 3 + q - (s.regs.decodedPosition.toNat + 2) / 3) = 3 * q
    by omega] at key
  exact key

/-- R111, R179 in a context: every quartet in reach is clean, or there is a first one that is not. -/
theorem reach_clean_or_bad (s : State) (n : Word) :
    (∀ q, s.regs.decodedPosition.toNat + 3 * q < s.regs.decodedLength.toNat → 3 * q < capOf n →
      CleanQuartet s.srcRead (s.regs.sourceCursor.toNat + 4 * q)
        (s.regs.bytesOfQuartetAt (s.regs.decodedPosition.toNat + 3 * q))) ∨
    ∃ q bad, s.regs.decodedPosition.toNat + 3 * q < s.regs.decodedLength.toNat ∧ 3 * q < capOf n ∧
      (∀ p < q, CleanQuartet s.srcRead (s.regs.sourceCursor.toNat + 4 * p)
        (s.regs.bytesOfQuartetAt (s.regs.decodedPosition.toNat + 3 * p))) ∧
      ReportsBad s.srcRead (s.regs.sourceCursor.toNat + 4 * q)
        (s.regs.bytesOfQuartetAt (s.regs.decodedPosition.toNat + 3 * q)) bad := by
  classical
  by_cases hall : ∀ q, s.regs.decodedPosition.toNat + 3 * q < s.regs.decodedLength.toNat → 3 * q < capOf n →
      CleanQuartet s.srcRead (s.regs.sourceCursor.toNat + 4 * q)
        (s.regs.bytesOfQuartetAt (s.regs.decodedPosition.toNat + 3 * q))
  · exact .inl hall
  · refine .inr ?_
    have hex : ∃ q, s.regs.decodedPosition.toNat + 3 * q < s.regs.decodedLength.toNat ∧ 3 * q < capOf n ∧
        ¬ CleanQuartet s.srcRead (s.regs.sourceCursor.toNat + 4 * q)
          (s.regs.bytesOfQuartetAt (s.regs.decodedPosition.toNat + 3 * q)) := by
      by_contra hno
      exact hall (fun q h1 h2 => by
        by_contra hc
        exact hno ⟨q, h1, h2, hc⟩)
    obtain ⟨h1, h2, h3⟩ := Nat.find_spec hex
    obtain ⟨bad, hbad⟩ := (clean_or_reportsBad _ _ _).resolve_left h3
    refine ⟨Nat.find hex, bad, h1, h2, fun p hp => ?_, hbad⟩
    by_contra hc
    exact Nat.find_min hex hp ⟨by omega, by omega, hc⟩

end Sys2Proof.Machine
end

