-- ==== Sys2Proof/Laws/Exec.lean ====
section
/-!
SUPPORT. What a command can do, said once: the ways `exec` answers (spec/30_encoding.md R66, spec/60_exceptions.md R170,
R179).
-/

namespace Sys2Proof.Machine

/-- R111: the state after a READ has written the bytes of its run, before it completes. -/
def State.afterBytes (s : State) (n : Word) : State := (s.outWriteRun (s.runOf n).bytes).countDraw s.readDraws

/-- READ on a constructed block with room for a triplet, by how its run ends (R111, R112, R117). -/
theorem execRead_run {s : State} {n : Word} (hv : s.regs.valid = true) (hn : capOf n ≠ 0) :
    execRead n s =
      match (s.runOf n).stop with
      | .outside => .fault .sourceIndexOutOfRange
      | .malformed i => .next ((s.afterBytes n).respond .malformedCharacter (Word.ofNat i))
      | .done =>
        .next ({ s.afterBytes n with
          regs := { s.regs with
            sourceCursor := Word.ofNat (s.runOf n).cur
            decodedPosition := Word.ofNat (s.runOf n).pos } }.respond .ok (Word.ofNat (s.runOf n).out)) := by
  rw [execRead, whenConstructed_valid hv, if_neg hn]
  rfl

/-- A READ answers in one of these ways, or faults outside the source (R113, R112, R117). -/
theorem execRead_next {s t : State} {n : Word} (h : execRead n s = .next t) :
    (s.regs.valid = false ∧ t = s.respond .notConstructed 0#32) ∨
    (s.regs.valid = true ∧ capOf n = 0 ∧ t = s.respond .bufferTooSmall 0#32) ∨
    (s.regs.valid = true ∧ capOf n ≠ 0 ∧ ∃ i, (s.runOf n).stop = .malformed i ∧
      t = (s.afterBytes n).respond .malformedCharacter (Word.ofNat i)) ∨
    (s.regs.valid = true ∧ capOf n ≠ 0 ∧ (s.runOf n).stop = .done ∧
      t = { s.afterBytes n with
        regs := { s.regs with
          sourceCursor := Word.ofNat (s.runOf n).cur
          decodedPosition := Word.ofNat (s.runOf n).pos } }.respond .ok (Word.ofNat (s.runOf n).out)) := by
  cases hv : s.regs.valid with
  | false =>
    rw [execRead, whenConstructed_invalid hv] at h
    exact .inl ⟨rfl, by simpa using h.symm⟩
  | true =>
    by_cases hn : capOf n = 0
    · rw [execRead, whenConstructed_valid hv, if_pos hn] at h
      exact .inr (.inl ⟨rfl, hn, by simpa using h.symm⟩)
    · rw [execRead_run hv hn] at h
      cases hs : (s.runOf n).stop with
      | outside => simp [hs] at h
      | malformed i =>
        simp only [hs, Host.Outcome.next.injEq] at h
        exact .inr (.inr (.inl ⟨rfl, hn, i, rfl, h.symm⟩))
      | done =>
        simp only [hs, Host.Outcome.next.injEq] at h
        exact .inr (.inr (.inr ⟨rfl, hn, rfl, h.symm⟩))

/-- In a context no READ faults (R28, R120): the run ends done or at a bad character. -/
theorem runOf_stop {s : State} (h : s.regs.ContextInv) (n : Word) :
    (s.runOf n).stop = .done ∨ ∃ i, (s.runOf n).stop = .malformed i := by
  rcases reach_clean_or_bad s n with hclean | ⟨q, bad, h1, h2, h3, h4⟩
  · exact .inl (by rw [runOf_clean h hclean])
  · exact .inr ⟨bad, (runOf_bad h h1 h2 h3 h4).1⟩

/-- R120, R121 in a context: a run that is done has decoded `readCount` bytes. -/
theorem runOf_done {s : State} (h : s.regs.ContextInv) {n : Word} (hd : (s.runOf n).stop = .done) :
    s.runOf n =
      ⟨streamRun s.srcRead s.regs.initialCursor.toNat s.regs.decodedPosition.toNat (s.regs.readCount n),
        s.regs.sourceCursor.toNat + 4 * ((s.regs.readCount n + 2) / 3),
        s.regs.decodedPosition.toNat + s.regs.readCount n, s.regs.readCount n, .done⟩ := by
  rcases reach_clean_or_bad s n with hclean | ⟨q, bad, h1, h2, h3, h4⟩
  · exact runOf_clean h hclean
  · simp [(runOf_bad h h1 h2 h3 h4).1] at hd

/-- The ways a command answers a next state. `respond` alone is an error, or a query that writes nothing else. -/
theorem exec_next_cases {i : Instr} {s t : State} (h : exec i s = .next t) :
    (∃ code data, t = s.respond code data) ∨
    (∃ n j, i = .read n ∧ s.regs.valid = true ∧ t = (s.afterBytes n).respond .malformedCharacter (Word.ofNat j) ∧
      (s.runOf n).stop = .malformed j ∧ capOf n ≠ 0) ∨
    (∃ n, i = .read n ∧ s.regs.valid = true ∧ (s.runOf n).stop = .done ∧ capOf n ≠ 0 ∧
      t = { s.afterBytes n with
        regs := { s.regs with
          sourceCursor := Word.ofNat (s.runOf n).cur
          decodedPosition := Word.ofNat (s.runOf n).pos } }.respond .ok (Word.ofNat (s.runOf n).out)) ∨
    ((i = .rewind ∨ i = .setpos 0#32) ∧ s.regs.valid = true ∧ t = s.rewound.respond .ok 0#32) ∨
    (∃ len off a e, i = .construct false len off ∧ TrimmedView s.srcReadNew len.toNat off.toNat a e ∧ (e - a) % 4 = 0 ∧
      t = { s with regs := s.regs.newContext s.srcReadNew len a e, srcDisturbed := s.flightDisturbed }.respond
        .ok (Word.ofNat (3 * ((e - a) / 4) - (paddingOf s.srcReadNew e).toNat))) := by
  have answered : ∀ {k : Host.Outcome State Fault Refusal}, whenConstructed s k = .next t → k = .next t ∨
      ∃ code data, t = s.respond code data := by
    intro k hk
    cases hv : s.regs.valid with
    | false => rw [whenConstructed_invalid hv] at hk; exact .inr ⟨_, _, by simpa using hk.symm⟩
    | true => rw [whenConstructed_valid hv] at hk; exact .inl hk
  cases i with
  | construct nullSource len off =>
    simp only [exec] at h
    rcases execConstruct_cases nullSource len off s with ⟨-, he⟩ | ⟨-, code, -, he⟩ | ⟨rfl, a, e, hv, hm, he⟩
    · rw [he] at h; exact .inl ⟨_, _, by simpa using h.symm⟩
    · rw [he] at h; exact .inl ⟨_, _, by simpa using h.symm⟩
    · rw [he] at h
      exact .inr (.inr (.inr (.inr ⟨len, off, a, e, rfl, hv, hm, by simpa using h.symm⟩)))
  | read n =>
    rcases execRead_next h with ⟨-, rfl⟩ | ⟨-, -, rfl⟩ | ⟨hv, hn, j, hs, rfl⟩ | ⟨hv, hn, hs, rfl⟩
    · exact .inl ⟨_, _, rfl⟩
    · exact .inl ⟨_, _, rfl⟩
    · exact .inr (.inl ⟨n, j, rfl, hv, rfl, hs, hn⟩)
    · exact .inr (.inr (.inl ⟨n, rfl, hv, hs, hn, rfl⟩))
  | length =>
    rcases answered h with h | h
    · exact .inl ⟨_, _, by simpa using h.symm⟩
    · exact .inl h
  | position =>
    rcases answered h with h | h
    · exact .inl ⟨_, _, by simpa using h.symm⟩
    · exact .inl h
  | rewind =>
    cases hv : s.regs.valid with
    | false => rcases answered h with h' | h'
               · simp [exec, execRewind, whenConstructed_invalid hv] at h; exact .inl ⟨_, _, h.symm⟩
               · exact .inl h'
    | true =>
      simp only [exec, execRewind, whenConstructed_valid hv, complete_eq, Host.Outcome.next.injEq] at h
      exact .inr (.inr (.inr (.inl ⟨.inl rfl, rfl, h.symm⟩)))
  | setpos v =>
    cases hv : s.regs.valid with
    | false => simp only [exec, execSetpos, whenConstructed_invalid hv, Host.Outcome.next.injEq] at h
               exact .inl ⟨_, _, h.symm⟩
    | true =>
      simp only [exec, execSetpos, whenConstructed_valid hv] at h
      split at h
      · exact .inl ⟨_, _, by simpa using h.symm⟩
      · next hz =>
        obtain rfl : v = 0#32 := by simpa using hz
        exact .inr (.inr (.inr (.inl ⟨.inr rfl, rfl, by simpa using h.symm⟩)))
  | write =>
    rcases answered h with h | h
    · exact .inl ⟨_, _, by simpa using h.symm⟩
    · exact .inl h
  | seek =>
    rcases answered h with h | h
    · exact .inl ⟨_, _, by simpa using h.symm⟩
    · exact .inl h
  | setlen =>
    rcases answered h with h | h
    · exact .inl ⟨_, _, by simpa using h.symm⟩
    · exact .inl h
  | peek r => exact .inl ⟨_, _, by simpa [exec, execPeek] using h.symm⟩
  | illegal c => exact .inl ⟨_, _, by simpa [exec, execIllegal] using h.symm⟩

end Sys2Proof.Machine
end

