-- ==== Sys2Proof/Laws/Memory.lean ====
section
/-!
SUPPORT. The laws of a memory in canonical form: what each operation reads back as, that each keeps the form and stays
below a bound, and that memories that read alike are the same list.
-/

namespace Sys2Proof.Machine

variable {w : Nat}

@[simp] theorem Memory.read_nil (a : Nat) : Memory.read ([] : Memory w) a = Memory.unlisted w := rfl

theorem Memory.read_cons (b : Nat) (x : BitVec w) (m : Memory w) (a : Nat) :
    Memory.read ((b, x) :: m) a = if b = a then x else Memory.read m a := rfl

/-- The empty memory is in canonical form. -/
theorem Memory.wf_nil : Memory.wf ([] : Memory w) := by simp [Memory.wf]

theorem Memory.wf_cons {b : Nat} {x : BitVec w} {m : Memory w} :
    Memory.wf ((b, x) :: m) ↔
      (∀ c ∈ m, b < c.1) ∧ x ≠ Memory.unlisted w ∧ Memory.wf m := by
  simp only [Memory.wf, List.pairwise_cons, List.mem_cons, forall_eq_or_imp]
  tauto

/-- An index below every listed one is unlisted. -/
theorem Memory.read_below {m : Memory w} {a : Nat} (h : ∀ c ∈ m, a < c.1) : m.read a = Memory.unlisted w := by
  induction m with
  | nil => rfl
  | cons c m ih =>
    obtain ⟨b, x⟩ := c
    have hb : a < b := h (b, x) (by simp)
    rw [Memory.read_cons, if_neg (by omega), ih (fun c hc => h c (by simp [hc]))]

theorem Memory.read_consCell_same {m : Memory w} {a : Nat} {v : BitVec w} (h : ∀ c ∈ m, a < c.1) :
    (Memory.consCell a v m).read a = v := by
  unfold Memory.consCell
  split
  · next hv => rw [Memory.read_below h, hv]
  · simp [Memory.read_cons]

theorem Memory.read_consCell_other {m : Memory w} {a i : Nat} {v : BitVec w} (h : i ≠ a) :
    (Memory.consCell a v m).read i = m.read i := by
  unfold Memory.consCell
  split
  · rfl
  · rw [Memory.read_cons, if_neg (Ne.symm h)]

/-- A read after a write to the same index gives the value written. -/
theorem Memory.read_write_same {m : Memory w} (h : m.wf) (a : Nat) (v : BitVec w) : (m.write a v).read a = v := by
  induction m with
  | nil => exact Memory.read_consCell_same (by simp)
  | cons c m ih =>
    obtain ⟨b, x⟩ := c
    obtain ⟨hlt, -, hm⟩ := Memory.wf_cons.mp h
    unfold Memory.write
    split
    · next hab =>
      refine Memory.read_consCell_same (fun c hc => ?_)
      rcases List.mem_cons.mp hc with rfl | hc
      · exact hab
      · exact lt_trans hab (hlt c hc)
    · split
      · next hab => exact Memory.read_consCell_same (fun c hc => hab ▸ hlt c hc)
      · next hab => rw [Memory.read_cons, if_neg (by omega), ih hm]

/-- A write leaves every other index alone. -/
theorem Memory.read_write_other (m : Memory w) {a i : Nat} (v : BitVec w) (h : i ≠ a) :
    (m.write a v).read i = m.read i := by
  induction m with
  | nil => exact Memory.read_consCell_other h
  | cons c m ih =>
    obtain ⟨b, x⟩ := c
    unfold Memory.write
    split
    · exact Memory.read_consCell_other h
    · split
      · next hab => rw [Memory.read_consCell_other h, Memory.read_cons, if_neg (by omega)]
      · rw [Memory.read_cons, Memory.read_cons, ih]

/-- Every cell a write leaves is an old cell or the one written. -/
theorem Memory.mem_write {m : Memory w} {a : Nat} {v : BitVec w} {c : Nat × BitVec w} (h : c ∈ m.write a v) :
    c ∈ m ∨ c.1 = a := by
  induction m with
  | nil =>
    unfold Memory.write Memory.consCell at h
    split at h <;> simp_all
  | cons d m ih =>
    obtain ⟨b, x⟩ := d
    unfold Memory.write Memory.consCell at h
    split at h
    · split at h
      · exact .inl h
      · rcases List.mem_cons.mp h with rfl | h
        · exact .inr rfl
        · exact .inl h
    · split at h
      · split at h
        · exact .inl (by simp [h])
        · rcases List.mem_cons.mp h with rfl | h
          · exact .inr rfl
          · exact .inl (by simp [h])
      · rcases List.mem_cons.mp h with rfl | h
        · exact .inl (by simp)
        · rcases ih h with h | h
          · exact .inl (by simp [h])
          · exact .inr h

theorem Memory.consCell_wf {m : Memory w} {a : Nat} (v : BitVec w) (h : ∀ c ∈ m, a < c.1) (hm : m.wf) :
    (Memory.consCell a v m).wf := by
  unfold Memory.consCell
  split
  · exact hm
  · next hv => exact Memory.wf_cons.mpr ⟨h, hv, hm⟩

/-- A write keeps the canonical form. -/
theorem Memory.write_wf {m : Memory w} (h : m.wf) (a : Nat) (v : BitVec w) : (m.write a v).wf := by
  induction m with
  | nil => exact Memory.consCell_wf v (by simp) h
  | cons c m ih =>
    obtain ⟨b, x⟩ := c
    obtain ⟨hlt, hx, hm⟩ := Memory.wf_cons.mp h
    unfold Memory.write
    split
    · next hab =>
      refine Memory.consCell_wf v (fun c hc => ?_) h
      rcases List.mem_cons.mp hc with rfl | hc
      · exact hab
      · exact lt_trans hab (hlt c hc)
    · split
      · next hab => exact Memory.consCell_wf v (fun c hc => hab ▸ hlt c hc) hm
      · next hab =>
        refine Memory.wf_cons.mpr ⟨fun c hc => ?_, hx, ih hm⟩
        rcases Memory.mem_write hc with hc | hc
        · exact hlt c hc
        · omega

/-- A run of stores keeps the canonical form. -/
theorem Memory.writeRun_wf {m : Memory w} (h : m.wf) (a : Nat) (vs : List (BitVec w)) : (m.writeRun a vs).wf := by
  induction vs generalizing m a with
  | nil => exact h
  | cons v vs ih => exact ih (Memory.write_wf h a v) (a + 1)

/-- Putting contents back keeps the canonical form. -/
theorem Memory.restore_wf (old : Memory w) {m : Memory w} (h : m.wf) (as : List Nat) : (Memory.restore old m as).wf := by
  induction as generalizing m with
  | nil => exact h
  | cons a as ih => exact ih (Memory.write_wf h a _)

/-- Filling a range keeps the canonical form. -/
theorem Memory.fillBelow_wf {m : Memory w} (h : m.wf) (f : Nat → BitVec w) (n : Nat) : (m.fillBelow f n).wf := by
  induction n with
  | zero => exact h
  | succ n ih => exact Memory.write_wf ih n _

/-- What a run of stores leaves at an index outside it. -/
theorem Memory.read_writeRun_outside (m : Memory w) (a : Nat) (vs : List (BitVec w)) {i : Nat}
    (hi : i < a ∨ a + vs.length ≤ i) : (m.writeRun a vs).read i = m.read i := by
  induction vs generalizing m a with
  | nil => rfl
  | cons v vs ih =>
    simp only [List.length_cons] at hi
    rw [Memory.writeRun, ih _ _ (by omega), Memory.read_write_other _ _ (by omega)]

/-- What a run of stores leaves at an index inside it. -/
theorem Memory.read_writeRun_inside {m : Memory w} (h : m.wf) (a : Nat) (vs : List (BitVec w)) {j : Nat}
    (hj : j < vs.length) : (m.writeRun a vs).read (a + j) = vs[j] := by
  induction vs generalizing m a j with
  | nil => simp at hj
  | cons v vs ih =>
    cases j with
    | zero =>
      rw [Memory.writeRun, Memory.read_writeRun_outside _ _ _ (by omega)]
      exact Memory.read_write_same h a v
    | succ j =>
      have hj' : j < vs.length := by simpa using hj
      rw [Memory.writeRun, show a + (j + 1) = a + 1 + j by omega, ih (Memory.write_wf h a v) (a + 1) hj']
      rfl

/-- What filling a range leaves outside it. -/
theorem Memory.read_fillBelow_outside (m : Memory w) (f : Nat → BitVec w) (n : Nat) {i : Nat} (hi : n ≤ i) :
    (m.fillBelow f n).read i = m.read i := by
  induction n with
  | zero => rfl
  | succ n ih => rw [Memory.fillBelow, Memory.read_write_other _ _ (by omega), ih (by omega)]

/-- What filling a range leaves inside it. -/
theorem Memory.read_fillBelow_inside {m : Memory w} (h : m.wf) (f : Nat → BitVec w) (n : Nat) {i : Nat} (hi : i < n) :
    (m.fillBelow f n).read i = f i := by
  induction n with
  | zero => omega
  | succ n ih =>
    rw [Memory.fillBelow]
    by_cases hin : i = n
    · subst hin; exact Memory.read_write_same (Memory.fillBelow_wf h f i) i _
    · rw [Memory.read_write_other _ _ hin, ih (by omega)]

/-- What putting contents back leaves at an index that is not in the list. -/
theorem Memory.read_restore_outside (old m : Memory w) {as : List Nat} {i : Nat} (hi : i ∉ as) :
    (Memory.restore old m as).read i = m.read i := by
  induction as generalizing m with
  | nil => rfl
  | cons a as ih =>
    simp only [List.mem_cons, not_or] at hi
    rw [Memory.restore, ih _ hi.2, Memory.read_write_other _ _ hi.1]

/-- What putting contents back leaves at an index of the list. -/
theorem Memory.read_restore_inside (old : Memory w) {m : Memory w} (h : m.wf) {as : List Nat} {i : Nat} (hi : i ∈ as) :
    (Memory.restore old m as).read i = old.read i := by
  induction as generalizing m with
  | nil => simp at hi
  | cons a as ih =>
    rw [Memory.restore]
    by_cases hin : i ∈ as
    · exact ih (Memory.write_wf h a _) hin
    · obtain rfl : i = a := by simpa [hin] using hi
      rw [Memory.read_restore_outside _ _ hin, Memory.read_write_same h]

/-- Cells listed below a bound stay below it under a write below it. -/
theorem Memory.write_below {m : Memory w} {n a : Nat} (h : ∀ c ∈ m, c.1 < n) (ha : a < n) (v : BitVec w) :
    ∀ c ∈ m.write a v, c.1 < n := by
  intro c hc
  rcases Memory.mem_write hc with hc | hc
  · exact h c hc
  · omega

theorem Memory.writeRun_below {m : Memory w} {n a : Nat} (h : ∀ c ∈ m, c.1 < n) (vs : List (BitVec w))
    (ha : a + vs.length ≤ n) : ∀ c ∈ m.writeRun a vs, c.1 < n := by
  induction vs generalizing m a with
  | nil => exact h
  | cons v vs ih =>
    simp only [List.length_cons] at ha
    exact ih (Memory.write_below h (by omega) v) (by omega)

theorem Memory.fillBelow_below {m : Memory w} {n : Nat} (h : ∀ c ∈ m, c.1 < n) (f : Nat → BitVec w) {k : Nat}
    (hk : k ≤ n) : ∀ c ∈ m.fillBelow f k, c.1 < n := by
  induction k with
  | zero => exact h
  | succ k ih => exact Memory.write_below (ih (by omega)) (by omega) _

theorem Memory.restore_below (old : Memory w) {m : Memory w} {n : Nat} (h : ∀ c ∈ m, c.1 < n) {as : List Nat}
    (ha : ∀ a ∈ as, a < n) : ∀ c ∈ Memory.restore old m as, c.1 < n := by
  induction as generalizing m with
  | nil => exact h
  | cons a as ih =>
    exact ih (Memory.write_below h (ha a (by simp)) _) (fun b hb => ha b (by simp [hb]))

/-- Memories in canonical form that read alike at every index are the same list. -/
theorem Memory.ext_read {m n : Memory w} (hm : m.wf) (hn : n.wf) (h : ∀ a, m.read a = n.read a) : m = n := by
  induction m generalizing n with
  | nil =>
    cases n with
    | nil => rfl
    | cons c n =>
      obtain ⟨b, x⟩ := c
      have hx := h b
      rw [Memory.read_cons, if_pos rfl] at hx
      exact absurd hx.symm (Memory.wf_cons.mp hn).2.1
  | cons c m ih =>
    obtain ⟨b, x⟩ := c
    obtain ⟨hb, hx, hm'⟩ := Memory.wf_cons.mp hm
    cases n with
    | nil =>
      have hx' := h b
      rw [Memory.read_cons, if_pos rfl] at hx'
      exact absurd hx' hx
    | cons d n =>
      obtain ⟨b', x'⟩ := d
      obtain ⟨hb', hx', hn'⟩ := Memory.wf_cons.mp hn
      have below : ∀ {k : Memory w} {p q : Nat}, (∀ c ∈ k, p < c.1) → q ≤ p → k.read q = Memory.unlisted w :=
        fun hk hq => Memory.read_below (fun c hc => lt_of_le_of_lt hq (hk c hc))
      have hbb : b = b' := by
        rcases lt_trichotomy b b' with hlt | heq | hlt
        · have := h b
          rw [Memory.read_cons, if_pos rfl, Memory.read_cons, if_neg (by omega), below hb' (by omega)] at this
          exact absurd this hx
        · exact heq
        · have := h b'
          rw [Memory.read_cons, if_neg (by omega), Memory.read_cons, if_pos rfl, below hb (by omega)] at this
          exact absurd this.symm hx'
      subst hbb
      have hxx : x = x' := by simpa [Memory.read_cons] using h b
      subst hxx
      rw [ih hm' hn' (fun a => ?_)]
      by_cases ha : b = a
      · subst ha; rw [below hb le_rfl, below hb' le_rfl]
      · simpa [Memory.read_cons, ha] using h a

end Sys2Proof.Machine
end

