-- ==== Sys2Proof/Laws/PerInstr.lean ====
section
/-!
SUPPORT. The family `Legality`: what each constructor of `Instr` encodes to is illegal (spec/30_encoding.md R64) exactly
when it is the ILLEGAL one.
-/

namespace Sys2Proof.Laws.Legality

/-- The encoding of a well-formed command is illegal exactly when the command is ILLEGAL. -/
def Statement (i : Instr) : Prop :=
  i.wellFormed = true → ((encode i).illegalReason.isSome = true ↔ ∃ c, i = .illegal c)

theorem construct (nullSource : Bool) (len off : Word) : Statement (.construct nullSource len off) := by
  cases nullSource <;> simp [Statement, encode, Command.illegalReason]

theorem read (n : Word) : Statement (.read n) := by simp [Statement, encode, Command.illegalReason]

theorem length : Statement .length := by simp [Statement, encode, Command.illegalReason]

theorem position : Statement .position := by simp [Statement, encode, Command.illegalReason]

theorem rewind : Statement .rewind := by simp [Statement, encode, Command.illegalReason]

theorem setpos (v : Word) : Statement (.setpos v) := by simp [Statement, encode, Command.illegalReason]

theorem write : Statement .write := by simp [Statement, encode, Command.illegalReason]

theorem seek : Statement .seek := by simp [Statement, encode, Command.illegalReason]

theorem setlen : Statement .setlen := by simp [Statement, encode, Command.illegalReason]

theorem peek (r : Reg) : Statement (.peek r) := by
  cases r <;> simp [Statement, encode, Command.illegalReason, Reg.number]

theorem illegal (c : Command) : Statement (.illegal c) := by
  intro h
  simpa [encode, Instr.wellFormed] using h

end Sys2Proof.Laws.Legality
end

