-- ==== Sys2Proof/Laws/Sequencer.lean ====
section
/-!
SUPPORT. What a step can do, said once (spec/30_encoding.md R67, spec/70_reset_and_hazards.md R190, R192, R199), and what a
move of the outside world leaves alone.
-/

namespace Sys2Proof.Machine

/-- An idle block out of reset looks at its command pins (R67). -/
theorem step_idle {s : State} (hr : s.rstN = true) (hi : s.inflight = none) (hp : s.rsp = none) :
    step s = acceptCommand s := by simp [step, clockStep, hr, hi, hp]

theorem acceptCommand_cons {s : State} {c : Command} {cs : List Command} (hc : s.cmds = c :: cs) :
    acceptCommand s = beginCommand { s with cmds := cs } (decode c) := by
  unfold acceptCommand
  rw [hc]

/-- The port a command comes to wait at does not acknowledge (R67). -/
theorem waitsAt_not_acks {s : State} {i : Instr} {d : Nat} {p : Port} (h : waitsAt s i d = some p) : s.acks p = false := by
  unfold waitsAt at h
  split at h
  · next hs => cases h; simp_all [State.acks]
  · split at h
    · next ho => cases h; simp_all [State.acks]
    · cases h

/-- With its ports answering, a command waits nowhere (R199). -/
theorem waitsAt_acks {s : State} (hs : s.srcAck = true) (ho : s.outAck = true) (i : Instr) (d : Nat) :
    waitsAt s i d = none := by simp [waitsAt, hs, ho]

/-- Only a CONSTRUCT with a text to read, and a READ with a quartet still to do, come to wait (R199). -/
theorem waitsAt_fits {s : State} {i : Instr} {d : Nat} {p : Port} (h : waitsAt s i d = some p) :
    Flight.Fits ⟨i, p, d⟩ s.regs := by
  unfold waitsAt at h
  cases i with
  | construct z len off =>
    simp only [needsOutput, Bool.and_false, Bool.false_eq_true, if_false] at h
    split at h
    · next hs => cases h; simp_all [needsSource, Flight.Fits]
    · cases h
  | read n =>
    have hq := runOf_quartets s n
    have hd : s.regs.valid = true ∧ d < (s.runOf n).quartetsRead := by
      split at h
      · next hs =>
        simp only [needsSource, Bool.and_eq_true, decide_eq_true_eq] at hs
        exact ⟨hs.2.1.1, hs.2.2⟩
      · split at h
        · next ho =>
          simp only [needsOutput, Bool.and_eq_true, decide_eq_true_eq] at ho
          exact ⟨ho.2.1.1, by omega⟩
        · cases h
    exact ⟨hd.1, by simp only; omega⟩
  | _ => simp [needsSource, needsOutput] at h

/-- The nine ways a step goes. -/
theorem step_cases (s : State) :
    (s.rstN = false ∧ step s = .next s.enterReset.hostMove) ∨
    (s.rstN = true ∧ ∃ f, s.inflight = some f ∧ s.acks f.hold = false ∧ step s = .next s.hostMove) ∨
    (s.rstN = true ∧ ∃ f p, s.inflight = some f ∧ s.acks f.hold = true ∧ waitsAt s f.cmd f.doneNow = some p ∧
      step s = .next { s with inflight := some ⟨f.cmd, p, f.doneNow⟩ }) ∨
    (s.rstN = true ∧ ∃ f, s.inflight = some f ∧ s.acks f.hold = true ∧ waitsAt s f.cmd f.doneNow = none ∧
      step s = settleFlight s (exec f.cmd { s with inflight := none })) ∨
    (s.rstN = true ∧ s.inflight = none ∧ s.rsp.isSome = true ∧ s.rspReady = true ∧ step s = .next { s with rsp := none }) ∨
    (s.rstN = true ∧ s.inflight = none ∧ s.rsp.isSome = true ∧ s.rspReady = false ∧ step s = .next s.hostMove) ∨
    (s.rstN = true ∧ s.inflight = none ∧ s.rsp = none ∧ s.cmds = [] ∧ step s = .next s.hostMove) ∨
    (s.rstN = true ∧ s.inflight = none ∧ s.rsp = none ∧ ∃ c cs p, s.cmds = c :: cs ∧
      waitsAt { s with cmds := cs } (decode c) 0 = some p ∧
      step s = .next { s with cmds := cs, inflight := some ⟨decode c, p, 0⟩ }) ∨
    (s.rstN = true ∧ s.inflight = none ∧ s.rsp = none ∧ ∃ c cs, s.cmds = c :: cs ∧
      waitsAt { s with cmds := cs } (decode c) 0 = none ∧ step s = exec (decode c) { s with cmds := cs }) := by
  rcases Bool.eq_false_or_eq_true s.rstN with hr | hr
  · refine .inr ?_
    rcases Option.eq_none_or_eq_some s.inflight with hi | ⟨f, hi⟩
    · refine .inr (.inr (.inr ?_))
      rcases Option.eq_none_or_eq_some s.rsp with hp | ⟨r, hp⟩
      · refine .inr (.inr ?_)
        rcases (show s.cmds = [] ∨ ∃ c cs, s.cmds = c :: cs by cases s.cmds <;> simp) with hc | ⟨c, cs, hc⟩
        · exact .inl ⟨hr, hi, hp, hc, by rw [step_idle hr hi hp, acceptCommand, hc]⟩
        · refine .inr ?_
          have hs := step_idle hr hi hp
          rw [acceptCommand_cons hc, beginCommand] at hs
          rcases Option.eq_none_or_eq_some (waitsAt { s with cmds := cs } (decode c) 0) with hw | ⟨p, hw⟩
          · exact .inr ⟨hr, hi, hp, c, cs, hc, hw, by rw [hs, hw]⟩
          · exact .inl ⟨hr, hi, hp, c, cs, p, hc, hw, by rw [hs, hw]⟩
      · have hs : step s = offerResponse s := by simp [step, clockStep, hr, hi, hp]
        have hp' : s.rsp.isSome = true := by simp [hp]
        rcases Bool.eq_false_or_eq_true s.rspReady with hy | hy
        · exact .inl ⟨hr, hi, hp', hy, by rw [hs, offerResponse, if_pos hy]⟩
        · exact .inr (.inl ⟨hr, hi, hp', hy, by rw [hs, offerResponse, if_neg (Bool.eq_false_iff.mp hy)]⟩)
    · have hs : step s = continueCommand s f := by simp [step, clockStep, hr, hi]
      rcases Bool.eq_false_or_eq_true (s.acks f.hold) with ha | ha
      · refine .inr ?_
        rw [continueCommand, if_pos ha, resumeCommand] at hs
        rcases Option.eq_none_or_eq_some (waitsAt s f.cmd f.doneNow) with hw | ⟨p, hw⟩
        · exact .inr (.inl ⟨hr, f, hi, ha, hw, by rw [hs, hw]⟩)
        · exact .inl ⟨hr, f, p, hi, ha, hw, by rw [hs, hw]⟩
      · exact .inl ⟨hr, f, hi, ha, by rw [hs, continueCommand, if_neg (Bool.eq_false_iff.mp ha)]⟩
  · exact .inl ⟨hr, by simp [step, clockStep, hr]⟩

/-- A move of the outside world writes no register, offers and takes no response, and starts and ends no command
(R20, R67). -/
theorem hostMove_fixed (s : State) :
    s.hostMove.regs = s.regs ∧ s.hostMove.rsp = s.rsp ∧ s.hostMove.inflight = s.inflight := by
  unfold State.hostMove
  split
  · exact ⟨rfl, rfl, rfl⟩
  · next x xs hx =>
    cases x with
    | outWrite i b =>
      simp only [State.applyInput, State.hostOutWrite]
      split <;> exact ⟨rfl, rfl, rfl⟩
    | offer c => exact ⟨rfl, rfl, rfl⟩
    | setRspReady b => exact ⟨rfl, rfl, rfl⟩
    | setRstN b => exact ⟨rfl, rfl, rfl⟩
    | setSrcAck b => exact ⟨rfl, rfl, rfl⟩
    | setOutAck b => exact ⟨rfl, rfl, rfl⟩
    | srcWrite i c => exact ⟨rfl, rfl, rfl⟩

/-- A host write to OUT stores its byte, wherever it falls (R42, R196). -/
@[simp] theorem hostOutWrite_out (s : State) (i : Nat) (b : Byte) : (s.hostOutWrite i b).out = s.out.write i b := by
  unfold State.hostOutWrite
  split <;> rfl

/-- The buffer of a READ in flight (R196). -/
theorem inFlightBuffer_read {s : State} {f : Flight} {n : Word} (h : s.inflight = some f) (hc : f.cmd = .read n) (i : Nat) :
    s.inFlightBuffer i = decide (i < n.toNat) := by simp [State.inFlightBuffer, h, hc]

/-- The text of a CONSTRUCT in flight (R41). -/
theorem inFlightText_construct {s : State} {f : Flight} {len off : Word} (h : s.inflight = some f)
    (hc : f.cmd = .construct false len off) (i : Nat) : s.inFlightText i = decide (i < len.toNat) := by
  simp [State.inFlightText, h, hc]

/-- Only a CONSTRUCT in flight has a text of its own (R41). -/
theorem inFlightText_true {s : State} {i : Nat} (h : s.inFlightText i = true) :
    ∃ f len off, s.inflight = some f ∧ f.cmd = .construct false len off ∧ i < len.toNat := by
  unfold State.inFlightText at h
  split at h
  · next z len off hm =>
    obtain ⟨f, hf, hc⟩ := Option.map_eq_some_iff.mp hm
    simp only [Bool.and_eq_true, Bool.not_eq_true', decide_eq_true_eq] at h
    exact ⟨f, len, off, hf, by rw [hc, h.1], h.2⟩
  all_goals simp at h

/-- `src_req` with a command in flight (R60, R67). -/
theorem srcReq_inflight {s : State} {f : Flight} (h : s.inflight = some f) :
    s.srcReq = (s.rstN && decide (f.hold = .src)) := by simp [State.srcReq, h]

/-- `out_we` with a command in flight (R60, R67). -/
theorem outWe_inflight {s : State} {f : Flight} (h : s.inflight = some f) :
    s.outWe = (s.rstN && decide (f.hold = .out)) := by simp [State.outWe, h]

@[simp] theorem State.acks_src (s : State) : s.acks .src = s.srcAck := rfl
@[simp] theorem State.acks_out (s : State) : s.acks .out = s.outAck := rfl
@[simp] theorem Flight.doneNow_src (i : Instr) (d : Nat) : Flight.doneNow ⟨i, .src, d⟩ = d := rfl
@[simp] theorem Flight.doneNow_out (i : Instr) (d : Nat) : Flight.doneNow ⟨i, .out, d⟩ = d + 1 := rfl

/-- With nothing left for the outside world to do, its move changes nothing. -/
theorem hostMove_nil {s : State} (h : s.inputs = []) : s.hostMove = s := by
  unfold State.hostMove
  simp [h]

/-- The command queue under a move of the outside world: unchanged, or one more command at its end. -/
theorem hostMove_cmds (s : State) : s.hostMove.cmds = s.cmds ∨ ∃ c, s.hostMove.cmds = s.cmds ++ [c] := by
  unfold State.hostMove
  split
  · exact .inl rfl
  · next x xs hx =>
    cases x with
    | offer c => exact .inr ⟨c, rfl⟩
    | outWrite i b =>
      simp only [State.applyInput, State.hostOutWrite]
      split <;> exact .inl rfl
    | setRspReady b => exact .inl rfl
    | setRstN b => exact .inl rfl
    | setSrcAck b => exact .inl rfl
    | setOutAck b => exact .inl rfl
    | srcWrite i c => exact .inl rfl

/-- A completed flight answers a next state exactly when the command did (R196). -/
theorem settleFlight_next {s t : State} {o : Host.Outcome State Fault Refusal} (h : settleFlight s o = .next t) :
    ∃ u, o = .next u ∧
      t = { u with
        out := Memory.restore s.out u.out s.keptIndexes
        keptIndexes := []
        flightDisturbed := false
        draws := if s.flightDisturbed then u.draws + 1 else u.draws } := by
  cases o with
  | next u => exact ⟨u, rfl, by simpa [settleFlight] using h.symm⟩
  | fault f => simp [settleFlight] at h
  | refused r => simp [settleFlight] at h

/-- A step that ends a flight is the command itself, settled (R67, R51). -/
theorem step_lands {s t : State} {f : Flight} (hr : s.rstN = true) (hf : s.inflight = some f) (h : step s = .next t)
    (ht : t.inflight = none) : ∃ u, exec f.cmd { s with inflight := none } = .next u ∧
      t = { u with
        out := Memory.restore s.out u.out s.keptIndexes
        keptIndexes := []
        flightDisturbed := false
        draws := if s.flightDisturbed then u.draws + 1 else u.draws } := by
  have hm := (hostMove_fixed s).2.2
  rcases step_cases s with ⟨hr', -⟩ | ⟨-, g, hg, -, hs⟩ | ⟨-, g, p, hg, -, -, hs⟩ | ⟨-, g, hg, -, -, hs⟩ | ⟨-, hi, -⟩ |
    ⟨-, hi, -⟩ | ⟨-, hi, -⟩ | ⟨-, hi, -⟩ | ⟨-, hi, -⟩
  · simp [hr] at hr'
  · obtain rfl : s.hostMove = t := by simpa [hs] using h
    simp [hm, hf] at ht
  · rw [hs] at h
    cases h
    cases ht
  · obtain rfl : g = f := by simpa [hf] using hg.symm
    exact settleFlight_next (hs ▸ h)
  all_goals simp [hf] at hi

end Sys2Proof.Machine
end

