-- ==== Sys2Proof/Tests/Slice0.lean ====
section
/-!
SUPPORT. The model's own tests, each expected value taken from spec/ (the source is named beside it), and for every
statement with hypotheses a witness: a concrete state and operands that meet all of them.
-/

namespace Sys2Proof.Tests

open Sys2Proof Sys2Proof.Machine

/-! ## Small states -/

/-- The reset state with a source text in SRC. -/
def withText (cs : List CharCode) : State := { State.reset with src := Memory.writeRun [] 0 cs }

/-- Registers 1 to 6 of a constructed block, in spec/95's order, and LAST_ERR. -/
def regsOf (srcLen init cur pos len : Nat) (pad : BitVec 2) (err : StatusCode) : Regs :=
  { valid := true, lastErr := err, srcLen := Word.ofNat srcLen, initialCursor := Word.ofNat init,
    sourceCursor := Word.ofNat cur, decodedPosition := Word.ofNat pos, decodedLength := Word.ofNat len,
    paddingCount := pad }

/-- "MTIzNDU2Nzg=" (95 L1-1). -/
def digits : List CharCode :=
  [0x4D#16, 0x54#16, 0x49#16, 0x7A#16, 0x4E#16, 0x44#16, 0x55#16, 0x32#16, 0x4E#16, 0x7A#16, 0x67#16, 0x3D#16]

/-- The context of "MTIzNDU2Nzg=" after its CONSTRUCT (95 L1-1 step 1). -/
def fresh : State := { withText digits with regs := regsOf 12 0 0 0 8 1#2 .ok }

/-- The same after one READ 3 (95 L1-1 step 2). -/
def middle : State := { withText digits with regs := regsOf 12 0 4 3 8 1#2 .ok }

/-- The same after two (95 L1-1 step 3). -/
def late : State := { withText digits with regs := regsOf 12 0 8 6 8 1#2 .ok }

/-- The same at end-of-stream (95 L1-1 step 4). -/
def finished : State := { withText digits with regs := regsOf 12 0 12 8 8 1#2 .ok }

/-- "QUJD" U+0151 "UJD", constructed (95 R-20). -/
def spoiled : State :=
  { withText [0x51#16, 0x55#16, 0x4A#16, 0x44#16, 0x0151#16, 0x55#16, 0x4A#16, 0x44#16] with
    regs := regsOf 8 0 0 0 6 0#2 .ok }

/-- "TWFuTWFu" constructed (95 L2-5). -/
def man : State :=
  { withText [0x54#16, 0x57#16, 0x46#16, 0x75#16, 0x54#16, 0x57#16, 0x46#16, 0x75#16] with
    regs := regsOf 8 0 0 0 6 0#2 .ok }

/-- The registers, the response and OUT of the next state. -/
def report : Host.Outcome State Fault Refusal → Option (Regs × Option Response × Memory 8)
  | .next t => some (t.regs, t.rsp, t.out)
  | .fault _ => none
  | .refused _ => none

/-! ## WellFormed: the check refuses an ill-formed term, for each of its reasons -/

/-- `illegal` must carry an illegal transaction: a READ, CONSTRUCT.NULL and PEEK 7 are none (R64). -/
theorem test_illformed_legal_read : (Instr.illegal ⟨0x00000002#32, 3#32, 0#32⟩).wellFormed = false := by decide
theorem test_illformed_null_construct : (Instr.illegal ⟨0x00000011#32, 0#32, 0#32⟩).wellFormed = false := by decide
theorem test_illformed_peek_seven : (Instr.illegal ⟨0x0000000A#32, 7#32, 0#32⟩).wellFormed = false := by decide

/-- R64: each reason, at its boundary (95 I-9, I-7, I-2, I-11). -/
theorem test_illegal_reasons :
    (Command.illegalReason ⟨0x00000022#32, 0#32, 0#32⟩ = some .reservedBits) ∧
    (Command.illegalReason ⟨0x00000012#32, 0#32, 0#32⟩ = some .misplacedNull) ∧
    (Command.illegalReason ⟨0x0000000B#32, 0#32, 0#32⟩ = some .reservedOpcode) ∧
    (Command.illegalReason ⟨0x0000000A#32, 8#32, 0#32⟩ = some .badRegister) := by decide

/-! ## Decode: words written out from the opcode map (R63), with the arguments of R62 -/

theorem test_decode_construct : decode ⟨0b00000000000000000000000000000001#32, 35#32, 23#32⟩ = .construct false 35#32 23#32 := by
  decide
theorem test_decode_construct_null : decode ⟨0b00000000000000000000000000010001#32, 0#32, 0#32⟩ = .construct true 0#32 0#32 := by
  decide
theorem test_decode_read : decode ⟨0b00000000000000000000000000000010#32, 3#32, 9#32⟩ = .read 3#32 := by decide
theorem test_decode_length : decode ⟨0b00000000000000000000000000000011#32, 1#32, 2#32⟩ = .length := by decide
theorem test_decode_position : decode ⟨0b00000000000000000000000000000100#32, 1#32, 2#32⟩ = .position := by decide
theorem test_decode_rewind : decode ⟨0b00000000000000000000000000000101#32, 1#32, 2#32⟩ = .rewind := by decide
theorem test_decode_setpos : decode ⟨0b00000000000000000000000000000110#32, 6#32, 2#32⟩ = .setpos 6#32 := by decide
theorem test_decode_write : decode ⟨0b00000000000000000000000000000111#32, 1#32, 2#32⟩ = .write := by decide
theorem test_decode_seek : decode ⟨0b00000000000000000000000000001000#32, 1#32, 2#32⟩ = .seek := by decide
theorem test_decode_setlen : decode ⟨0b00000000000000000000000000001001#32, 1#32, 2#32⟩ = .setlen := by decide
theorem test_decode_peek : decode ⟨0b00000000000000000000000000001010#32, 3#32, 2#32⟩ = .peek .sourceCursor := by decide

/-- R20: PEEK's register numbers, in order. -/
theorem test_decode_registers :
    (List.range 9).map (fun n => decode ⟨0x0000000A#32, Word.ofNat n, 0#32⟩) =
      [.peek .status, .peek .srcLen, .peek .initialCursor, .peek .sourceCursor, .peek .decodedPosition,
        .peek .decodedLength, .peek .paddingCount, .peek .config, .illegal ⟨0x0000000A#32, 8#32, 0#32⟩] := by decide

/-- 95 I-1 to I-12: every illegal word of the spec's list decodes to ILLEGAL, carrying itself. -/
theorem test_decode_illegal :
    ∀ c ∈ ([⟨0x00000000#32, 0#32, 0#32⟩, ⟨0x0000000B#32, 0#32, 0#32⟩, ⟨0x0000000C#32, 0#32, 0#32⟩, ⟨0x0000000D#32, 0#32, 0#32⟩,
        ⟨0x0000000E#32, 0#32, 0#32⟩, ⟨0x0000000F#32, 0#32, 0#32⟩, ⟨0x00000012#32, 0#32, 0#32⟩, ⟨0x0000001A#32, 0#32, 0#32⟩,
        ⟨0x00000022#32, 0#32, 0#32⟩, ⟨0x80000001#32, 0#32, 0#32⟩, ⟨0x0000000A#32, 8#32, 0#32⟩,
        ⟨0x0000000A#32, 0xFFFFFFFF#32, 0#32⟩] : List Command), decode c = .illegal c := by decide

/-- The opcode table's numbering: ARG0 is bits 63:32, ARG1 bits 95:64; bits from `nbits` up are 0. -/
theorem test_table_word :
    decodeTableWord 96 0x000000170000002300000001 = some (.construct false 0x23#32 0x17#32) ∧
    decodeTableWord 32 0x000000170000002300000001 = some (.construct false 0#32 0#32) := by decide

/-- R69: the assembler's forms. -/
theorem test_assemble :
    [AsmLine.construct 8#32 none, .construct 35#32 (some 23#32), .constructNull, .read 9#32, .setpos 5#32,
      .seek none (some 2#32), .peek 7#32, .cmd 0xF#32 0#32 0#32].map assemble =
    [⟨0x1#32, 8#32, 0#32⟩, ⟨0x1#32, 35#32, 23#32⟩, ⟨0x11#32, 0#32, 0#32⟩, ⟨0x2#32, 9#32, 0#32⟩, ⟨0x6#32, 5#32, 0#32⟩,
      ⟨0x8#32, 0#32, 2#32⟩, ⟨0xA#32, 7#32, 0#32⟩, ⟨0xF#32, 0#32, 0#32⟩] := by decide

/-- R69: a word no row matches prints as `.cmd`; R70: SETPOS 0 does not print as REWIND. -/
theorem test_disassemble :
    disassemble ⟨0x12#32, 4#32, 5#32⟩ = .cmd 0x12#32 4#32 5#32 ∧ disassemble ⟨0x6#32, 0#32, 0#32⟩ = .setpos 0#32 := by decide

/-! ## The datapath -/

/-- One row of the table of R101, by its high nibble: the value, none for an invalid entry. -/
def lutRow (hi : Nat) : List (Option Nat) :=
  (List.range 16).map (fun lo =>
    let e := lut (BitVec.ofNat 8 (16 * hi + lo))
    if e.valid then some e.value.toNat else none)

theorem test_lut_row2 : lutRow 2 =
    [none, none, none, none, none, none, none, none, none, none, none, some 62, none, none, none, some 63] := by decide
theorem test_lut_row3 : lutRow 3 = [some 52, some 53, some 54, some 55, some 56, some 57, some 58, some 59, some 60, some 61,
    none, none, none, none, none, none] := by decide
theorem test_lut_row4 : lutRow 4 = [none, some 0, some 1, some 2, some 3, some 4, some 5, some 6, some 7, some 8, some 9,
    some 10, some 11, some 12, some 13, some 14] := by decide
theorem test_lut_row5 : lutRow 5 = [some 15, some 16, some 17, some 18, some 19, some 20, some 21, some 22, some 23, some 24,
    some 25, none, none, none, none, none] := by decide
theorem test_lut_row6 : lutRow 6 = [none, some 26, some 27, some 28, some 29, some 30, some 31, some 32, some 33, some 34,
    some 35, some 36, some 37, some 38, some 39, some 40] := by decide
theorem test_lut_row7 : lutRow 7 = [some 41, some 42, some 43, some 44, some 45, some 46, some 47, some 48, some 49, some 50,
    some 51, none, none, none, none, none] := by decide
theorem test_lut_other_rows : ∀ hi ∈ [0, 1, 8, 9, 10, 11, 12, 13, 14, 15], ∀ e ∈ lutRow hi, e = none := by decide

/-- R103, 95 L2-1: entry words. -/
theorem test_lut_words :
    ([0x2B#8, 0x2F#8, 0x30#8, 0x41#8, 0x5A#8, 0x7A#8, 0x3D#8].map (fun c => (lut c).word)) =
      [0x7E#7, 0x7F#7, 0x74#7, 0x40#7, 0x59#7, 0x73#7, 0x00#7] := by decide

/-- 95 L2-2: the packer. -/
theorem test_pack :
    pack 19#6 22#6 5#6 46#6 = (0x4D#8, 0x61#8, 0x6E#8) ∧ pack 63#6 63#6 63#6 63#6 = (0xFF#8, 0xFF#8, 0xFF#8) ∧
    pack 62#6 62#6 62#6 62#6 = (0xFB#8, 0xEF#8, 0xBE#8) ∧ pack 42#6 21#6 42#6 21#6 = (0xA9#8, 0x5A#8, 0x95#8) ∧
    pack 1#6 2#6 3#6 4#6 = (0x04#8, 0x20#8, 0xC4#8) ∧ pack 0#6 63#6 0#6 63#6 = (0x03#8, 0xF0#8, 0x3F#8) ∧
    pack 63#6 0#6 63#6 0#6 = (0xFC#8, 0x0F#8, 0xC0#8) := by decide

/-- 95 P4, the legacy contrast of "AB=C": byte 0 exact, bytes 1 and 2 free. -/
theorem test_legacy (g : Nat → Byte) :
    quartet false g (fun i => [0x41#16, 0x42#16, 0x3D#16, 0x43#16].getD i 0#16) 4 0 3 = .good [0x00#8, g 1, g 2] := rfl

/-! ## The memories -/

/-- Storing what an unlisted index reads as removes the cell; storing keeps the indexes rising. -/
theorem test_memory_canonical :
    Memory.write (Memory.write (Memory.write ([] : Memory 8) 5 1#8) 2 7#8) 5 0#8 = [(2, 7#8)] ∧
    Memory.read (Memory.write [(2, 7#8)] 4294967295 9#8) 4294967295 = 9#8 := by decide

/-! ## The commands: one step each -/

/-- 95 P2 step 1: "data:text/plain;base64,\t SGVsbG8=\r\n" from offset 23. -/
theorem test_construct_offset :
    report (exec (.construct false 35#32 23#32) (withText
      ([0x64#16, 0x61#16, 0x74#16, 0x61#16, 0x3A#16, 0x74#16, 0x65#16, 0x78#16, 0x74#16, 0x2F#16, 0x70#16, 0x6C#16,
        0x61#16, 0x69#16, 0x6E#16, 0x3B#16, 0x62#16, 0x61#16, 0x73#16, 0x65#16, 0x36#16, 0x34#16, 0x2C#16] ++
      [0x09#16, 0x20#16, 0x53#16, 0x47#16, 0x56#16, 0x73#16, 0x62#16, 0x47#16, 0x38#16, 0x3D#16, 0x0D#16, 0x0A#16]))) =
    some (regsOf 35 25 25 0 5 1#2 .ok, some ⟨.ok, 5#32⟩, []) := by decide

/-- 95 C-7: "QQ=" U+013D. The padding test is on the whole code. -/
theorem test_construct_wide_padding :
    report (exec (.construct false 4#32 0#32) (withText [0x51#16, 0x51#16, 0x3D#16, 0x013D#16])) =
    some (regsOf 4 0 0 0 3 0#2 .ok, some ⟨.ok, 3#32⟩, []) := by decide

/-- 95 L1-1 step 4: the final quartet "Nzg=" gives two bytes. -/
theorem test_read_final :
    report (exec (.read 3#32) late) =
    some (regsOf 12 0 12 8 8 1#2 .ok, some ⟨.ok, 2#32⟩, [(0, 0x37#8), (1, 0x38#8)]) := by decide

/-- 95 R-20: the whole quartet before the bad one is written although nothing moves. -/
theorem test_read_bad_character :
    report (exec (.read 6#32) spoiled) =
    some (regsOf 8 0 0 0 6 0#2 .malformedCharacter, some ⟨.malformedCharacter, 4#32⟩,
      [(0, 0x41#8), (1, 0x42#8), (2, 0x43#8)]) := by decide

/-- 95 P1 step 3. -/
theorem test_length : report (exec .length fresh) = some (regsOf 12 0 0 0 8 1#2 .ok, some ⟨.ok, 8#32⟩, []) := by decide
/-- 95 P5 step 1. -/
theorem test_length_unconstructed : report (exec .length State.reset) =
    some ({ Regs.reset with lastErr := .notConstructed }, some ⟨.notConstructed, 0#32⟩, []) := by decide
/-- 95 P1 step 8. -/
theorem test_position : report (exec .position finished) = some (regsOf 12 0 12 8 8 1#2 .ok, some ⟨.ok, 8#32⟩, []) := by
  decide
/-- 95 P1 step 9. -/
theorem test_rewind : report (exec .rewind finished) = some (regsOf 12 0 0 0 8 1#2 .ok, some ⟨.ok, 0#32⟩, []) := by decide
/-- 95 Q-5. -/
theorem test_setpos_zero : report (exec (.setpos 0#32) middle) = some (regsOf 12 0 0 0 8 1#2 .ok, some ⟨.ok, 0#32⟩, []) := by
  decide
/-- 95 Q-11: SETPOS of LENGTH itself is unsupported. -/
theorem test_setpos_length : report (exec (.setpos 6#32) man) =
    some (regsOf 8 0 0 0 6 0#2 .unsupported, some ⟨.unsupported, 0#32⟩, []) := by decide
/-- 95 U-4. -/
theorem test_write : report (exec .write man) =
    some (regsOf 8 0 0 0 6 0#2 .unsupported, some ⟨.unsupported, 0#32⟩, []) := by decide
/-- 95 U-2. -/
theorem test_seek_unconstructed : report (exec .seek State.reset) =
    some ({ Regs.reset with lastErr := .notConstructed }, some ⟨.notConstructed, 0#32⟩, []) := by decide
/-- 95 U-6. -/
theorem test_setlen : report (exec .setlen man) =
    some (regsOf 8 0 0 0 6 0#2 .unsupported, some ⟨.unsupported, 0#32⟩, []) := by decide
/-- 95 Q-17: STATUS as it stood before PEEK's own write. -/
theorem test_peek_status : report (exec (.peek .status) { man with regs := regsOf 8 0 0 0 6 0#2 .illegalCommand }) =
    some (regsOf 8 0 0 0 6 0#2 .ok, some ⟨.ok, 0x81#32⟩, []) := by decide
/-- 95 L2-5: PEEK 7 after reset. -/
theorem test_peek_config : report (exec (.peek .config) State.reset) =
    some (Regs.reset, some ⟨.ok, 0x00201001#32⟩, []) := by decide
/-- 95 L2-7: an illegal command on the reset state. -/
theorem test_illegal : report (exec (.illegal ⟨0xF#32, 0#32, 0#32⟩) State.reset) =
    some ({ Regs.reset with lastErr := .illegalCommand }, some ⟨.illegalCommand, 0#32⟩, []) := by decide

/-- 95 L1-1 step 2, as a step of the machine: the word placed at the command pins is accepted, run and answered. -/
theorem test_step_read : report (step (fresh.withFetchWord 96 0x000000000000000300000002)) =
    some (regsOf 12 0 4 3 8 1#2 .ok, some ⟨.ok, 3#32⟩, [(0, 0x31#8), (1, 0x32#8), (2, 0x33#8)]) := by decide

/-- R190: a clock edge in reset clears the registers. -/
theorem test_step_reset : report (step { middle with rstN := false }) = some (Regs.reset, none, []) := by decide

/-- A READ of 3 bytes in flight that holds an OUT access, the host's byte at index 1 to survive it. -/
def flying : State :=
  { fresh with inflight := some ⟨.read 3#32, .out, 0⟩, outAck := false, out := [(1, 0x55#8)], keptIndexes := [1] }

/-- R67: a READ waits on OUT, `src_ack` falls, the OUT access is still held; `out_ack` rises, and the
READ, with its one quartet read and written, completes although SRC does not answer. -/
theorem test_out_access_is_held :
    (match step { flying with inputs := [.setSrcAck false, .setOutAck true] } with
      | .next t => some (t.srcReq, t.outWe, t.srcAck)
      | _ => none) = some (false, true, false) ∧
    (match step { flying with srcAck := false, outAck := true } with
      | .next t => some (t.rsp, t.inflight)
      | _ => none) = some (some ⟨.ok, 3#32⟩, none) := by decide


/-! ## Witnesses -/

/-- An idle state whose parts are as they should be meets the invariant. -/
theorem idle_inv {s : State} (hr : s.regs.Inv) (hs : s.src.wf) (hsw : s.src.Within) (ho : s.out.wf) (how : s.out.Within)
    (hp : s.rsp = none) (hi : s.inflight = none) (hd : s.srcDisturbed = false) (hf : s.flightDisturbed = false)
    (hk : s.keptIndexes = []) : s.Inv :=
  ⟨hr, hs, hsw, ho, how, by simp [hp], by simp [hi], by simp [hi], by simp [hd], fun _ => ⟨hf, hk⟩, by simp [hk]⟩

theorem fresh_context : fresh.regs.ContextInv := ⟨by decide, by decide, by decide, by decide, by decide, by decide⟩
theorem middle_context : middle.regs.ContextInv := ⟨by decide, by decide, by decide, by decide, by decide, by decide⟩
theorem finished_context : finished.regs.ContextInv := ⟨by decide, by decide, by decide, by decide, by decide, by decide⟩
theorem spoiled_context : spoiled.regs.ContextInv := ⟨by decide, by decide, by decide, by decide, by decide, by decide⟩

theorem reset_inv : State.reset.Inv :=
  idle_inv (by simp [Regs.Inv, State.reset, Regs.reset]) (by decide) (by intro c h; cases h) (by decide) (by intro c h; cases h) rfl rfl rfl rfl rfl
theorem fresh_inv : fresh.Inv :=
  idle_inv fresh_context (by decide) (by unfold Memory.Within; decide) (by decide) (by intro c h; cases h) rfl rfl rfl rfl rfl
theorem middle_inv : middle.Inv :=
  idle_inv middle_context (by decide) (by unfold Memory.Within; decide) (by decide) (by intro c h; cases h) rfl rfl rfl rfl rfl
theorem late_inv : late.Inv :=
  idle_inv (show late.regs.ContextInv from ⟨by decide, by decide, by decide, by decide, by decide, by decide⟩)
    (by decide) (by unfold Memory.Within; decide) (by decide) (by intro c h; cases h) rfl rfl rfl rfl rfl
theorem finished_inv : finished.Inv :=
  idle_inv finished_context (by decide) (by unfold Memory.Within; decide) (by decide) (by intro c h; cases h) rfl rfl rfl rfl rfl
theorem spoiled_inv : spoiled.Inv :=
  idle_inv spoiled_context (by decide) (by unfold Memory.Within; decide) (by decide) (by intro c h; cases h) rfl rfl rfl rfl rfl

theorem flying_inv : flying.Inv where
  regs := fresh_context
  srcForm := fresh_inv.srcForm
  srcWithin := fresh_inv.srcWithin
  outForm := by decide
  outWithin := by unfold Memory.Within; decide
  response := by intro r h; cases h
  handshake := fun _ => rfl
  flight := by intro f h; cases h; exact ⟨rfl, by decide⟩
  disturbed := by intro h; cases h
  quiet := by intro h; cases h
  kept := by decide

/-- A CONSTRUCT of the first 4 characters in flight that holds a SRC access, over a context. -/
def building : State := { fresh with inflight := some ⟨.construct false 4#32 0#32, .src, 0⟩, srcAck := false }

theorem building_inv : building.Inv where
  regs := fresh_context
  srcForm := fresh_inv.srcForm
  srcWithin := fresh_inv.srcWithin
  outForm := fresh_inv.outForm
  outWithin := fresh_inv.outWithin
  response := by intro r h; cases h
  handshake := fun _ => rfl
  flight := by intro f h; cases h; exact ⟨rfl, by decide, rfl, rfl⟩
  disturbed := by intro h; cases h
  quiet := by intro h; cases h
  kept := by intro a h; cases h

/-- A READ of 9 bytes in flight over the context of three quartets, `done` of them done, holding an access to a port. -/
def midway (p : Port) (done : Nat) : State := { fresh with inflight := some ⟨.read 9#32, p, done⟩ }

theorem midway_inv (p : Port) {done : Nat} (h : 3 * done < capOf 9#32) : (midway p done).Inv where
  regs := fresh_context
  srcForm := fresh_inv.srcForm
  srcWithin := fresh_inv.srcWithin
  outForm := fresh_inv.outForm
  outWithin := fresh_inv.outWithin
  response := by intro r h; cases h
  handshake := fun _ => rfl
  flight := by intro f hf; cases hf; exact ⟨rfl, h⟩
  disturbed := by intro h; cases h
  quiet := by intro h; cases h
  kept := by intro a h; cases h

/-- The invariant does not look at the acknowledge pins. -/
theorem inv_with_acks {s : State} (h : s.Inv) (a b : Bool) : State.Inv { s with srcAck := a, outAck := b } :=
  ⟨h.regs, h.srcForm, h.srcWithin, h.outForm, h.outWithin, h.response, h.handshake, h.flight, h.disturbed, h.quiet, h.kept⟩

/-- A response offered to a host that is not ready, a command waiting behind it. -/
def answered : State := { middle with rsp := some ⟨.ok, 3#32⟩, rspReady := false, cmds := [⟨0x4#32, 0#32, 0#32⟩] }

theorem answered_inv : answered.Inv where
  regs := middle_context
  srcForm := middle_inv.srcForm
  srcWithin := middle_inv.srcWithin
  outForm := middle_inv.outForm
  outWithin := middle_inv.outWithin
  response := by intro r h; cases h; rfl
  handshake := by intro h; cases h
  flight := by intro i h; cases h
  disturbed := by intro h; cases h
  quiet := fun _ => ⟨rfl, rfl⟩
  kept := by intro a h; cases h

theorem answered_ready_inv : State.Inv { answered with rspReady := true } :=
  ⟨answered_inv.regs, answered_inv.srcForm, answered_inv.srcWithin, answered_inv.outForm, answered_inv.outWithin,
    answered_inv.response, answered_inv.handshake, answered_inv.flight, answered_inv.disturbed, answered_inv.quiet,
    answered_inv.kept⟩

/-- The invariant does not look at the queue of commands. -/
theorem inv_with_cmds {s : State} (h : s.Inv) (cs : List Command) : State.Inv { s with cmds := cs } :=
  ⟨h.regs, h.srcForm, h.srcWithin, h.outForm, h.outWithin, h.response, h.handshake, h.flight, h.disturbed, h.quiet, h.kept⟩

theorem witness_DecodeOfEncodeIsTheCommand :
    (Instr.peek .config).wellFormed = true ∧ (Instr.illegal ⟨0xA#32, 8#32, 0#32⟩).wellFormed = true := by decide

/-- Each row, CONSTRUCT at both values of N, PEEK at both sides of 7, and a word that no row matches. -/
theorem witness_OpcodeMapSelectsTheRow :
    (0x01#32 &&& 0xFFFFFFEF#32 = 0x00000001#32) ∧ (0x11#32 &&& 0xFFFFFFEF#32 = 0x00000001#32) ∧
    (∀ w ∈ [0x2#32, 0x3#32, 0x4#32, 0x5#32, 0x6#32, 0x7#32, 0x8#32, 0x9#32, 0xA#32], w &&& 0xFFFFFFFF#32 = w) ∧
    Reg.number .config = 7#32 ∧ 7 < (8#32).toNat ∧
    (∀ row ∈ [(0xFFFFFFEF#32, 0x00000001#32), (0xFFFFFFFF#32, 0x00000002#32), (0xFFFFFFFF#32, 0x00000003#32),
        (0xFFFFFFFF#32, 0x00000004#32), (0xFFFFFFFF#32, 0x00000005#32), (0xFFFFFFFF#32, 0x00000006#32),
        (0xFFFFFFFF#32, 0x00000007#32), (0xFFFFFFFF#32, 0x00000008#32), (0xFFFFFFFF#32, 0x00000009#32),
        (0xFFFFFFFF#32, 0x0000000A#32)], 0x0000000B#32 &&& row.1 ≠ row.2) :=
  ⟨by decide, by decide, by simp, by decide, by decide, by simp⟩

/-- The two clauses take different words. -/
theorem witness_IgnoredArgumentsHaveNoEffect :
    (∃ w : Word, w = 0x2#32 ∨ w = 0x6#32 ∨ w = 0xA#32) ∧
    (∃ w : Word, w = 0x3#32 ∨ w = 0x4#32 ∨ w = 0x5#32 ∨ w = 0x7#32 ∨ w = 0x8#32 ∨ w = 0x9#32) :=
  ⟨⟨0xA#32, by decide⟩, ⟨0x9#32, by decide⟩⟩

/-- An idle block with a READ at its pins: both ports answering; just OUT, and just SRC. -/
theorem witness_StepRunsTheDecodedCommand :
    (∃ (s : State) (c : Command) (cs : List Command), s.rstN = true ∧ s.inflight = none ∧ s.rsp = none ∧ s.cmds = c :: cs ∧
      s.srcAck = true ∧ s.outAck = true ∧ waitsAt { s with cmds := cs } (decode c) 0 = none) ∧
    ∀ p : Port, ∃ (s : State) (c : Command) (cs : List Command), s.rstN = true ∧ s.inflight = none ∧ s.rsp = none ∧
      s.cmds = c :: cs ∧ waitsAt { s with cmds := cs } (decode c) 0 = some p :=
  ⟨⟨{ fresh with cmds := [⟨0x2#32, 3#32, 0#32⟩] }, _, _, rfl, rfl, rfl, rfl, rfl, rfl, by decide⟩, fun p =>
    match p with
    | .src => ⟨{ fresh with cmds := [⟨0x2#32, 3#32, 0#32⟩], srcAck := false }, _, _, rfl, rfl, rfl, rfl, by decide⟩
    | .out => ⟨{ fresh with cmds := [⟨0x2#32, 3#32, 0#32⟩], outAck := false }, _, _, rfl, rfl, rfl, rfl, by decide⟩⟩

/-- Each clause: a command taken; none taken behind an offered response; a READ in flight; a response kept, and taken. -/
theorem witness_OneResponseForEachCommand :
    (∃ s t : State, s.Inv ∧ step s = .next t ∧ s.cmdReady = true ∧ s.cmds = [⟨0x4#32, 0#32, 0#32⟩]) ∧
    (∃ s t : State, s.Inv ∧ step s = .next t ∧ s.rstN = true ∧ s.cmdReady = false ∧ s.rsp = some ⟨.ok, 3#32⟩ ∧
      s.rspReady = false) ∧
    (∃ s t : State, s.Inv ∧ step s = .next t ∧ s.rstN = true ∧ s.inflight = some ⟨.read 3#32, .out, 0⟩) ∧
    (∃ s t : State, s.Inv ∧ step s = .next t ∧ s.rstN = true ∧ s.rsp = some ⟨.ok, 3#32⟩ ∧ s.rspReady = true) :=
  ⟨⟨{ middle with cmds := [⟨0x4#32, 0#32, 0#32⟩] }, _, inv_with_cmds middle_inv _, rfl, rfl, rfl⟩,
    ⟨answered, _, answered_inv, rfl, rfl, rfl, rfl, rfl⟩,
    ⟨flying, _, flying_inv, rfl, rfl, rfl⟩,
    ⟨{ answered with rspReady := true }, _, answered_ready_inv, rfl, rfl, rfl, rfl⟩⟩

theorem witness_IdleBlockKeepsItsRegisters :
    middle.rstN = true ∧ middle.inflight = none ∧ middle.rsp = none ∧ middle.cmds = [] ∧ middle.inputs = [] := by decide

/-- A command at the pins; a CONSTRUCT and a READ in flight that both ports let complete. Then each way on with one port
alone: SRC answers, and the READ goes on to OUT; OUT answers, and it goes on to SRC, for its last quartet, or, that one
written, completes; and a CONSTRUCT that no port answers. -/
theorem witness_EveryCommandTerminates :
    (∃ (s : State) (c : Command) (cs : List Command), s.Inv ∧ s.rstN = true ∧ s.inflight = none ∧ s.rsp = none ∧
      s.srcAck = true ∧ s.outAck = true ∧ s.cmds = c :: cs) ∧
    (∀ s ∈ [{ building with srcAck := true }, midway .out 1], s.rstN = true ∧ s.srcAck = true ∧ s.outAck = true) ∧
    (State.Inv { building with srcAck := true } ∧ (midway .out 1).Inv) ∧
    (State.acks { midway .src 0 with outAck := false } .src = true ∧
      step { midway .src 0 with outAck := false } =
        .next { midway .src 0 with outAck := false, inflight := some ⟨.read 9#32, .out, 0⟩ }) ∧
    (State.acks { midway .out 1 with srcAck := false } .out = true ∧
      step { midway .out 1 with srcAck := false } =
        .next { midway .out 1 with srcAck := false, inflight := some ⟨.read 9#32, .src, 2⟩ }) ∧
    (State.acks { midway .out 2 with srcAck := false } .out = true ∧
      ∃ t, step { midway .out 2 with srcAck := false } = .next t ∧ t.inflight = none ∧ t.rsp = some ⟨.ok, 8#32⟩) ∧
    (building.Inv ∧ building.acks .src = false ∧ building.inputs = []) :=
  ⟨⟨{ middle with cmds := [⟨0x2#32, 0xFFFFFFFF#32, 0#32⟩] }, _, _, inv_with_cmds middle_inv _, rfl, rfl, rfl, rfl, rfl, rfl⟩,
    by decide, ⟨inv_with_acks building_inv true true, midway_inv .out (by decide)⟩, ⟨rfl, rfl⟩, ⟨rfl, rfl⟩,
    ⟨rfl, _, rfl, rfl, by decide⟩, building_inv, rfl, rfl⟩
/-- A CONSTRUCT that had to wait at SRC completes with its own answer. -/
theorem witness_EveryCommandTerminates_effect :
    State.Inv { building with srcAck := true, outAck := false } ∧
    ∃ t, step { building with srcAck := true, outAck := false } = .next t ∧ t.inflight = none ∧
      t.rsp = some ⟨.ok, 3#32⟩ :=
  ⟨inv_with_acks building_inv true false, _, rfl, rfl, by decide⟩
/-- The invariants of the three states above in which one port alone answers. -/
theorem witness_EveryCommandTerminates_inv :
    State.Inv { midway .src 0 with outAck := false } ∧ State.Inv { midway .out 1 with srcAck := false } ∧
    State.Inv { midway .out 2 with srcAck := false } :=
  ⟨inv_with_acks (midway_inv .src (by decide)) true false, inv_with_acks (midway_inv .out (by decide)) false true,
    inv_with_acks (midway_inv .out (by decide)) false true⟩

/-- The hypotheses of ResetValues' last clause and of ResetClearsTheBlock; a reset that is released in the same step. -/
theorem witness_ResetValues :
    (State.rstN { middle with rstN := false } = false) ∧ (State.inflight { middle with rstN := false } = none) ∧
    (State.inputs { middle with rstN := false } = []) := by decide
theorem witness_ResetClearsTheBlock :
    ∃ s t : State, s.rstN = false ∧ step s = .next t ∧ t.rstN = true :=
  ⟨{ middle with rstN := false, inputs := [.setRstN true] }, _, rfl, rfl, rfl⟩

/-- A READ of 3 bytes in flight: index 2 lies below its cap, index 3 does not. And another command in flight. -/
theorem witness_ResetAbandonsTheCommandInFlight :
    (∃ (s : State) (n : Word), s.rstN = false ∧ s.inflight = some ⟨.read n, .out, 0⟩ ∧ s.inputs = [] ∧ s.out.wf ∧
      2 < n.toNat / 3 * 3 ∧ n.toNat / 3 * 3 ≤ 3) ∧
    (∃ (s : State) (z : Bool) (len off : Word), s.rstN = false ∧ s.inflight = some ⟨.construct z len off, .src, 0⟩ ∧
      s.inputs = []) :=
  ⟨⟨{ flying with rstN := false }, 3#32, rfl, rfl, rfl, by decide, by decide, by decide⟩,
    ⟨{ building with rstN := false }, _, _, _, rfl, rfl, rfl⟩⟩

theorem fresh_matches : fresh.ContextMatchesSource := fun _ _ => by decide
theorem witness_EveryStepKeepsTheInvariant : ∃ s t : State, s.Inv ∧ s.regs.valid = true ∧ step s = .next t :=
  ⟨{ fresh with cmds := [⟨0x2#32, 3#32, 0#32⟩] }, _, inv_with_cmds fresh_inv _, rfl, rfl⟩
theorem witness_EveryStepKeepsTheContextInAgreement :
    ∃ s t : State, s.Inv ∧ s.ContextMatchesSource ∧ s.regs.valid = true ∧ step s = .next t :=
  ⟨{ fresh with cmds := [⟨0x2#32, 3#32, 0#32⟩] }, _, inv_with_cmds fresh_inv _, fresh_matches, rfl, rfl⟩
theorem witness_NoStepLeavesTheSource : State.Inv { late with cmds := [⟨0x2#32, 0xFFFFFFFF#32, 0#32⟩] } :=
  inv_with_cmds late_inv _

/-- A CONSTRUCT that makes a block constructed, and a command that leaves it unconstructed. -/
theorem witness_StatusRegister :
    (∃ t, exec (.construct false 12#32 0#32) (withText digits) = .next t ∧ t.regs.valid = true) ∧
    (∃ t, exec .length State.reset = .next t ∧ t.regs.valid = false) := ⟨⟨_, rfl, by decide⟩, ⟨_, rfl, rfl⟩⟩

/-- An error with data 0, and the one error whose data is an index. -/
theorem witness_StatusCodesOfEachCommand :
    (∃ t r, exec (.read 2#32) fresh = .next t ∧ t.rsp = some r ∧ r.status ≠ .ok ∧ r.status ≠ .malformedCharacter) ∧
    (∃ t r, exec (.read 6#32) spoiled = .next t ∧ t.rsp = some r ∧ r.status = .malformedCharacter) :=
  ⟨⟨_, ⟨.bufferTooSmall, 0#32⟩, rfl, rfl, by decide, by decide⟩, ⟨_, ⟨.malformedCharacter, 4#32⟩, rfl, by decide, rfl⟩⟩
theorem witness_ErrorsWriteOnlyLastErr :
    (∃ t r, exec .write man = .next t ∧ t.rsp = some r ∧ r.status ≠ .ok ∧ r.status ≠ .malformedCharacter) ∧
    (∃ t r, exec (.read 6#32) spoiled = .next t ∧ t.rsp = some r ∧ r.status ≠ .ok) :=
  ⟨⟨_, ⟨.unsupported, 0#32⟩, rfl, rfl, by decide, by decide⟩, ⟨_, ⟨.malformedCharacter, 4#32⟩, rfl, by decide, by decide⟩⟩

/-- Each clause: READ, which is no CONSTRUCT; SETPOS 1, which writes neither cursor nor position. -/
theorem witness_RegistersAreWrittenOnlyByTheirCommands :
    (∃ t, exec (.read 3#32) fresh = .next t) ∧
    (∃ t, exec (.setpos 1#32) fresh = .next t ∧ Instr.setpos 1#32 ≠ .setpos 0#32) :=
  ⟨⟨_, rfl⟩, ⟨_, rfl, by decide⟩⟩
theorem witness_CommandsTouchOnlyTheirMemories :
    (∃ t, exec (.read 3#32) fresh = .next t) ∧ (∃ t, exec (.construct false 12#32 0#32) fresh = .next t) :=
  ⟨⟨_, rfl⟩, ⟨_, rfl⟩⟩
theorem witness_UnconstructedBlockAnswersNotConstructed :
    State.reset.regs.valid = false ∧ (∀ z len off, Instr.setpos 1#32 ≠ .construct z len off) ∧
    (∀ r, Instr.setpos 1#32 ≠ .peek r) ∧ (∀ c, Instr.setpos 1#32 ≠ .illegal c) :=
  ⟨rfl, by simp, by simp, by simp⟩

/-- Each cause: null; empty; all whitespace with an offset out of range (95 C-12); `off = len` (95 C-10). -/
theorem witness_ConstructEmptyInput :
    (∃ z : Bool, z = true) ∧ (∃ len : Word, len = 0#32) ∧
    (∀ j < (3#32).toNat, isWs ((withText [0x20#16, 0x20#16, 0x20#16]).srcReadNew j) = true) ∧
    ((4#32).toNat ≤ (4#32).toNat ∧ ∀ j, (4#32).toNat ≤ j → j < (4#32).toNat → isWs (spoiled.srcReadNew j) = true) :=
  ⟨⟨_, rfl⟩, ⟨_, rfl⟩, by decide, le_refl _, fun j h1 h2 => by omega⟩
/-- 95 C-9: the offset one beyond the source. -/
theorem witness_ConstructOffsetOutOfRange :
    0 < (4#32).toNat ∧ isWs (spoiled.srcReadNew 0) = false ∧ (4#32).toNat < (5#32).toNat := by decide

/-- "TWFu". -/
def manText : List CharCode := [0x54#16, 0x57#16, 0x46#16, 0x75#16]

/-- SRC holds the text put into it. -/
theorem withText_holds (cs : List CharCode) : HoldsText (withText cs).src 0 cs := fun _ h =>
  Memory.read_writeRun_inside Memory.wf_nil 0 cs h

/-- " TWFu " and "abc": trimmed views, of 4 characters and of 3 (95 L1-2). -/
def padded : State := withText [0x20#16, 0x54#16, 0x57#16, 0x46#16, 0x75#16, 0x20#16]
theorem padded_view : TrimmedView padded.srcReadNew (6#32).toNat (0#32).toNat 1 5 :=
  ⟨by decide, by decide, by decide, by intro j _ h; interval_cases j; decide,
    by intro j h1 h2; have : j = 5 := by change j < 6 at h2; omega
       subst this; decide, by decide, by decide⟩
theorem witness_ConstructMalformedLength :
    TrimmedView (withText [0x61#16, 0x62#16, 0x63#16]).srcReadNew (3#32).toNat (0#32).toNat 0 3 ∧ (3 - 0) % 4 ≠ 0 :=
  ⟨⟨by decide, by decide, by decide, by intro j _ h; omega, by intro j h1 h2; change j < 3 at h2; omega, by decide, by decide⟩,
    by decide⟩
theorem witness_ConstructMakesTheContext :
    TrimmedView padded.srcReadNew (6#32).toNat (0#32).toNat 1 5 ∧ (5 - 1) % 4 = 0 ∧
    0 = (if padded.srcReadNew (5 - 1) = 0x3D#16 ∧ padded.srcReadNew (5 - 2) = 0x3D#16 then 2
      else if padded.srcReadNew (5 - 1) = 0x3D#16 then 1 else 0) := ⟨padded_view, by decide, by decide⟩
/-- A CONSTRUCT that raises on a constructed block (95 C-16). -/
theorem witness_FailedConstructKeepsTheContext :
    ∃ t r, exec (.construct false 3#32 0#32) fresh = .next t ∧ t.rsp = some r ∧ r.status ≠ .ok :=
  ⟨_, ⟨.malformedLength, 0#32⟩, rfl, by decide, by decide⟩
/-- Two sources that agree below `len` = 4 and differ at index 4. -/
theorem witness_ConstructDependsOnItsTextAlone :
    spoiled.flightDisturbed = false ∧ (withText [0x51#16, 0x55#16, 0x4A#16, 0x44#16]).flightDisturbed = false ∧
    (∀ j < (4#32).toNat, spoiled.src.read j = (withText [0x51#16, 0x55#16, 0x4A#16, 0x44#16]).src.read j) ∧
    (∃ t r, exec (.construct false 4#32 0#32) spoiled = .next t ∧ t.rsp = some r ∧ r.status = .ok) :=
  ⟨rfl, rfl, by decide, _, ⟨.ok, 3#32⟩, rfl, by decide, rfl⟩
/-- "TWFu", and "x," then " TWFu " from offset 2. -/
def wrapped : List CharCode := [0x78#16, 0x2C#16] ++ [0x20#16] ++ manText ++ [0x20#16]
theorem witness_WhitespaceAndOffsetLaws :
    (∀ c ∈ [0x20#16], isWs c = true) ∧ manText ≠ [] ∧ manText.length % 4 = 0 ∧
    (∀ c, manText.head? = some c → isWs c = false) ∧ (∀ c, manText.getLast? = some c → isWs c = false) ∧
    (4#32).toNat = manText.length ∧ (8#32).toNat = wrapped.length ∧ (2#32).toNat = [0x78#16, 0x2C#16].length := by
  refine ⟨?_, by decide, by decide, ?_, ?_, by decide, by decide, by decide⟩
  · simp only [List.mem_singleton]
    rintro c rfl
    decide
  · simp only [manText, List.head?_cons, Option.some.injEq]
    rintro c rfl
    decide
  · simp only [manText, List.getLast?_cons_cons, List.getLast?_singleton, Option.some.injEq]
    rintro c rfl
    decide
theorem witness_WhitespaceAndOffsetLaws_texts :
    HoldsText (withText manText).src 0 manText ∧ HoldsText (withText wrapped).src 0 wrapped ∧
    (withText manText).flightDisturbed = false ∧ (withText wrapped).flightDisturbed = false :=
  ⟨withText_holds _, withText_holds _, rfl, rfl⟩

/-- The ranges of R101 at their ends. -/
theorem witness_LookupTableContents :
    [0x41#8, 0x5A#8, 0x61#8, 0x7A#8, 0x30#8, 0x39#8].map (fun c => (lut c).value) = [0#6, 25#6, 26#6, 51#6, 52#6, 61#6] := by
  decide
/-- Byte 0 of "QQ==" and "QR==" (R119), byte 1 of "QUI=" and "QUJ=" (95 R-8, R-9). -/
theorem witness_DiscardedBitsHaveNoEffect :
    ((16#6).extractLsb' 4 2 = (17#6).extractLsb' 4 2) ∧ ((20#6).extractLsb' 0 4 = (20#6).extractLsb' 0 4) ∧
    ((8#6).extractLsb' 2 4 = (9#6).extractLsb' 2 4) := by decide
/-- A clean final quartet of two bytes; a quartet with a wide character; one with an invalid one; and a quartet that is
not clean. -/
theorem witness_QuartetFunction :
    CleanQuartet fresh.src.read 8 2 ∧ 8 + 4 ≤ 12 ∧ ReportsBad spoiled.src.read 4 3 4 ∧ ReportsBad fresh.src.read 8 3 11 ∧
    ¬ CleanQuartet fresh.src.read 8 3 := by
  unfold CleanQuartet ReportsBad
  decide
theorem witness_LegacyQuartet : 8 + 4 ≤ 12 ∧ 3 ≤ 3 ∧ ∀ i < 4, (fresh.src.read (8 + i)).toNat < 256 := by decide

/-- Both clauses of R113, at n = 2, unconstructed and at end-of-stream. -/
theorem witness_ReadPreconditions :
    State.reset.regs.valid = false ∧ finished.regs.valid = true ∧ (2#32).toNat < 3 := by decide
/-- At end-of-stream with the smallest buffer that holds a triplet. -/
theorem witness_ReadAtEndOfStream :
    finished.Inv ∧ finished.regs.valid = true ∧ 3 ≤ (3#32).toNat ∧
    finished.regs.decodedPosition = finished.regs.decodedLength ∧
    ∃ t, exec (.read 3#32) finished = .next t ∧ t.rsp = some ⟨.ok, 0#32⟩ :=
  ⟨finished_inv, rfl, by decide, by decide, _, rfl, by decide⟩
/-- "MTIzNDU2Nzg=" from its second quartet on: both quartets left are clean. -/
theorem witness_ReadDeliversTheDecodedStream :
    middle.Inv ∧ middle.regs.valid = true ∧ 3 ≤ (9#32).toNat ∧
    ∀ q, middle.regs.decodedPosition.toNat + 3 * q < middle.regs.decodedLength.toNat → 3 * q < (9#32).toNat / 3 * 3 →
      CleanQuartet middle.srcRead (middle.regs.sourceCursor.toNat + 4 * q)
        (middle.regs.bytesOfQuartetAt (middle.regs.decodedPosition.toNat + 3 * q)) := by
  refine ⟨middle_inv, rfl, by decide, ?_⟩
  intro q h _
  have hq : q < 2 := by change 3 + 3 * q < 8 at h; omega
  unfold CleanQuartet
  interval_cases q <;> decide
/-- "QUJD" U+0151 "UJD": one clean quartet, then the bad character at index 4. -/
theorem witness_ReadReportsTheFirstBadCharacter :
    spoiled.Inv ∧ spoiled.regs.valid = true ∧
    spoiled.regs.decodedPosition.toNat + 3 * 1 < spoiled.regs.decodedLength.toNat ∧ 3 * 1 < (6#32).toNat / 3 * 3 ∧
    (∀ p < 1, CleanQuartet spoiled.srcRead (spoiled.regs.sourceCursor.toNat + 4 * p)
      (spoiled.regs.bytesOfQuartetAt (spoiled.regs.decodedPosition.toNat + 3 * p))) ∧
    ReportsBad spoiled.srcRead (spoiled.regs.sourceCursor.toNat + 4 * 1)
      (spoiled.regs.bytesOfQuartetAt (spoiled.regs.decodedPosition.toNat + 3 * 1)) 4 := by
  unfold CleanQuartet ReportsBad
  exact ⟨spoiled_inv, by decide⟩
theorem witness_BytesPerRead :
    late.Inv ∧ late.regs.valid = true ∧ ∃ t, exec (.read 3#32) late = .next t ∧ t.rsp = some ⟨.ok, 2#32⟩ :=
  ⟨late_inv, rfl, _, rfl, by decide⟩
theorem witness_ReadFrame :
    (∃ t r, exec (.read 3#32) late = .next t ∧ t.rsp = some r ∧ r.status = .ok) ∧
    (∃ t r, exec (.read 6#32) spoiled = .next t ∧ t.rsp = some r ∧ r.status ≠ .ok) :=
  ⟨⟨_, ⟨.ok, 2#32⟩, rfl, by decide, rfl⟩, ⟨_, ⟨.malformedCharacter, 4#32⟩, rfl, by decide, by decide⟩⟩
theorem witness_RepeatedReadReportsAgain :
    spoiled.Inv ∧ spoiled.srcDisturbed = false ∧
    ∃ t, exec (.read 6#32) spoiled = .next t ∧ t.rsp = some ⟨.malformedCharacter, 4#32⟩ :=
  ⟨spoiled_inv, rfl, _, rfl, by decide⟩

/-- " QUJD" U+0151 "UJD": the content of `spoiled` one index later. -/
def shifted : State :=
  { withText [0x20#16, 0x51#16, 0x55#16, 0x4A#16, 0x44#16, 0x0151#16, 0x55#16, 0x4A#16, 0x44#16] with
    regs := regsOf 9 1 1 0 6 0#2 .ok }
theorem shifted_inv : shifted.Inv :=
  idle_inv (show shifted.regs.ContextInv from ⟨by decide, by decide, by decide, by decide, by decide, by decide⟩)
    (by decide) (by unfold Memory.Within; decide) (by decide) (by intro c h; cases h) rfl rfl rfl rfl rfl
/-- Both outcomes: 3 bytes, and the bad character. -/
theorem witness_ReadDependsOnTheContentAlone :
    spoiled.Inv ∧ shifted.Inv ∧ spoiled.srcDisturbed = false ∧ shifted.srcDisturbed = false ∧
    shifted.regs.decodedLength = spoiled.regs.decodedLength ∧ shifted.regs.decodedPosition = spoiled.regs.decodedPosition ∧
    shifted.regs.paddingCount = spoiled.regs.paddingCount ∧
    (∀ j < spoiled.regs.contentLen, shifted.src.read (shifted.regs.initialCursor.toNat + j) =
      spoiled.src.read (spoiled.regs.initialCursor.toNat + j)) ∧
    (∃ t r, exec (.read 3#32) spoiled = .next t ∧ t.rsp = some r ∧ r.status = .ok) ∧
    (∃ t r, exec (.read 6#32) spoiled = .next t ∧ t.rsp = some r ∧ r.status = .malformedCharacter) :=
  ⟨spoiled_inv, shifted_inv, rfl, rfl, rfl, rfl, rfl, by decide, ⟨_, ⟨.ok, 3#32⟩, rfl, by decide, rfl⟩,
    ⟨_, ⟨.malformedCharacter, 4#32⟩, rfl, by decide, rfl⟩⟩

/-- The whole stream by READs of 3, 3 and 3 bytes, and by one of 9 (95 L1-8). -/
theorem whole_by_threes :
    (readAll [3#32, 3#32, 3#32] fresh).map (fun r => (r.1, r.2.regs.decodedPosition, r.2.regs.decodedLength)) =
    some ([0x31#8, 0x32#8, 0x33#8, 0x34#8, 0x35#8, 0x36#8, 0x37#8, 0x38#8], 8#32, 8#32) := by decide
theorem whole_at_once :
    (readAll [9#32] fresh).map (fun r => (r.1, r.2.regs.decodedPosition, r.2.regs.decodedLength)) =
    some ([0x31#8, 0x32#8, 0x33#8, 0x34#8, 0x35#8, 0x36#8, 0x37#8, 0x38#8], 8#32, 8#32) := by decide
theorem threes_complete : ∃ bs t, readAll [3#32, 3#32, 3#32] fresh = some (bs, t) ∧
    t.regs.decodedPosition = t.regs.decodedLength := by
  obtain ⟨⟨bs, t⟩, h, e⟩ := Option.map_eq_some_iff.mp whole_by_threes
  simp only [Prod.mk.injEq] at e
  exact ⟨bs, t, h, e.2.1.trans e.2.2.symm⟩
theorem once_complete : ∃ bs t, readAll [9#32] fresh = some (bs, t) ∧ t.regs.decodedPosition = t.regs.decodedLength := by
  obtain ⟨⟨bs, t⟩, h, e⟩ := Option.map_eq_some_iff.mp whole_at_once
  simp only [Prod.mk.injEq] at e
  exact ⟨bs, t, h, e.2.1.trans e.2.2.symm⟩
theorem witness_ChunkingInvariance :
    fresh.Inv ∧ fresh.regs.valid = true ∧ fresh.srcDisturbed = false ∧ fresh.regs.decodedPosition = 0#32 ∧
    (∀ n ∈ [3#32, 3#32, 3#32], 3 ≤ n.toNat) ∧ (∀ m ∈ [9#32], 3 ≤ m.toNat) ∧
    (∃ bs t, readAll [3#32, 3#32, 3#32] fresh = some (bs, t) ∧ t.regs.decodedPosition = t.regs.decodedLength) ∧
    (∃ cs u, readAll [9#32] fresh = some (cs, u) ∧ u.regs.decodedPosition = u.regs.decodedLength) :=
  ⟨fresh_inv, rfl, rfl, rfl, by simp, by simp, threes_complete, once_complete⟩
/-- Both clauses: "Man" (95 C-1), and the empty sequence, whose text is empty. -/
theorem witness_DecodingInvertsEncoding :
    rfcEncode [0x4D#8, 0x61#8, 0x6E#8] = [0x54#16, 0x57#16, 0x46#16, 0x75#16] ∧
    HoldsText (withText [0x54#16, 0x57#16, 0x46#16, 0x75#16]).src 0 (rfcEncode [0x4D#8, 0x61#8, 0x6E#8]) ∧
    (4#32).toNat = (rfcEncode [0x4D#8, 0x61#8, 0x6E#8]).length ∧ [0x4D#8, 0x61#8, 0x6E#8].length ≤ (3#32).toNat / 3 * 3 ∧
    State.reset.flightDisturbed = false ∧ (0#32).toNat = (rfcEncode []).length := by
  unfold HoldsText
  decide
theorem witness_DecodingInvertsEncoding_inv : (withText [0x54#16, 0x57#16, 0x46#16, 0x75#16]).Inv ∧ State.reset.Inv :=
  ⟨idle_inv (by simp [Regs.Inv, withText, State.reset, Regs.reset]) (by decide) (by unfold Memory.Within; decide) (by decide)
    (by intro c h; cases h) rfl rfl rfl rfl rfl, reset_inv⟩
/-- The last character of the context's text, changed, and one beyond it; the last of the text of the CONSTRUCT in flight,
changed, and one beyond it; a write that changes nothing. -/
theorem witness_ChangedSourceReadsAsFreeValues :
    (fresh.regs.valid = true ∧ 11 < fresh.regs.srcLen.toNat ∧ 0x41#16 ≠ fresh.src.read 11) ∧
    ¬ 12 < fresh.regs.srcLen.toNat ∧
    (∃ f, building.inflight = some f ∧ f.cmd = .construct false 4#32 0#32) ∧
    (3 < (4#32).toNat ∧ 0x41#16 ≠ building.src.read 3) ∧ ¬ 4 < (4#32).toNat ∧
    building.src.wf ∧ 0x7A#16 = building.src.read 3 :=
  ⟨by decide, by decide, ⟨_, rfl, rfl⟩, by decide, by decide, by decide, by decide⟩
/-- Index 2, the last of the buffer of 3 bytes, and index 3, the first beyond it; and a READ that lands, both ports
answering, and OUT alone. -/
theorem witness_HostWritesDuringReadAreKeptOrOverwritten :
    flying.out.wf ∧ (∃ f, flying.inflight = some f ∧ f.cmd = .read 3#32) ∧ 2 < (3#32).toNat ∧ ¬ 3 < (3#32).toNat ∧
    State.Inv { flying with outAck := true } ∧ State.Inv { flying with srcAck := false, outAck := true } ∧
    (∃ t, step { flying with outAck := true } = .next t ∧ t.inflight = none) ∧
    ∃ t, step { flying with srcAck := false, outAck := true } = .next t ∧ t.inflight = none :=
  ⟨by decide, ⟨_, rfl, rfl⟩, by decide, by decide, inv_with_acks flying_inv true true, inv_with_acks flying_inv false true,
    ⟨_, rfl, rfl⟩, _, rfl, rfl⟩

theorem witness_LengthAndPosition : fresh.regs.valid = true ∧ State.reset.regs.valid = false := by decide
theorem witness_RewindAndSetpos :
    finished.Inv ∧ finished.regs.valid = true ∧ (∃ t, exec .rewind finished = .next t) ∧ 1#32 ≠ 0#32 ∧
    State.reset.regs.valid = false := ⟨finished_inv, rfl, ⟨_, rfl⟩, by decide, rfl⟩
theorem witness_RewindLaw :
    fresh.Inv ∧ fresh.regs.valid = true ∧ fresh.srcDisturbed = false ∧ fresh.regs.decodedPosition = 0#32 ∧
    (∀ n ∈ [3#32, 3#32, 3#32], 3 ≤ n.toNat) ∧
    ∃ bs t, readAll [3#32, 3#32, 3#32] fresh = some (bs, t) ∧ t.regs.decodedPosition = t.regs.decodedLength :=
  ⟨fresh_inv, rfl, rfl, rfl, by simp, threes_complete⟩
/-- The inner hypotheses of RewindLaw: the whole stream by one READ after REWIND at end-of-stream (95 P1 step 11). -/
theorem witness_RewindLaw_again :
    (readAll [9#32] finished.rewound).map (fun r => (r.1, r.2.regs.decodedPosition, r.2.regs.decodedLength)) =
    some ([0x31#8, 0x32#8, 0x33#8, 0x34#8, 0x35#8, 0x36#8, 0x37#8, 0x38#8], 8#32, 8#32) := by decide
/-- PEEK at 8, the first number above 7. -/
theorem witness_PeekReadsTheRegisterFile : 7 < (8#32).toNat := by decide
theorem witness_WriteSeekSetlenAreUnsupported :
    (Instr.setlen = .write ∨ Instr.setlen = .seek ∨ Instr.setlen = .setlen) ∧ man.regs.valid = true ∧
    State.reset.regs.valid = false := by decide
/-- A character of the alphabet is no whitespace. -/
theorem witness_WhitespaceSetIsLegal : (0x2B#16).toNat < 256 ∧ (entryOf 0x2B#16).valid = true := by decide

/-- A CONSTRUCT that holds a SRC access and a READ that holds an OUT access, neither acknowledged; the outside world drops
the other port's acknowledge in the same step. -/
theorem witness_AccessesAreHeldUntilAcknowledged :
    (∃ t, step building = .next t ∧ building.srcReq = true ∧ building.srcAck = false) ∧
    (∃ t, step { flying with inputs := [.setSrcAck false] } = .next t ∧ t.rstN = true ∧
      State.outWe { flying with inputs := [.setSrcAck false] } = true ∧ flying.outAck = false) :=
  ⟨⟨_, rfl, rfl, rfl⟩, ⟨_, rfl, rfl, rfl, rfl⟩⟩

/-- Each clause: a CONSTRUCT; a READ before the end; a READ that answers OK with 8 bytes, at quartets 2 and 3; one that
meets a bad character at index 4, of quartet 1; a CONSTRUCT of a null source and of an empty one; a READ of an unconstructed
block and one of 2 bytes; a command that needs no port; and a wait at each port. -/
theorem witness_CommandsNeedTheirPorts :
    (1#32 ≠ 0#32) ∧
    (fresh.Inv ∧ fresh.regs.valid = true ∧ 3 ≤ (9#32).toNat ∧
      fresh.regs.decodedPosition.toNat < fresh.regs.decodedLength.toNat) ∧
    (∃ t, exec (.read 9#32) fresh = .next t ∧ t.rsp = some ⟨.ok, 8#32⟩ ∧ needsOutput fresh (.read 9#32) 2 = true ∧
      needsSource fresh (.read 9#32) 3 = false) ∧
    (spoiled.Inv ∧ ∃ t, exec (.read 6#32) spoiled = .next t ∧ t.rsp = some ⟨.malformedCharacter, 4#32⟩ ∧
      needsSource spoiled (.read 6#32) 1 = true ∧ needsOutput spoiled (.read 6#32) 1 = false) ∧
    ((∃ z : Bool, z = true) ∧ (∃ len : Word, len = 0#32) ∧ State.reset.regs.valid = false ∧ (2#32).toNat < 3) ∧
    ((∀ z len off, Instr.length ≠ .construct z len off) ∧ ∀ n, Instr.length ≠ .read n) ∧
    waitsAt { fresh with srcAck := false, outAck := false } (.read 3#32) 0 = some .src ∧
    waitsAt { fresh with outAck := false } (.read 3#32) 0 = some .out :=
  ⟨by decide, ⟨fresh_inv, rfl, by decide, by decide⟩, ⟨_, rfl, by decide, by decide, by decide⟩,
    ⟨spoiled_inv, _, rfl, by decide, by decide, by decide⟩, ⟨⟨_, rfl⟩, ⟨_, rfl⟩, rfl, by decide⟩, by simp, by decide,
    by decide⟩

end Sys2Proof.Tests
end

section

/-! Proofs of the scope statements: the whitespace set (spec/00_scope.md R10), and the frame of an error
(spec/00_scope.md R13, spec/60_exceptions.md R180). -/

namespace Sys2Proof.Machine

/-! ## The whitespace set -/

/-- R10: the code points of `WS_SET`, as ranges. -/
theorem isWs_iff (c : CharCode) : isWs c = true ↔
    (0x0009 ≤ c.toNat ∧ c.toNat ≤ 0x000D) ∨ c.toNat = 0x0020 ∨ c.toNat = 0x0085 ∨ c.toNat = 0x00A0 ∨ c.toNat = 0x1680 ∨
    (0x2000 ≤ c.toNat ∧ c.toNat ≤ 0x200A) ∨ c.toNat = 0x2028 ∨ c.toNat = 0x2029 ∨ c.toNat = 0x202F ∨ c.toNat = 0x205F ∨
    c.toNat = 0x3000 := by
  simp only [isWs, Config.wsSet, decide_eq_true_eq, List.mem_cons, List.not_mem_nil, or_false, ← BitVec.toNat_inj,
    BitVec.toNat_ofNat, Nat.reducePow, Nat.reduceMod]
  omega

/-- R101: the codes whose table entry is valid are those of the 64 alphabet characters. -/
theorem lut_valid_iff (b : BitVec 8) : (lut b).valid = true ↔
    (0x41 ≤ b.toNat ∧ b.toNat ≤ 0x5A) ∨ (0x61 ≤ b.toNat ∧ b.toNat ≤ 0x7A) ∨ (0x30 ≤ b.toNat ∧ b.toNat ≤ 0x39) ∨
    b.toNat = 0x2B ∨ b.toNat = 0x2F := by
  simp only [lut, LutEntry.invalid]
  split_ifs <;> simp only [true_iff, false_iff] <;> omega

/-- R101, R102: below 256, a character with a valid entry is an alphabet character. -/
theorem entryOf_valid_iff {c : CharCode} (hc : c.toNat < 256) : (entryOf c).valid = true ↔
    (0x41 ≤ c.toNat ∧ c.toNat ≤ 0x5A) ∨ (0x61 ≤ c.toNat ∧ c.toNat ≤ 0x7A) ∨ (0x30 ≤ c.toNat ∧ c.toNat ≤ 0x39) ∨
    c.toNat = 0x2B ∨ c.toNat = 0x2F := by
  have hlow : (c.setWidth 8).toNat = c.toNat := by
    rw [BitVec.toNat_setWidth, Nat.mod_eq_of_lt hc]
  rw [entryOf, lut_valid_iff, hlow]

/-- No alphabet character is whitespace (R10). -/
theorem isWs_eq_false_of_valid {c : CharCode} (hc : c.toNat < 256) (hv : (entryOf c).valid = true) : isWs c = false := by
  rw [entryOf_valid_iff hc] at hv
  rw [← Bool.not_eq_true, isWs_iff]
  omega

/-- Settles O54: the set by its ranges, which the ranges of the alphabet do not meet. -/
theorem whitespaceSetIsLegal : Obligations.WhitespaceSetIsLegal := by
  unfold Obligations.WhitespaceSetIsLegal
  exact ⟨isWs_iff, fun _ => isWs_eq_false_of_valid, by decide⟩

/-! ## The frame of an error -/

@[simp] theorem State.afterBytes_regs (s : State) (n : Word) : (s.afterBytes n).regs = s.regs := rfl
@[simp] theorem State.afterBytes_src (s : State) (n : Word) : (s.afterBytes n).src = s.src := rfl

/-- R13, R112: a command that raises does nothing but respond, or is a READ that responds after the bytes it decoded
before a bad character. -/
theorem exec_error_cases {i : Instr} {s t : State} {r : Response} (h : exec i s = .next t) (hr : t.rsp = some r)
    (he : r.status ≠ .ok) :
    t = s.respond r.status r.data ∨
    ∃ n, i = .read n ∧ r.status = .malformedCharacter ∧ t = (s.afterBytes n).respond r.status r.data := by
  rcases exec_next_cases h with ⟨code, data, rfl⟩ | ⟨n, j, rfl, -, rfl, -, -⟩ | ⟨n, -, -, -, -, rfl⟩ | ⟨-, -, rfl⟩ |
    ⟨len, off, a, e, -, -, -, rfl⟩ <;> obtain rfl := Option.some.inj hr
  · exact .inl rfl
  · exact .inr ⟨n, rfl, rfl, rfl⟩
  all_goals exact absurd rfl he

/-- Settles O21: in both ways to raise, the registers are the old ones under the response, and only a READ that met a bad
character had written to OUT. -/
theorem errorsWriteOnlyLastErr : Obligations.ErrorsWriteOnlyLastErr := by
  unfold Obligations.ErrorsWriteOnlyLastErr
  intro i s t r h hr he
  rcases exec_error_cases h hr he with ht | ⟨n, -, hcode, ht⟩ <;> rw [ht]
  · exact ⟨by simp, by simp, fun _ => by simp⟩
  · exact ⟨by simp, by simp, fun hne => absurd hcode hne⟩

end Sys2Proof.Machine
end

section

/-! Which registers a command writes (spec/10_state.md R20, R26, R29), and the values after reset (R34). -/

namespace Sys2Proof.Machine

/-! ## What a command leaves alone -/

/-- R40, R51: a command changes registers, OUT, the response, the mark of a disturbed context and the draw counter, and
nothing else. -/
theorem exec_frame {i : Instr} {s t : State} (h : exec i s = .next t) :
    t = { s with regs := t.regs, out := t.out, rsp := t.rsp, srcDisturbed := t.srcDisturbed, draws := t.draws } := by
  rcases exec_next_cases h with ⟨code, data, rfl⟩ | ⟨n, j, -, -, rfl, -, -⟩ | ⟨n, -, -, -, -, rfl⟩ | ⟨-, -, rfl⟩ |
    ⟨len, off, a, e, -, -, -, rfl⟩ <;> rfl

/-- R20, R41: of the registers, a command that is no CONSTRUCT changes at most LAST_ERR, SOURCE_CURSOR and
DECODED_POSITION, and it keeps the mark of a disturbed context. -/
theorem exec_frame_of_not_construct {i : Instr} {s t : State} (hi : ∀ z len off, i ≠ .construct z len off)
    (h : exec i s = .next t) :
    t = { s with
      regs := { s.regs with
        lastErr := t.regs.lastErr
        sourceCursor := t.regs.sourceCursor
        decodedPosition := t.regs.decodedPosition }
      out := t.out
      rsp := t.rsp
      draws := t.draws } := by
  rcases exec_next_cases h with ⟨code, data, rfl⟩ | ⟨n, j, -, -, rfl, -, -⟩ | ⟨n, -, -, -, -, rfl⟩ | ⟨-, -, rfl⟩ |
    ⟨len, off, a, e, hc, -⟩
  · rfl
  · rfl
  · rfl
  · rfl
  · exact absurd hc (hi _ _ _)

/-- R20: a command that is no CONSTRUCT keeps the registers that describe the context. -/
theorem exec_context_of_not_construct {i : Instr} {s t : State} (hi : ∀ z len off, i ≠ .construct z len off)
    (h : exec i s = .next t) :
    t.regs.srcLen = s.regs.srcLen ∧ t.regs.initialCursor = s.regs.initialCursor ∧
      t.regs.decodedLength = s.regs.decodedLength ∧ t.regs.paddingCount = s.regs.paddingCount ∧
      t.regs.valid = s.regs.valid := by
  rw [exec_frame_of_not_construct hi h]
  exact ⟨rfl, rfl, rfl, rfl, rfl⟩

/-- R81, R91: a CONSTRUCT raises, or answers OK with a new context over a trimmed view of the text it names. -/
theorem construct_next_cases {z : Bool} {len off : Word} {s t : State} (h : exec (.construct z len off) s = .next t) :
    (∃ code, code ≠ .ok ∧ t = s.respond code 0#32) ∨
    ∃ a e, TrimmedView s.srcReadNew len.toNat off.toNat a e ∧ (e - a) % 4 = 0 ∧
      t = { s with regs := s.regs.newContext s.srcReadNew len a e, srcDisturbed := s.flightDisturbed }.respond
        .ok (Word.ofNat (3 * ((e - a) / 4) - (paddingOf s.srcReadNew e).toNat)) := by
  rw [exec] at h
  rcases execConstruct_cases z len off s with ⟨-, he⟩ | ⟨-, code, hcode, he⟩ | ⟨-, a, e, hv, hm, he⟩ <;>
    obtain rfl := Host.Outcome.next.inj (he.symm.trans h)
  · exact .inl ⟨.emptyInput, by simp, rfl⟩
  · exact .inl ⟨code, by rcases hcode with rfl | rfl | rfl <;> simp, rfl⟩
  · exact .inr ⟨a, e, hv, hm, rfl⟩

/-- A command is a CONSTRUCT or not. -/
theorem construct_or_not (i : Instr) : (∃ z len off, i = .construct z len off) ∨ ∀ z len off, i ≠ .construct z len off := by
  by_cases h : ∃ z len off, i = .construct z len off
  · exact .inl h
  · exact .inr fun z len off hi => h ⟨z, len, off, hi⟩

/-! ## The STATUS word and CONFIG -/

/-- R26: the fields of a word laid out as STATUS is. -/
theorem fields_of_statusLayout {w : Word} {c : BitVec 4} {e v : Bool}
    (hw : w = 0#24 ++ c ++ 0#2 ++ BitVec.ofBool e ++ BitVec.ofBool v) :
    w.getLsbD 0 = v ∧ w.getLsbD 1 = e ∧ w.extractLsb' 2 2 = 0#2 ∧ w.extractLsb' 4 4 = c ∧ w.extractLsb' 8 24 = 0#24 := by
  subst hw
  revert c e v
  decide

/-- R13, R26: a command that completes offers a response and leaves its code in LAST_ERR. -/
theorem exec_responds {i : Instr} {s t : State} (h : exec i s = .next t) :
    ∃ r, t.rsp = some r ∧ t.regs.lastErr = r.status := by
  rcases exec_next_cases h with ⟨code, data, rfl⟩ | ⟨n, j, -, -, rfl, -, -⟩ | ⟨n, -, -, -, -, rfl⟩ | ⟨-, -, rfl⟩ |
    ⟨len, off, a, e, -, -, -, rfl⟩ <;> exact ⟨_, rfl, rfl⟩

/-- R26: VALID after a command that completes: as before, or 1 by a CONSTRUCT that answers OK. -/
theorem exec_valid_iff {i : Instr} {s t : State} {r : Response} (h : exec i s = .next t) (hr : t.rsp = some r) :
    t.regs.valid = true ↔ s.regs.valid = true ∨ (r.status = .ok ∧ ∃ z len off, i = .construct z len off) := by
  rcases construct_or_not i with ⟨z, len, off, rfl⟩ | hi
  · rcases construct_next_cases h with ⟨code, hcode, rfl⟩ | ⟨a, e, -, -, rfl⟩ <;> obtain rfl := Option.some.inj hr
    · simp [hcode]
    · simp
  · obtain ⟨-, -, -, -, hv⟩ := exec_context_of_not_construct hi h
    simp [hv, hi]

/-- Settles O19: the word's fields by its layout, LAST_ERR by how every command responds, VALID by the two ways a
CONSTRUCT ends. -/
theorem statusRegister : Obligations.StatusRegister := by
  unfold Obligations.StatusRegister
  refine ⟨fun r => fields_of_statusLayout rfl, rfl, fun i s t h => ?_⟩
  obtain ⟨r, hr, hcode⟩ := exec_responds h
  exact ⟨r, hr, hcode, exec_valid_iff h hr⟩

/-- R29: CONFIG reads the same whatever the registers hold. -/
@[simp] theorem Regs.read_config (r : Regs) : r.read .config = 0x00201001#32 := by
  rw [Regs.read]
  decide

/-- R20: a command that is none of those that move the stream leaves cursor and position alone. -/
theorem exec_cursor_of_not_moving {i : Instr} {s t : State} (hc : ∀ z len off, i ≠ .construct z len off)
    (hr : ∀ n, i ≠ .read n) (hw : i ≠ .rewind) (hp : i ≠ .setpos 0#32) (h : exec i s = .next t) :
    t.regs.sourceCursor = s.regs.sourceCursor ∧ t.regs.decodedPosition = s.regs.decodedPosition := by
  rcases exec_next_cases h with ⟨code, data, rfl⟩ | ⟨n, j, hi, -⟩ | ⟨n, hi, -⟩ | ⟨hi, -⟩ | ⟨len, off, a, e, hi, -⟩
  · exact ⟨rfl, rfl⟩
  · exact absurd hi (hr n)
  · exact absurd hi (hr n)
  · exact (hi.elim hw hp).elim
  · exact absurd hi (hc _ _ _)

/-- Settles O22: the two frames of a command's registers, and CONFIG's hardwired word. -/
theorem registersAreWrittenOnlyByTheirCommands : Obligations.RegistersAreWrittenOnlyByTheirCommands := by
  unfold Obligations.RegistersAreWrittenOnlyByTheirCommands
  intro i s t h
  exact ⟨fun hi => exec_context_of_not_construct hi h, fun hc hr hw hp => exec_cursor_of_not_moving hc hr hw hp h,
    Regs.read_config _, Regs.read_config _⟩

/-- Settles O55: every field of the hardwired word, and PEEK 7's answer. -/
theorem configIsHardwired : Obligations.ConfigIsHardwired := by
  unfold Obligations.ConfigIsHardwired
  intro s
  rw [Regs.read_config]
  exact ⟨by decide, by decide, by decide, by decide, by decide, s.respond .ok 0x00201001#32,
    by rw [exec, execPeek, Regs.read_config, complete_eq], rfl⟩

/-! ## Reset -/

/-- R34: every register reads 0 after reset, but for CONFIG (R29). -/
theorem read_reset (r : Reg) : Regs.reset.read r = if r = .config then 0x00201001#32 else 0#32 := by
  cases r <;> decide

/-- R192, log 19: with nothing in flight reset leaves OUT alone. -/
theorem abandonedOut_idle {s : State} (h : s.inflight = none) : s.abandonedOut = s.out := by
  simp [State.abandonedOut, h]

/-- Settles O12: the reset file's values, and the step in reset of a state in which nothing else goes on. -/
theorem resetValues : Obligations.ResetValues := by
  unfold Obligations.ResetValues
  refine ⟨read_reset, rfl, rfl, rfl, fun s hr hi hn => ⟨s.enterReset, ?_, rfl, abandonedOut_idle hi, rfl⟩⟩
  rcases step_cases s with ⟨-, hs⟩ | hs
  · rw [hs, hostMove_nil (s := s.enterReset) hn]
  · simp [hr] at hs

end Sys2Proof.Machine
end

section

/-! Every step keeps the invariant (spec/10_state.md R32, R34), and none leaves the source (R28, R40, R120). -/

namespace Sys2Proof.Machine

/-! ## The register file -/

theorem Regs.inv_of_valid {r : Regs} (hv : r.valid = true) : r.Inv ↔ r.ContextInv := by simp [Regs.Inv, hv]

theorem Regs.inv_of_not_valid {r : Regs} (hv : r.valid = false) :
    r.Inv ↔ r = { Regs.reset with lastErr := r.lastErr } := by simp [Regs.Inv, hv]

/-- R32 and R34 say nothing of LAST_ERR. -/
theorem Regs.Inv.withLastErr {r : Regs} (h : r.Inv) (code : StatusCode) : Regs.Inv { r with lastErr := code } := by
  rcases Bool.eq_false_or_eq_true r.valid with hv | hv
  · rw [Regs.inv_of_valid hv] at h
    exact (Regs.inv_of_valid (r := { r with lastErr := code }) hv).mpr
      ⟨h.padding, h.length, h.position, h.content, h.cursor, h.triplet⟩
  · rw [Regs.inv_of_not_valid hv] at h
    rw [h]
    exact (Regs.inv_of_not_valid (r := { Regs.reset with lastErr := code }) rfl).mpr rfl

theorem Regs.inv_reset : Regs.reset.Inv := (Regs.inv_of_not_valid rfl).mpr rfl

/-- R11: a natural below 2^32 is kept whole. -/
theorem Word.toNat_ofNat {n : Nat} (h : n < 2 ^ 32) : (Word.ofNat n).toNat = n := by
  rw [BitVec.toNat_ofNat, Nat.mod_eq_of_lt h]

/-- R25, R88: DECODED_LENGTH of a new context, when its content ends inside a text. -/
theorem Regs.toNat_decodedLength_newContext (r : Regs) (rd : Nat → CharCode) {len : Word} (s : Nat) {e : Nat}
    (he : e ≤ len.toNat) :
    (r.newContext rd len s e).decodedLength.toNat = 3 * ((e - s) / 4) - (paddingOf rd e).toNat := by
  rw [Regs.newContext_decodedLength, Word.toNat_ofNat (by omega)]

/-- R32: the content of a new context is its trimmed view. -/
theorem Regs.contentLen_newContext (r : Regs) {rd : Nat → CharCode} {len : Word} {off s e : Nat}
    (hv : TrimmedView rd len.toNat off s e) (hm : (e - s) % 4 = 0) : (r.newContext rd len s e).contentLen = e - s := by
  have hp := paddingOf_le rd e
  have hlt := hv.nonempty
  rw [Regs.contentLen, Regs.toNat_decodedLength_newContext _ _ _ hv.stop, Regs.newContext_paddingCount]
  omega

/-- R84: a trimmed view starts at an index that a register holds. -/
theorem TrimmedView.start_lt {rd : Nat → CharCode} {len : Word} {off s e : Nat} (hv : TrimmedView rd len.toNat off s e) :
    s < 2 ^ 32 := by
  have := hv.nonempty
  have := hv.stop
  omega

/-- R32, R89: the registers that a successful CONSTRUCT makes. -/
theorem Regs.contextInv_newContext (r : Regs) {rd : Nat → CharCode} {len : Word} {off s e : Nat}
    (hv : TrimmedView rd len.toNat off s e) (hm : (e - s) % 4 = 0) : (r.newContext rd len s e).ContextInv := by
  have hlen := Regs.contentLen_newContext r hv hm
  have hlt := hv.nonempty
  have hstop := hv.stop
  have hs := Word.toNat_ofNat hv.start_lt
  refine ⟨paddingOf_le rd e, ⟨?_, by omega⟩, Nat.zero_le _, ?_, ?_, .inl rfl⟩
  · rw [hlen, Regs.toNat_decodedLength_newContext _ _ _ hstop, Regs.newContext_paddingCount]
  · rw [hlen, Regs.newContext_initialCursor, hs, Regs.newContext_srcLen]
    omega
  · simp

/-- R142: the rewind stands at the content's beginning. -/
theorem Regs.ContextInv.rewound {r : Regs} (h : r.ContextInv) :
    Regs.ContextInv { r with decodedPosition := 0#32, sourceCursor := r.initialCursor } :=
  ⟨h.padding, h.length, Nat.zero_le _, h.content, by simp, .inl rfl⟩

/-- R116, R120: moved by `w` bytes, cursor and position still stand at one quartet, if `w` is a multiple of 3 or all that
remains. -/
theorem Regs.ContextInv.advanced {r : Regs} (h : r.ContextInv) {w : Nat}
    (hle : w ≤ r.decodedLength.toNat - r.decodedPosition.toNat)
    (hw : w % 3 = 0 ∨ w = r.decodedLength.toNat - r.decodedPosition.toNat) :
    Regs.ContextInv { r with
      sourceCursor := Word.ofNat (r.sourceCursor.toNat + 4 * ((w + 2) / 3))
      decodedPosition := Word.ofNat (r.decodedPosition.toNat + w) } := by
  obtain ⟨hcur, hpos, -, -⟩ := h.at_quartet
  have hcontent := h.content
  have hshape := h.shape.length
  have hstep : (r.decodedPosition.toNat + w + 2) / 3 = (r.decodedPosition.toNat + 2) / 3 + (w + 2) / 3 := by omega
  have hpos' : (Word.ofNat (r.decodedPosition.toNat + w)).toNat = r.decodedPosition.toNat + w :=
    Word.toNat_ofNat (by omega)
  have hcur' : (Word.ofNat (r.sourceCursor.toNat + 4 * ((w + 2) / 3))).toNat = r.sourceCursor.toNat + 4 * ((w + 2) / 3) :=
    Word.toNat_ofNat (by omega)
  refine ⟨h.padding, h.length, ?_, hcontent, ?_, ?_⟩
  · simp only [hpos']
    omega
  · simp only [hpos', hcur', hstep]
    omega
  · simp only [hpos', ← BitVec.toNat_inj]
    omega

/-- R121: what a READ returns is a multiple of 3, or all that remains. -/
theorem Regs.readCount_mod (r : Regs) (n : Word) :
    r.readCount n % 3 = 0 ∨ r.readCount n = r.decodedLength.toNat - r.decodedPosition.toNat := by
  have := capOf_mod n
  unfold Regs.readCount
  omega

/-- R120: the registers after a READ whose run is done. -/
theorem contextInv_readDone {s : State} (h : s.regs.ContextInv) {n : Word} (hd : (s.runOf n).stop = .done) :
    Regs.ContextInv { s.regs with
      sourceCursor := Word.ofNat (s.runOf n).cur
      decodedPosition := Word.ofNat (s.runOf n).pos } := by
  rw [runOf_done h hd]
  exact h.advanced (Nat.min_le_right _ _) (s.regs.readCount_mod n)

/-! ## What is stored

The part of the invariant about registers and memories: it does not look at the handshake, so it holds of a command taken
out of its flight too. -/

/-- The part of `State.Inv` about the register file, the two memories and the context's mark. -/
structure State.StoreInv (s : State) : Prop where
  regs : s.regs.Inv
  srcForm : s.src.wf
  srcWithin : s.src.Within
  outForm : s.out.wf
  outWithin : s.out.Within
  disturbed : s.srcDisturbed = true → s.regs.valid = true

theorem State.Inv.store {s : State} (h : s.Inv) : s.StoreInv :=
  ⟨h.regs, h.srcForm, h.srcWithin, h.outForm, h.outWithin, h.disturbed⟩

/-- What is stored is the registers, the memories and the mark of a disturbed context. -/
theorem State.StoreInv.of_eq {s t : State} (h : s.StoreInv) (hregs : t.regs = s.regs) (hsrc : t.src = s.src)
    (hout : t.out = s.out) (hd : t.srcDisturbed = s.srcDisturbed) : t.StoreInv :=
  ⟨hregs ▸ h.regs, hsrc ▸ h.srcForm, hsrc ▸ h.srcWithin, hout ▸ h.outForm, hout ▸ h.outWithin,
    hregs ▸ hd ▸ h.disturbed⟩

/-- A response writes LAST_ERR alone (R13). -/
theorem State.StoreInv.respond {s : State} (h : s.StoreInv) (code : StatusCode) (data : Word) :
    (s.respond code data).StoreInv :=
  ⟨h.regs.withLastErr code, h.srcForm, h.srcWithin, h.outForm, h.outWithin, h.disturbed⟩

/-- A READ's bytes stay below the bound of OUT, as its cap does (R43, R111). -/
theorem State.StoreInv.afterBytes {s : State} (h : s.StoreInv) (n : Word) : (s.afterBytes n).StoreInv := by
  have hlen := runOf_length_le s n
  have hcap := capOf_lt n
  exact ⟨h.regs, h.srcForm, h.srcWithin, Memory.writeRun_wf h.outForm 0 _,
    Memory.writeRun_below h.outWithin _ (by omega), h.disturbed⟩

/-- Registers of a context in place of the old ones. -/
theorem State.StoreInv.withContext {s : State} (h : s.StoreInv) {r : Regs} (hr : r.ContextInv) (hv : r.valid = true)
    (d : Bool) : State.StoreInv { s with regs := r, srcDisturbed := d } :=
  ⟨(Regs.inv_of_valid hv).mpr hr, h.srcForm, h.srcWithin, h.outForm, h.outWithin, fun _ => hv⟩

/-- R32, R34, R91: every command keeps what is stored in order. -/
theorem exec_storeInv {i : Instr} {s t : State} (h : s.StoreInv) (he : exec i s = .next t) : t.StoreInv := by
  rcases exec_next_cases he with ⟨code, data, rfl⟩ | ⟨n, j, -, hv, rfl, -, -⟩ | ⟨n, -, hv, hd, -, rfl⟩ | ⟨-, hv, rfl⟩ |
    ⟨len, off, a, e, -, hview, hm, rfl⟩
  · exact h.respond _ _
  · exact (h.afterBytes n).respond _ _
  · have hc := (Regs.inv_of_valid hv).mp h.regs
    exact ((h.afterBytes n).withContext (contextInv_readDone hc hd) hv s.srcDisturbed).respond _ _
  · have hc := (Regs.inv_of_valid hv).mp h.regs
    exact (h.withContext hc.rewound hv s.srcDisturbed).respond _ _
  · exact (h.withContext (s.regs.contextInv_newContext hview hm) (s.regs.newContext_valid _ _ _ _) _).respond _ _

/-! ## The handshake -/

/-- A state with nothing in flight: what is stored, the response's code, and the empty records of a flight. -/
theorem State.StoreInv.inv_of_idle {s : State} (h : s.StoreInv) (hi : s.inflight = none)
    (hr : ∀ r, s.rsp = some r → s.regs.lastErr = r.status) (hd : s.flightDisturbed = false) (hk : s.keptIndexes = []) :
    s.Inv where
  regs := h.regs
  srcForm := h.srcForm
  srcWithin := h.srcWithin
  outForm := h.outForm
  outWithin := h.outWithin
  response := hr
  handshake := by simp [hi]
  flight := by simp [hi]
  disturbed := h.disturbed
  quiet := fun _ => ⟨hd, hk⟩
  kept := by simp [hk]

/-- A command that can wait takes its place in flight, or goes on in it (R67, R199). -/
theorem State.Inv.withFlight {s : State} (h : s.Inv) (hr : s.rsp = none) {f : Flight} (hf : f.Fits s.regs) :
    State.Inv { s with inflight := some f } where
  regs := h.regs
  srcForm := h.srcForm
  srcWithin := h.srcWithin
  outForm := h.outForm
  outWithin := h.outWithin
  response := h.response
  handshake := fun _ => hr
  flight := fun g hg => by obtain rfl := Option.some.inj hg; exact hf
  disturbed := h.disturbed
  quiet := fun hn => nomatch hn
  kept := h.kept

/-- State `s` with the input pins, the queue of commands and the outside world's plans of `t` (R60). -/
def State.withPinsOf (s t : State) : State :=
  { s with
    rstN := t.rstN
    cmds := t.cmds
    rspReady := t.rspReady
    srcAck := t.srcAck
    outAck := t.outAck
    inputs := t.inputs }

/-- The invariant looks at no pin, at no command offered and at no plan. -/
theorem State.Inv.withPinsOf {s : State} (h : s.Inv) (t : State) : (s.withPinsOf t).Inv :=
  ⟨h.regs, h.srcForm, h.srcWithin, h.outForm, h.outWithin, h.response, h.handshake, h.flight, h.disturbed, h.quiet,
    h.kept⟩

/-! ## The outside world -/

/-- What a move of the outside world can do: change pins, queue and plans, or write one index of SRC or of OUT. -/
theorem hostMove_cases (s : State) :
    s.hostMove = s.withPinsOf s.hostMove ∨
    (∃ xs, ∃ (i : Word) (c : CharCode), s.hostMove = { s with inputs := xs }.hostSrcWrite i.toNat c) ∨
    ∃ xs, ∃ (i : Word) (b : Byte), s.hostMove = { s with inputs := xs }.hostOutWrite i.toNat b := by
  unfold State.hostMove
  split
  · exact .inl rfl
  · next x xs _ =>
    cases x with
    | offer c => exact .inl rfl
    | setRspReady b => exact .inl rfl
    | setRstN b => exact .inl rfl
    | setSrcAck b => exact .inl rfl
    | setOutAck b => exact .inl rfl
    | srcWrite i c => exact .inr (.inl ⟨xs, i, c, rfl⟩)
    | outWrite i b => exact .inr (.inr ⟨xs, i, b, rfl⟩)

/-- With nothing in flight no index belongs to the buffer of a READ in flight (R196). -/
theorem inFlightBuffer_idle {s : State} (h : s.inflight = none) (i : Nat) : s.inFlightBuffer i = false := by
  simp [State.inFlightBuffer, h]

/-- With nothing in flight no index belongs to the text of a CONSTRUCT in flight (R41). -/
theorem inFlightText_idle {s : State} (h : s.inflight = none) (i : Nat) : s.inFlightText i = false := by
  simp [State.inFlightText, h]

/-- R41: a host write to SRC marks only a text that is there to be disturbed. -/
theorem State.Inv.hostSrcWrite {s : State} (h : s.Inv) {i : Nat} (hi : i < 2 ^ 32) (c : CharCode) :
    (s.hostSrcWrite i c).Inv where
  regs := h.regs
  srcForm := Memory.write_wf h.srcForm i c
  srcWithin := Memory.write_below h.srcWithin hi c
  outForm := h.outForm
  outWithin := h.outWithin
  response := h.response
  handshake := h.handshake
  flight := h.flight
  disturbed := by
    intro hd
    simp only [State.hostSrcWrite_srcDisturbed, Bool.or_eq_true, Bool.and_eq_true] at hd
    exact hd.elim h.disturbed fun hc => hc.1.2
  quiet := by
    intro hn
    obtain ⟨hd, hk⟩ := h.quiet hn
    exact ⟨by simp [hd, inFlightText_idle (show s.inflight = none from hn)], hk⟩
  kept := h.kept

/-- A host write to OUT of an index that no READ in flight owns. -/
theorem hostOutWrite_outside {s : State} {i : Nat} (h : s.inFlightBuffer i = false) (b : Byte) :
    s.hostOutWrite i b = { s with out := s.out.write i b } := by
  simp [State.hostOutWrite, h]

/-- A host write to OUT inside the buffer of the READ in flight: the index may join those kept (R196, log 8). -/
theorem hostOutWrite_inside {s : State} {i : Nat} (h : s.inFlightBuffer i = true) (b : Byte) :
    s.hostOutWrite i b = { s with
      out := s.out.write i b
      keptIndexes := if Config.hostByteKept s.draws i then s.keptIndexes ++ [i] else s.keptIndexes
      draws := s.draws + 1 } := by
  simp [State.hostOutWrite, h]

/-- R196: a host write to OUT is kept only while a READ is in flight, and only at an index that exists. -/
theorem State.Inv.hostOutWrite {s : State} (h : s.Inv) {i : Nat} (hi : i < 2 ^ 32) (b : Byte) :
    (s.hostOutWrite i b).Inv := by
  have hform := Memory.write_wf h.outForm i b
  have hwithin : Memory.Within (s.out.write i b) := Memory.write_below h.outWithin hi b
  cases hb : s.inFlightBuffer i with
  | false =>
    rw [hostOutWrite_outside hb]
    exact ⟨h.regs, h.srcForm, h.srcWithin, hform, hwithin, h.response, h.handshake, h.flight, h.disturbed, h.quiet,
      h.kept⟩
  | true =>
    rw [hostOutWrite_inside hb]
    refine ⟨h.regs, h.srcForm, h.srcWithin, hform, hwithin, h.response, h.handshake, h.flight, h.disturbed,
      fun hn => ?_, fun a ha => ?_⟩
    · simp [inFlightBuffer_idle (show s.inflight = none from hn)] at hb
    · simp only at ha
      split at ha
      · rcases List.mem_append.mp ha with ha | ha
        · exact h.kept a ha
        · obtain rfl := List.mem_singleton.mp ha
          exact hi
      · exact h.kept a ha

/-- A move of the outside world keeps the invariant. -/
theorem hostMove_inv {s : State} (h : s.Inv) : s.hostMove.Inv := by
  have hp (xs : List HostInput) : State.Inv { s with inputs := xs } := h.withPinsOf { s with inputs := xs }
  rcases hostMove_cases s with hs | ⟨xs, i, c, hs⟩ | ⟨xs, i, b, hs⟩ <;> rw [hs]
  · exact h.withPinsOf _
  · exact (hp xs).hostSrcWrite i.isLt c
  · exact (hp xs).hostOutWrite i.isLt b

/-! ## Reset and the end of a flight -/

/-- R192: reset leaves OUT alone, or every byte below the cap of a READ free. -/
theorem abandonedOut_cases (s : State) :
    s.abandonedOut = s.out ∨ ∃ n : Word, s.abandonedOut = s.out.fillBelow (Config.abandonedByte s.draws) (capOf n) := by
  unfold State.abandonedOut
  split
  · next n _ => exact .inr ⟨n, rfl⟩
  all_goals exact .inl rfl

/-- R34, R192: a reset block meets the invariant. -/
theorem enterReset_inv {s : State} (h : s.Inv) : s.enterReset.Inv := by
  have hout : s.abandonedOut.wf ∧ s.abandonedOut.Within := by
    rcases abandonedOut_cases s with ho | ⟨n, ho⟩ <;> rw [ho]
    · exact ⟨h.outForm, h.outWithin⟩
    · exact ⟨Memory.fillBelow_wf h.outForm _ _, Memory.fillBelow_below h.outWithin _ (capOf_lt n).le⟩
  have hstore : s.enterReset.StoreInv :=
    ⟨Regs.inv_reset, h.srcForm, h.srcWithin, hout.1, hout.2, fun hd => nomatch hd⟩
  exact hstore.inv_of_idle rfl (fun r hr => nomatch hr) rfl rfl

/-- R196: the end of a flight keeps the invariant, if the command itself left what is stored in order. -/
theorem settleFlight_inv {s t : State} {f : Flight} (h : s.Inv)
    (ht : settleFlight s (exec f.cmd { s with inflight := none }) = .next t) : t.Inv := by
  obtain ⟨u, hu, rfl⟩ := settleFlight_next ht
  have hstore := exec_storeInv (s := { s with inflight := none }) (h.store.of_eq rfl rfl rfl rfl) hu
  obtain ⟨r, hr, hcode⟩ := exec_responds hu
  refine State.StoreInv.inv_of_idle ⟨hstore.regs, hstore.srcForm, hstore.srcWithin, Memory.restore_wf _ hstore.outForm _,
    Memory.restore_below _ hstore.outWithin h.kept, hstore.disturbed⟩ ?_ (fun r' hr' => ?_) rfl rfl
  · exact congrArg State.inflight (exec_frame hu)
  · obtain rfl := Option.some.inj (hr.symm.trans hr')
    exact hcode

/-- A response that the host takes leaves the idle block as it is (R67). -/
theorem State.Inv.withResponseTaken {s : State} (h : s.Inv) (hi : s.inflight = none) : State.Inv { s with rsp := none } := by
  obtain ⟨hd, hk⟩ := h.quiet hi
  have hstore : State.StoreInv { s with rsp := none } := h.store.of_eq rfl rfl rfl rfl
  exact hstore.inv_of_idle hi (fun r hr => nomatch hr) hd hk

/-- A command accepted and run at once keeps the invariant. -/
theorem exec_inv {i : Instr} {s t : State} (h : s.Inv) (hi : s.inflight = none) (ht : exec i s = .next t) : t.Inv := by
  obtain ⟨hd, hk⟩ := h.quiet hi
  have hframe := exec_frame ht
  obtain ⟨r, hr, hcode⟩ := exec_responds ht
  refine (exec_storeInv h.store ht).inv_of_idle ?_ (fun r' hr' => ?_) ?_ ?_
  · exact (congrArg State.inflight hframe).trans hi
  · obtain rfl := Option.some.inj (hr.symm.trans hr')
    exact hcode
  · exact (congrArg State.flightDisturbed hframe).trans hd
  · exact (congrArg State.keptIndexes hframe).trans hk

/-! ## The step -/

/-- Settles O16: each of the nine ways a step goes is a move of the outside world, a wait, or a command that ends, and
each of these keeps the invariant. -/
theorem everyStepKeepsTheInvariant : Obligations.EveryStepKeepsTheInvariant := by
  unfold Obligations.EveryStepKeepsTheInvariant
  intro s t h ht
  rcases step_cases s with ⟨-, hs⟩ | ⟨-, f, -, -, hs⟩ | ⟨-, f, p, hi, -, hw, hs⟩ | ⟨-, f, -, -, -, hs⟩ |
    ⟨-, hi, -, -, hs⟩ | ⟨-, -, -, -, hs⟩ | ⟨-, -, -, -, hs⟩ | ⟨-, hi, hr, c, cs, p, -, hw, hs⟩ |
    ⟨-, hi, -, c, cs, -, -, hs⟩ <;> rw [hs] at ht
  · exact Host.Outcome.next.inj ht ▸ hostMove_inv (enterReset_inv h)
  · exact Host.Outcome.next.inj ht ▸ hostMove_inv h
  · exact Host.Outcome.next.inj ht ▸ h.withFlight (h.handshake (by simp [hi])) (waitsAt_fits hw)
  · exact settleFlight_inv h ht
  · exact Host.Outcome.next.inj ht ▸ h.withResponseTaken hi
  · exact Host.Outcome.next.inj ht ▸ hostMove_inv h
  · exact Host.Outcome.next.inj ht ▸ hostMove_inv h
  · exact Host.Outcome.next.inj ht ▸ (h.withPinsOf { s with cmds := cs }).withFlight hr (waitsAt_fits hw)
  · exact exec_inv (h.withPinsOf { s with cmds := cs }) hi ht

/-- Settles O15: nothing is stored at reset, and no context is there to disagree with a text. -/
theorem resetMeetsTheInvariant : Obligations.ResetMeetsTheInvariant := by
  unfold Obligations.ResetMeetsTheInvariant
  have hstore : State.reset.StoreInv :=
    ⟨Regs.inv_reset, Memory.wf_nil, List.forall_mem_nil _, Memory.wf_nil, List.forall_mem_nil _, fun hd => nomatch hd⟩
  exact ⟨hstore.inv_of_idle rfl (fun r hr => (nomatch hr)) rfl rfl, fun hv => nomatch hv⟩

/-! ## Progress -/

theorem whenConstructed_total {s : State} {k : Host.Outcome State Fault Refusal}
    (hk : s.regs.valid = true → ∃ t, k = .next t) : ∃ t, whenConstructed s k = .next t := by
  cases hv : s.regs.valid with
  | true => rw [whenConstructed_valid hv]; exact hk hv
  | false => exact ⟨_, whenConstructed_invalid hv k⟩

/-- R28, R40, R120: a READ of a block that meets R32 answers a next state. -/
theorem execRead_total {s : State} (h : s.regs.Inv) (n : Word) : ∃ t, execRead n s = .next t := by
  refine whenConstructed_total fun hv => ?_
  split
  · exact ⟨_, rfl⟩
  · rcases runOf_stop ((Regs.inv_of_valid hv).mp h) n with hs | ⟨i, hs⟩ <;> simp only [hs]
    · exact ⟨_, rfl⟩
    · exact ⟨_, rfl⟩

/-- R81, R179: every CONSTRUCT answers a next state. -/
theorem execConstruct_total (z : Bool) (len off : Word) (s : State) : ∃ t, execConstruct z len off s = .next t := by
  rcases execConstruct_cases z len off s with ⟨-, he⟩ | ⟨-, code, -, he⟩ | ⟨-, a, e, -, -, he⟩ <;> exact ⟨_, he⟩

/-- On registers that meet R32 every command answers a next state. -/
theorem exec_total {s : State} (h : s.regs.Inv) (i : Instr) : ∃ t, exec i s = .next t := by
  cases i with
  | construct z len off => exact execConstruct_total z len off s
  | read n => exact execRead_total h n
  | length => exact whenConstructed_total fun _ => ⟨_, rfl⟩
  | position => exact whenConstructed_total fun _ => ⟨_, rfl⟩
  | rewind => exact whenConstructed_total fun _ => ⟨_, rfl⟩
  | setpos v => exact whenConstructed_total fun _ => by split <;> exact ⟨_, rfl⟩
  | write => exact whenConstructed_total fun _ => ⟨_, rfl⟩
  | seek => exact whenConstructed_total fun _ => ⟨_, rfl⟩
  | setlen => exact whenConstructed_total fun _ => ⟨_, rfl⟩
  | peek r => exact ⟨_, rfl⟩
  | illegal c => exact ⟨_, rfl⟩

/-- A step from a state that meets the invariant answers a next state: its commands do, and nothing else can stop it. -/
theorem step_total {s : State} (h : s.Inv) : ∃ t, step s = .next t := by
  rcases step_cases s with ⟨-, hs⟩ | ⟨-, f, -, -, hs⟩ | ⟨-, f, p, -, -, -, hs⟩ | ⟨-, f, -, -, -, hs⟩ |
    ⟨-, -, -, -, hs⟩ | ⟨-, -, -, -, hs⟩ | ⟨-, -, -, -, hs⟩ | ⟨-, -, -, c, cs, p, -, -, hs⟩ |
    ⟨-, -, -, c, cs, -, -, hs⟩
  · exact ⟨_, hs⟩
  · exact ⟨_, hs⟩
  · exact ⟨_, hs⟩
  · obtain ⟨u, hu⟩ := exec_total (s := { s with inflight := none }) h.regs f.cmd
    exact ⟨_, by rw [hs, hu]; rfl⟩
  · exact ⟨_, hs⟩
  · exact ⟨_, hs⟩
  · exact ⟨_, hs⟩
  · exact ⟨_, hs⟩
  · obtain ⟨u, hu⟩ := exec_total (s := { s with cmds := cs }) h.regs (decode c)
    exact ⟨u, hs.trans hu⟩

/-- Settles O18: a step that answers a next state raises no fault. -/
theorem noStepLeavesTheSource : Obligations.NoStepLeavesTheSource := by
  unfold Obligations.NoStepLeavesTheSource
  intro s h
  obtain ⟨t, ht⟩ := step_total h
  exact ⟨fun f hf => by simp [ht] at hf, t, ht⟩

end Sys2Proof.Machine
end

section

/-! Every step keeps an undisturbed context in agreement with its text (spec/10_state.md R27, spec/20_memory.md R41,
spec/40_construct.md R84, R87, R89). -/

namespace Sys2Proof.Machine

/-- R87: the padding count looks at the last two characters alone. -/
theorem paddingOf_congr {rd rd' : Nat → CharCode} {e : Nat} (h1 : rd (e - 1) = rd' (e - 1)) (h2 : rd (e - 2) = rd' (e - 2)) :
    paddingOf rd e = paddingOf rd' e := by
  simp only [paddingOf, h1, h2]

/-- The agreement looks at VALID, the content's registers, SRC and the mark of a disturbed context: not at cursor, position
and LAST_ERR. -/
theorem State.ContextMatchesSource.of_frame {s t : State} (h : s.ContextMatchesSource)
    (hregs : t.regs = { s.regs with
      lastErr := t.regs.lastErr
      sourceCursor := t.regs.sourceCursor
      decodedPosition := t.regs.decodedPosition })
    (hsrc : t.src = s.src) (hd : t.srcDisturbed = s.srcDisturbed) : t.ContextMatchesSource := by
  unfold State.ContextMatchesSource
  rw [hregs, hsrc, hd]
  exact h

/-- Without VALID there is no agreement to keep. -/
theorem contextMatchesSource_of_not_valid {s : State} (h : s.regs.valid = false) : s.ContextMatchesSource :=
  fun hv => absurd hv (by simp [h])

/-! ## The commands -/

/-- R41: a text that the host has not changed since the CONSTRUCT began is read from SRC. -/
theorem srcReadNew_undisturbed {s : State} (h : s.flightDisturbed = false) : s.srcReadNew = s.src.read := by
  funext i
  simp [State.srcReadNew, h]

/-- R84, R87, R89: a context made from characters of SRC agrees with them. -/
theorem newContext_matches {s : State} {r : Regs} {len : Word} {off a e : Nat}
    (hv : TrimmedView s.src.read len.toNat off a e) (hm : (e - a) % 4 = 0)
    (hr : s.regs = { r.newContext s.src.read len a e with lastErr := s.regs.lastErr }) : s.ContextMatchesSource := by
  intro _ _
  have hlen : s.regs.contentLen = e - a := by
    rw [hr]
    exact Regs.contentLen_newContext r hv hm
  have hinit : s.regs.initialCursor.toNat = a := by
    rw [hr]
    exact Word.toNat_ofNat hv.start_lt
  have hend : a + (e - a) = e := by
    have := hv.nonempty
    omega
  rw [hlen, hinit, hend]
  refine ⟨hv.first, hv.last, ?_⟩
  rw [hr]
  rfl

/-- A command keeps the agreement: CONSTRUCT makes a context from its text, and the others write neither the content's
registers nor SRC. -/
theorem exec_matches {i : Instr} {s t : State} (h : s.ContextMatchesSource) (he : exec i s = .next t) :
    t.ContextMatchesSource := by
  rcases construct_or_not i with ⟨z, len, off, rfl⟩ | hi
  · rcases construct_next_cases he with ⟨code, -, rfl⟩ | ⟨a, e, hv, hm, rfl⟩
    · exact h.of_frame rfl rfl rfl
    · intro hvalid hd
      have hread := srcReadNew_undisturbed (s := s) hd
      rw [hread] at hv
      exact newContext_matches hv hm (by rw [hread]; rfl) hvalid hd
  · have hframe := exec_frame_of_not_construct hi he
    exact h.of_frame (congrArg State.regs hframe :) (congrArg State.src hframe :) (congrArg State.srcDisturbed hframe :)

/-! ## The outside world -/

/-- R41: a host write to SRC that disturbs no context leaves every character of the context's text as it reads. -/
theorem hostSrcWrite_undisturbed {s : State} (hwf : s.src.wf) (hv : s.regs.valid = true) {i : Nat} {c : CharCode}
    (hd : (s.hostSrcWrite i c).srcDisturbed = false) :
    s.srcDisturbed = false ∧ ∀ j < s.regs.srcLen.toNat, (s.src.write i c).read j = s.src.read j := by
  simp only [State.hostSrcWrite_srcDisturbed, hv, Bool.or_eq_false_iff, Bool.and_true, Bool.and_eq_false_iff,
    decide_eq_false_iff_not, ne_eq, not_not] at hd
  obtain ⟨hold, hsame⟩ := hd
  refine ⟨hold, fun j hj => ?_⟩
  by_cases hji : j = i
  · subst hji
    rw [Memory.read_write_same hwf]
    exact hsame.resolve_right (not_not.mpr hj)
  · exact Memory.read_write_other _ _ hji

/-- R41: a host write to SRC keeps the agreement, or marks the context. -/
theorem hostSrcWrite_matches {s : State} (hs : s.StoreInv) (h : s.ContextMatchesSource) (i : Nat) (c : CharCode) :
    (s.hostSrcWrite i c).ContextMatchesSource := by
  intro hv hd
  simp only [State.hostSrcWrite_regs, State.hostSrcWrite_src] at hv ⊢
  obtain ⟨hold, hread⟩ := hostSrcWrite_undisturbed hs.srcForm hv hd
  obtain ⟨hfirst, hlast, hpad⟩ := h hv hold
  have hc := (Regs.inv_of_valid hv).mp hs.regs
  have hcontent := hc.content
  have hfour := hc.length.2
  refine ⟨?_, ?_, ?_⟩
  · rw [hread _ (by omega)]
    exact hfirst
  · rw [hread _ (by omega)]
    exact hlast
  · rw [hpad]
    exact paddingOf_congr (hread _ (by omega)).symm (hread _ (by omega)).symm

/-- A host write to OUT does not touch SRC, the registers or the mark. -/
theorem hostOutWrite_matches {s : State} (h : s.ContextMatchesSource) (i : Nat) (b : Byte) :
    (s.hostOutWrite i b).ContextMatchesSource := by
  cases hb : s.inFlightBuffer i with
  | false => rw [hostOutWrite_outside hb]; exact h
  | true => rw [hostOutWrite_inside hb]; exact h

/-- A move of the outside world keeps the agreement. -/
theorem hostMove_matches {s : State} (hs : s.StoreInv) (h : s.ContextMatchesSource) : s.hostMove.ContextMatchesSource := by
  rcases hostMove_cases s with hm | ⟨xs, i, c, hm⟩ | ⟨xs, i, b, hm⟩ <;> rw [hm]
  · exact h
  · exact hostSrcWrite_matches (s := { s with inputs := xs }) (hs.of_eq rfl rfl rfl rfl) h _ c
  · exact hostOutWrite_matches (s := { s with inputs := xs }) h _ b

/-! ## The step -/

/-- The end of a flight keeps the agreement, as its command does. -/
theorem settleFlight_matches {s t : State} {f : Flight} (h : s.ContextMatchesSource)
    (ht : settleFlight s (exec f.cmd { s with inflight := none }) = .next t) : t.ContextMatchesSource := by
  obtain ⟨u, hu, rfl⟩ := settleFlight_next ht
  have hm := exec_matches (s := { s with inflight := none }) h hu
  exact hm

/-- Settles O17: a step ends a command, moves the outside world after it has reset the block or not, or touches neither
registers nor SRC. -/
theorem everyStepKeepsTheContextInAgreement : Obligations.EveryStepKeepsTheContextInAgreement := by
  unfold Obligations.EveryStepKeepsTheContextInAgreement
  intro s t hs h ht
  rcases step_cases s with ⟨-, hstep⟩ | ⟨-, f, -, -, hstep⟩ | ⟨-, f, p, -, -, -, hstep⟩ | ⟨-, f, -, -, -, hstep⟩ |
    ⟨-, -, -, -, hstep⟩ | ⟨-, -, -, -, hstep⟩ | ⟨-, -, -, -, hstep⟩ | ⟨-, -, -, c, cs, p, -, -, hstep⟩ |
    ⟨-, -, -, c, cs, -, -, hstep⟩ <;> rw [hstep] at ht
  · exact Host.Outcome.next.inj ht ▸ hostMove_matches (enterReset_inv hs).store (contextMatchesSource_of_not_valid rfl)
  · exact Host.Outcome.next.inj ht ▸ hostMove_matches hs.store h
  · exact Host.Outcome.next.inj ht ▸ h
  · exact settleFlight_matches h ht
  · exact Host.Outcome.next.inj ht ▸ h
  · exact Host.Outcome.next.inj ht ▸ hostMove_matches hs.store h
  · exact Host.Outcome.next.inj ht ▸ hostMove_matches hs.store h
  · exact Host.Outcome.next.inj ht ▸ h
  · exact exec_matches (s := { s with cmds := cs }) h ht

end Sys2Proof.Machine
end

section

/-! Proofs of the memory statements (spec/20_memory.md): what a command writes of SRC and OUT (R40, R42, R43), the step that
runs it (R51, R67), and a source text that the host changes (R41). -/

namespace Sys2Proof.Machine

/-! ## The memories a command writes -/

/-- R42: only READ writes OUT. -/
theorem exec_out_of_not_read {i : Instr} {s t : State} (hi : ∀ n, i ≠ .read n) (h : exec i s = .next t) : t.out = s.out := by
  rcases exec_next_cases h with ⟨code, data, rfl⟩ | ⟨n, j, hn, -⟩ | ⟨n, hn, -⟩ | ⟨-, -, rfl⟩ |
    ⟨len, off, a, e, -, -, -, rfl⟩
  · rfl
  · exact absurd hn (hi n)
  · exact absurd hn (hi n)
  · rfl
  · rfl

/-- Settles O23: a command's frame holds SRC, the ports, the queue and the plans, and OUT is left to READ. -/
theorem commandsTouchOnlyTheirMemories : Obligations.CommandsTouchOnlyTheirMemories := by
  unfold Obligations.CommandsTouchOnlyTheirMemories
  intro i s t h
  refine ⟨?_, fun hi => exec_out_of_not_read hi h, ?_⟩ <;> rw [exec_frame h]
  exact ⟨rfl, rfl, rfl, rfl, rfl, rfl, rfl⟩

/-! ## The frame of READ -/

/-- R43, R112: a READ stores a run of bytes from OUT's beginning on, no more of them than cap, and, when it answers OK, no
more than the count it returns. -/
theorem read_out_writeRun {n : Word} {s t : State} {r : Response} (h : exec (.read n) s = .next t) (hr : t.rsp = some r) :
    ∃ bytes, t.out = s.out.writeRun 0 bytes ∧ bytes.length ≤ capOf n ∧ (r.status = .ok → bytes.length ≤ r.data.toNat) := by
  have hcap := runOf_length_le s n
  rcases execRead_next h with ⟨-, rfl⟩ | ⟨-, -, rfl⟩ | ⟨-, -, j, -, rfl⟩ | ⟨-, -, -, rfl⟩ <;>
    obtain rfl := Option.some.inj hr
  · exact ⟨[], rfl, Nat.zero_le _, fun _ => Nat.zero_le _⟩
  · exact ⟨[], rfl, Nat.zero_le _, fun _ => Nat.zero_le _⟩
  · exact ⟨_, rfl, hcap, fun hok => nomatch hok⟩
  · have hcount : (Word.ofNat (s.runOf n).out).toNat = (s.runOf n).bytes.length := by
      rw [runOf_out, Word.toNat_ofNat (hcap.trans_lt (capOf_lt n))]
    exact ⟨_, rfl, hcap, fun _ => hcount.ge⟩

/-- R112: a command that raises keeps cursor and position. -/
theorem exec_cursor_of_error {i : Instr} {s t : State} {r : Response} (h : exec i s = .next t) (hr : t.rsp = some r)
    (he : r.status ≠ .ok) :
    t.regs.sourceCursor = s.regs.sourceCursor ∧ t.regs.decodedPosition = s.regs.decodedPosition := by
  rcases exec_error_cases h hr he with ht | ⟨n, -, -, ht⟩ <;> rw [ht] <;> exact ⟨rfl, rfl⟩

/-- R13: the code of a command's response is the one it leaves in LAST_ERR. -/
theorem exec_lastErr {i : Instr} {s t : State} {r : Response} (h : exec i s = .next t) (hr : t.rsp = some r) :
    t.regs.lastErr = r.status := by
  obtain ⟨r', hr', hcode⟩ := exec_responds h
  obtain rfl := Option.some.inj (hr.symm.trans hr')
  exact hcode

/-- Settles O42: the frame of a command that is no CONSTRUCT, the frame of an error, and the run of bytes that a READ
stores. -/
theorem readFrame : Obligations.ReadFrame := by
  unfold Obligations.ReadFrame
  intro n s t r h hr
  have hframe := exec_frame_of_not_construct (i := .read n) (fun _ _ _ hc => nomatch hc) h
  have hregs : t.regs = _ := congrArg State.regs hframe
  obtain ⟨bytes, hout, hcap, hcount⟩ := read_out_writeRun h hr
  have habove (j : Nat) (hj : bytes.length ≤ j) : t.out.read j = s.out.read j := by
    rw [hout, Memory.read_writeRun_outside _ _ _ (.inr (by omega))]
  refine ⟨?_, exec_cursor_of_error h hr, ?_, fun j hj => habove j (hcap.trans hj),
    fun hok j hj => habove j ((hcount hok).trans hj)⟩
  · rw [← exec_lastErr h hr]
    exact hregs
  · rw [hregs]
    exact hframe

/-! ## The step that runs a command -/

/-- R67: an idle block out of reset takes the command at its pins. -/
theorem step_takes {s : State} {c : Command} {cs : List Command} (hr : s.rstN = true) (hi : s.inflight = none)
    (hp : s.rsp = none) (hc : s.cmds = c :: cs) : step s = beginCommand { s with cmds := cs } (decode c) := by
  rw [step_idle hr hi hp, acceptCommand_cons hc]

/-- R51: a command accepted that waits nowhere runs to its end. -/
theorem beginCommand_runs {s : State} {i : Instr} (h : waitsAt s i 0 = none) : beginCommand s i = exec i s := by
  rw [beginCommand, h]

/-- R67, R199: a command accepted that comes to wait at a port is in flight and holds its access there. -/
theorem beginCommand_waits {s : State} {i : Instr} {p : Port} (h : waitsAt s i 0 = some p) :
    beginCommand s i = .next { s with inflight := some ⟨i, p, 0⟩ } := by
  rw [beginCommand, h]

/-- Settles O8: the block takes the command, which runs to its end or waits; `withFetchWord` makes a state whose ports
answer. -/
theorem stepRunsTheDecodedCommand : Obligations.StepRunsTheDecodedCommand := by
  unfold Obligations.StepRunsTheDecodedCommand
  refine ⟨fun s c cs hr hi hp hc => ?_, fun s nbits w => ?_⟩
  · rw [step_takes hr hi hp hc]
    exact ⟨beginCommand_runs, fun p => beginCommand_waits, fun hs ho => waitsAt_acks hs ho _ _⟩
  · rw [step_takes (s := s.withFetchWord nbits w) rfl rfl rfl rfl, beginCommand_runs (waitsAt_acks rfl rfl _ _)]
    rfl

/-! ## A source text that the host changes -/

/-- R41, log 7: a READ sees free values of a disturbed text. -/
theorem srcRead_disturbed {s : State} (h : s.srcDisturbed = true) (j : Nat) :
    s.srcRead j = Config.disturbedChar s.draws j := by
  rw [State.srcRead, if_pos h]

/-- R41, log 7: a CONSTRUCT whose text was changed in its flight sees free values. -/
theorem srcReadNew_disturbed {s : State} (h : s.flightDisturbed = true) (j : Nat) :
    s.srcReadNew j = Config.disturbedChar s.draws j := by
  rw [State.srcReadNew, if_pos h]

/-- R41: the indexes of the text of the CONSTRUCT in flight. -/
theorem inFlightText_iff {s : State} {i : Nat} : s.inFlightText i = true ↔
    ∃ f len off, s.inflight = some f ∧ f.cmd = .construct false len off ∧ i < len.toNat := by
  refine ⟨inFlightText_true, fun ⟨f, len, off, hf, hc, hi⟩ => ?_⟩
  rw [inFlightText_construct hf hc, decide_eq_true hi]

/-- R41: the writes to SRC after which the context's text is disturbed. -/
theorem hostSrcWrite_srcDisturbed_iff {s : State} {i : Nat} {c : CharCode} : (s.hostSrcWrite i c).srcDisturbed = true ↔
    s.srcDisturbed = true ∨ (s.regs.valid = true ∧ i < s.regs.srcLen.toNat ∧ c ≠ s.src.read i) := by
  simp only [State.hostSrcWrite_srcDisturbed, Bool.or_eq_true, Bool.and_eq_true, decide_eq_true_eq]
  tauto

/-- R41: the writes to SRC after which the text of the CONSTRUCT in flight is disturbed. -/
theorem hostSrcWrite_flightDisturbed_iff {s : State} {i : Nat} {c : CharCode} :
    (s.hostSrcWrite i c).flightDisturbed = true ↔
      s.flightDisturbed = true ∨ (s.inFlightText i = true ∧ c ≠ s.src.read i) := by
  simp only [State.hostSrcWrite_flightDisturbed, Bool.or_eq_true, Bool.and_eq_true, decide_eq_true_eq]
  tauto

/-- Settles O47: a write to SRC sets a mark exactly when it changes a character of that text, and under a mark the reads are
free values. -/
theorem changedSourceReadsAsFreeValues : Obligations.ChangedSourceReadsAsFreeValues := by
  unfold Obligations.ChangedSourceReadsAsFreeValues
  intro s i c
  refine ⟨fun hv hi hc => ?_, fun f len off hf hcmd hi hc => ?_, fun hwf => ?_, fun hsame => ?_, fun hsame => ?_⟩
  · have hd : (s.hostSrcWrite i c).srcDisturbed = true := hostSrcWrite_srcDisturbed_iff.mpr (.inr ⟨hv, hi, hc⟩)
    exact ⟨hd, srcRead_disturbed hd⟩
  · have htext : s.inFlightText i = true := inFlightText_iff.mpr ⟨f, len, off, hf, hcmd, hi⟩
    have hd : (s.hostSrcWrite i c).flightDisturbed = true := hostSrcWrite_flightDisturbed_iff.mpr (.inr ⟨htext, hc⟩)
    exact ⟨hd, srcReadNew_disturbed hd⟩
  · exact ⟨Memory.read_write_same hwf i c, fun a ha => Memory.read_write_other s.src c ha⟩
  · rw [Bool.eq_iff_iff, hostSrcWrite_srcDisturbed_iff]
    exact or_iff_left fun ⟨hv, hi, hc⟩ => hc (hsame hv hi)
  · rw [Bool.eq_iff_iff, hostSrcWrite_flightDisturbed_iff]
    refine or_iff_left fun ⟨htext, hc⟩ => ?_
    obtain ⟨f, len, off, hf, hcmd, hi⟩ := inFlightText_iff.mp htext
    exact hc (hsame f len off hf hcmd hi)

end Sys2Proof.Machine
end

section

/-! Proofs of the encoding statements (spec/30_encoding.md R61 to R65, R68 to R70): the decoder against the encoder, the
opcode map and the illegal transactions. -/

namespace Sys2Proof

/-! ## The illegal transactions -/

/-- R64: the four causes, in the order the spec lists them. -/
theorem illegalReason_isSome_iff (c : Command) : c.illegalReason.isSome = true ↔
    (c.word.toNat % 16 = 0 ∨ 0xB ≤ c.word.toNat % 16) ∨ c.word.toNat / 32 ≠ 0 ∨
    (c.word.toNat / 16 % 2 = 1 ∧ c.word.toNat % 16 ≠ 1) ∨ (c.word.toNat % 16 = 0xA ∧ 7 < c.arg0.toNat) := by
  unfold Command.illegalReason
  split_ifs <;> simp only [Option.isSome_some, Option.isSome_none, Bool.false_eq_true, true_iff, false_iff] <;> omega

/-- R68: the checks of the decoder find every cause of R64. -/
theorem decode_of_illegalReason {c : Command} (h : c.illegalReason.isSome = true) : decode c = .illegal c := by
  rw [illegalReason_isSome_iff] at h
  unfold decode
  split_ifs with hrsv hnull
  · rfl
  · rfl
  · rw [ne_eq, not_not, rsvField_eq_zero] at hrsv
    rw [nullField_iff, opField_ne_one] at hnull
    rw [opField_toNat]
    split
    case h_10 hop =>
      have hreg : regOfNumber c.arg0 = none := regOfNumber_none.mpr (by omega)
      rw [hreg]
    case h_11 => rfl
    all_goals omega

/-- R64, R68: whatever the decoder calls ILLEGAL is so for a reason. -/
theorem decode_wellFormed (c : Command) : (decode c).wellFormed = true := by
  rcases word_cases c with h | ⟨-, hw⟩
  · rw [decode_of_illegalReason h]
    exact h
  · obtain ⟨w, a0, a1⟩ := c
    rcases hw with rfl | rfl | rfl | rfl | rfl | rfl | rfl | rfl | rfl | rfl | ⟨rfl, r, rfl⟩ <;> simp [Instr.wellFormed]

/-- R64, R68: a transaction decodes to ILLEGAL exactly when it is illegal for a reason. -/
theorem decode_eq_illegal_iff {c : Command} : decode c = .illegal c ↔ c.illegalReason.isSome = true := by
  refine ⟨fun h => ?_, decode_of_illegalReason⟩
  have hwf := decode_wellFormed c
  rwa [h] at hwf

/-- R20: a PEEK argument is the number of a register, or above 7. -/
theorem register_or_above (a : Word) : (∃ r : Reg, a = r.number) ∨ 7 < a.toNat := by
  cases h : regOfNumber a with
  | some r => exact .inl ⟨r, regOfNumber_some.mp h⟩
  | none => exact .inr (regOfNumber_none.mp h)

/-! ## Decoder and encoder -/

/-- Settles O1: each constructor's row decodes to it, and an ILLEGAL command's transaction is illegal for its reason. -/
theorem decodeOfEncodeIsTheCommand : Obligations.DecodeOfEncodeIsTheCommand := by
  unfold Obligations.DecodeOfEncodeIsTheCommand
  intro i hwf
  cases i with
  | construct nullSource len off =>
    cases nullSource with
    | false => exact decode_construct len off
    | true => exact decode_constructNull len off
  | read n => exact decode_read n 0#32
  | length => exact decode_length 0#32 0#32
  | position => exact decode_position 0#32 0#32
  | rewind => exact decode_rewind 0#32 0#32
  | setpos v => exact decode_setpos v 0#32
  | write => exact decode_write 0#32 0#32
  | seek => exact decode_seek 0#32 0#32
  | setlen => exact decode_setlen 0#32 0#32
  | peek r => exact decode_peek r 0#32
  | illegal c => exact decode_of_illegalReason hwf

/-- Settles O2: an illegal transaction is carried whole, and each word of the opcode map is the encoding's own word. -/
theorem encodeOfDecodeDropsOnlyIgnoredArguments : Obligations.EncodeOfDecodeDropsOnlyIgnoredArguments := by
  unfold Obligations.EncodeOfDecodeDropsOnlyIgnoredArguments
  intro c
  refine ⟨decode_wellFormed c, ?_⟩
  rcases word_cases c with h | ⟨-, hw⟩
  · rw [decode_of_illegalReason h]
    exact ⟨rfl, rfl⟩
  · obtain ⟨w, a0, a1⟩ := c
    rcases hw with rfl | rfl | rfl | rfl | rfl | rfl | rfl | rfl | rfl | rfl | ⟨rfl, r, rfl⟩ <;> simp [encode]

/-! ## The opcode map -/

/-- R63: mask and match of each row of the opcode map. -/
def opcodeRows : List (Word × Word) :=
  [(0xFFFFFFEF#32, 0x00000001#32), (0xFFFFFFFF#32, 0x00000002#32), (0xFFFFFFFF#32, 0x00000003#32),
    (0xFFFFFFFF#32, 0x00000004#32), (0xFFFFFFFF#32, 0x00000005#32), (0xFFFFFFFF#32, 0x00000006#32),
    (0xFFFFFFFF#32, 0x00000007#32), (0xFFFFFFFF#32, 0x00000008#32), (0xFFFFFFFF#32, 0x00000009#32),
    (0xFFFFFFFF#32, 0x0000000A#32)]

/-- The full mask looks at every bit. -/
theorem and_fullMask (w : Word) : w &&& 0xFFFFFFFF#32 = w := BitVec.and_allOnes

/-- R63: CONSTRUCT's mask leaves out bit 4, the null-source flag, alone. -/
theorem word_of_constructRow {w : Word} (h : w &&& 0xFFFFFFEF#32 = 0x1#32) : w = 0x1#32 ∨ w = 0x11#32 := by
  have hflag : w &&& 0x10#32 = if w.getLsbD 4 then 0x10#32 else 0#32 := BitVec.and_twoPow w 4
  have hw : w = 0x1#32 ||| (w &&& 0x10#32) := by
    rw [← h, ← BitVec.and_or_distrib_left]
    exact (and_fullMask w).symm
  rw [hflag] at hw
  split at hw
  · exact .inr hw
  · exact .inl hw

/-- Two rows that differ at a bit both masks look at are never selected by one word. -/
theorem rows_exclusive {w : Word} {a b : Word × Word} (hne : a.2 &&& b.1 ≠ b.2 &&& a.1) (ha : w &&& a.1 = a.2)
    (hb : w &&& b.1 = b.2) : False := by
  refine hne ?_
  rw [← ha, ← hb, BitVec.and_assoc, BitVec.and_assoc, BitVec.and_comm a.1]

/-- Rows that exclude each other and are all selected by one word are at most one. -/
theorem length_le_one_of_selected {rows : List (Word × Word)} (hrows : rows.Pairwise fun a b => a.2 &&& b.1 ≠ b.2 &&& a.1)
    {w : Word} (hsel : ∀ row ∈ rows, w &&& row.1 = row.2) : rows.length ≤ 1 := by
  match rows with
  | [] => simp
  | [_] => simp
  | a :: b :: rest =>
    have hne := List.rel_of_pairwise_cons hrows (List.mem_cons_self (a := b))
    exact (rows_exclusive hne (hsel a (by simp)) (hsel b (by simp))).elim

/-- Of rows that exclude each other a word selects at most one. -/
theorem selected_length_le_one {rows : List (Word × Word)} (hrows : rows.Pairwise fun a b => a.2 &&& b.1 ≠ b.2 &&& a.1)
    (w : Word) : (rows.filter fun row => decide (w &&& row.1 = row.2)).length ≤ 1 :=
  length_le_one_of_selected (hrows.filter _) fun _ hrow => of_decide_eq_true (List.mem_filter.mp hrow).2

/-- R63: a legal transaction's word selects a row. -/
theorem row_of_legal {c : Command} (h : c.illegalReason = none) : ∃ row ∈ opcodeRows, c.word &&& row.1 = row.2 := by
  rcases word_cases c with hsome | ⟨-, hw⟩
  · simp [h] at hsome
  · rcases hw with hw | hw | hw | hw | hw | hw | hw | hw | hw | hw | ⟨hw, -⟩ <;> rw [hw] <;> decide

/-- R63: a word that selects no row is ILLEGAL. -/
theorem decode_of_no_row {c : Command} (h : ∀ row ∈ opcodeRows, c.word &&& row.1 ≠ row.2) : decode c = .illegal c := by
  refine decode_of_illegalReason (Option.isSome_iff_ne_none.mpr fun hnone => ?_)
  obtain ⟨row, hrow, hsel⟩ := row_of_legal hnone
  exact h row hrow hsel

/-- Settles O3: the decoder on each row's words, and rows that exclude each other. -/
theorem opcodeMapSelectsTheRow : Obligations.OpcodeMapSelectsTheRow := by
  unfold Obligations.OpcodeMapSelectsTheRow
  rintro ⟨w, a0, a1⟩
  simp only [and_fullMask]
  refine ⟨fun h => ?_, ?_, ?_, ?_, ?_, ?_, ?_, ?_, ?_, ?_, decode_of_no_row (c := ⟨w, a0, a1⟩),
    selected_length_le_one (rows := opcodeRows) (by decide) w⟩
  · rcases word_of_constructRow h with rfl | rfl
    · exact decode_construct a0 a1
    · exact decode_constructNull a0 a1
  · rintro rfl; exact decode_read a0 a1
  · rintro rfl; exact decode_length a0 a1
  · rintro rfl; exact decode_position a0 a1
  · rintro rfl; exact decode_rewind a0 a1
  · rintro rfl; exact decode_setpos a0 a1
  · rintro rfl; exact decode_write a0 a1
  · rintro rfl; exact decode_seek a0 a1
  · rintro rfl; exact decode_setlen a0 a1
  · rintro rfl
    refine ⟨fun r hr => ?_, fun h => decode_badRegister h a1⟩
    obtain rfl : r.number = a0 := hr
    exact decode_peek r a1

/-- Settles O6: the decoder on the words of the map, and a null-source flag on READ's word. -/
theorem writtenOutWordsDecode : Obligations.WrittenOutWordsDecode := by
  unfold Obligations.WrittenOutWordsDecode
  exact ⟨decode_construct _ _, decode_constructNull _ _, decode_read _ _, decode_setpos _ _, decode_seek _ _,
    decode_peek .config _, decode_of_illegalReason (by decide)⟩

end Sys2Proof

namespace Sys2Proof.Machine

/-! ## What the decoded commands do -/

/-- R163: ILLEGAL answers the same whatever transaction it carries. -/
theorem exec_illegal (c : Command) (s : State) : exec (.illegal c) s = .next (s.respond .illegalCommand 0#32) := rfl

/-- Settles O4: the causes of R64, and R163's answer. -/
theorem illegalCommandsAreExactlyThese : Obligations.IllegalCommandsAreExactlyThese := by
  unfold Obligations.IllegalCommandsAreExactlyThese
  exact fun c => ⟨decode_eq_illegal_iff.trans (illegalReason_isSome_iff c), exec_illegal c⟩

/-- R65: PEEK does not look at ARG1, with a register in ARG0 or not. -/
theorem exec_decode_peek (a0 a1 : Word) (s : State) :
    exec (decode ⟨0xA#32, a0, a1⟩) s = exec (decode ⟨0xA#32, a0, 0#32⟩) s := by
  rcases register_or_above a0 with ⟨r, rfl⟩ | h
  · rw [decode_peek, decode_peek]
  · rw [decode_badRegister h, decode_badRegister h, exec_illegal, exec_illegal]

/-- Settles O5: what each word decodes to does not hold the arguments it ignores, but for a PEEK that is ILLEGAL, which
answers the same with any. -/
theorem ignoredArgumentsHaveNoEffect : Obligations.IgnoredArgumentsHaveNoEffect := by
  unfold Obligations.IgnoredArgumentsHaveNoEffect
  intro w a0 a1 s
  constructor
  · rintro (rfl | rfl | rfl)
    · rw [decode_read, decode_read]
    · rw [decode_setpos, decode_setpos]
    · exact exec_decode_peek a0 a1 s
  · rintro (rfl | rfl | rfl | rfl | rfl | rfl)
    · rw [decode_length, decode_length]
    · rw [decode_position, decode_position]
    · rw [decode_rewind, decode_rewind]
    · rw [decode_write, decode_write]
    · rw [decode_seek, decode_seek]
    · rw [decode_setlen, decode_setlen]

/-- R143: SETPOS 0 is the full rewind, on a constructed block or not. -/
theorem exec_setpos_zero (s : State) : exec (.setpos 0#32) s = exec .rewind s := by
  rw [exec, exec, execSetpos, execRewind, if_neg (not_not.mpr rfl)]

/-- Settles O7: the two words, and what both decode to do. -/
theorem setposZeroIsAnotherWordForRewind : Obligations.SetposZeroIsAnotherWordForRewind := by
  unfold Obligations.SetposZeroIsAnotherWordForRewind
  refine ⟨by decide, fun s => ?_⟩
  rw [assemble, assemble, decode_setpos, decode_rewind]
  exact exec_setpos_zero s

end Sys2Proof.Machine
end

section

/-! Proofs of the handshake statements (spec/30_encoding.md R60, R67): one command in flight or answered at a time, and
accesses held until they are acknowledged. -/

namespace Sys2Proof.Machine

/-! ## The step out of reset, by what the block is doing -/

/-- R67: with a command in flight the step goes on with it. -/
theorem step_inflight {s : State} {f : Flight} (hr : s.rstN = true) (hf : s.inflight = some f) :
    step s = continueCommand s f := by simp [step, clockStep, hr, hf]

/-- R67: with a response offered and nothing in flight the step is the response's transfer, or the wait for it. -/
theorem step_offer {s : State} {r : Response} (hr : s.rstN = true) (hi : s.inflight = none) (hp : s.rsp = some r) :
    step s = offerResponse s := by simp [step, clockStep, hr, hi, hp]

/-- R67: without the acknowledge of the access that the command in flight holds, only the outside world moves. -/
theorem step_held {s : State} {f : Flight} (hr : s.rstN = true) (hf : s.inflight = some f) (ha : s.acks f.hold = false) :
    step s = .next s.hostMove := by
  rw [step_inflight hr hf, continueCommand, if_neg (Bool.eq_false_iff.mp ha)]

/-- R67, R190: the block is ready exactly when it is idle out of reset. -/
theorem cmdReady_iff {s : State} : s.cmdReady = true ↔ s.rstN = true ∧ s.inflight = none ∧ s.rsp = none := by
  simp [State.cmdReady, and_assoc]

/-- R67: a response offered means that nothing is in flight. -/
theorem State.Inv.inflight_of_rsp {s : State} (h : s.Inv) {r : Response} (hp : s.rsp = some r) : s.inflight = none := by
  cases hf : s.inflight with
  | none => rfl
  | some f => simp [h.handshake (by simp [hf])] at hp

/-! ## Commands taken, and commands offered -/

/-- R51, R67: a command that completes takes no other from the pins, and with none in flight it leaves none. -/
theorem exec_handshake {i : Instr} {s t : State} (hi : s.inflight = none) (h : exec i s = .next t) :
    t.cmds = s.cmds ∧ t.inflight = none ∧ t.rsp.isSome = true := by
  have hframe := exec_frame h
  obtain ⟨r, hrsp, -⟩ := exec_responds h
  exact ⟨(congrArg State.cmds hframe :), (congrArg State.inflight hframe).trans hi,
    Option.isSome_iff_exists.mpr ⟨r, hrsp⟩⟩

/-- R67: a command accepted is in flight or answered, one of the two. -/
theorem beginCommand_handshake {i : Instr} {s t : State} (hi : s.inflight = none) (hp : s.rsp = none)
    (h : beginCommand s i = .next t) :
    t.cmds = s.cmds ∧ t.cmdReady = false ∧ (t.rsp.isSome = true ↔ t.inflight.isSome = false) := by
  cases hw : waitsAt s i 0 with
  | some p =>
    rw [beginCommand_waits hw] at h
    obtain rfl := Host.Outcome.next.inj h
    exact ⟨rfl, by simp [State.cmdReady], by simp [hp]⟩
  | none =>
    rw [beginCommand_runs hw] at h
    obtain ⟨hcmds, hnone, hrsp⟩ := exec_handshake hi h
    exact ⟨hcmds, by simp [State.cmdReady, hnone, hrsp], by simp [hnone, hrsp]⟩

/-- R67: a step with a command in flight takes no command, and leaves that one in flight or answered. -/
theorem step_inflight_handshake {s t : State} {f : Flight} (hr : s.rstN = true) (hf : s.inflight = some f)
    (hp : s.rsp = none) (h : step s = .next t) :
    (t.cmds = s.cmds ∨ ∃ c, t.cmds = s.cmds ++ [c]) ∧
    ((∃ f', t.inflight = some f' ∧ f'.cmd = f.cmd ∧ t.rsp = none) ∨ (t.inflight = none ∧ t.rsp.isSome = true)) := by
  cases ha : s.acks f.hold with
  | false =>
    obtain rfl := Host.Outcome.next.inj ((step_held hr hf ha).symm.trans h)
    obtain ⟨-, hrsp, hinfl⟩ := hostMove_fixed s
    exact ⟨hostMove_cmds s, .inl ⟨f, hinfl.trans hf, rfl, hrsp.trans hp⟩⟩
  | true =>
    rw [step_inflight hr hf, continueCommand, if_pos ha, resumeCommand] at h
    split at h
    · obtain rfl := Host.Outcome.next.inj h
      exact ⟨.inl rfl, .inl ⟨_, rfl, rfl, hp⟩⟩
    · obtain ⟨u, hu, rfl⟩ := settleFlight_next h
      obtain ⟨hcmds, hdone⟩ := exec_handshake (s := { s with inflight := none }) rfl hu
      exact ⟨.inl hcmds, .inr hdone⟩

/-- R67: a response offered transfers when the host is ready; until then only the outside world moves. -/
theorem step_offer_cases {s t : State} {r : Response} (hr : s.rstN = true) (hi : s.inflight = none) (hp : s.rsp = some r)
    (h : step s = .next t) :
    (s.rspReady = true ∧ t = { s with rsp := none }) ∨ (s.rspReady = false ∧ t = s.hostMove) := by
  rw [step_offer hr hi hp, offerResponse] at h
  split at h
  · next hready => exact .inl ⟨hready, (Host.Outcome.next.inj h).symm⟩
  · next hready => exact .inr ⟨Bool.eq_false_iff.mpr hready, (Host.Outcome.next.inj h).symm⟩

/-- R67: a step of a block that is not ready takes no command; the host may offer one more. -/
theorem step_cmds_of_not_ready {s t : State} (hs : s.Inv) (hr : s.rstN = true) (hc : s.cmdReady = false)
    (h : step s = .next t) : t.cmds = s.cmds ∨ ∃ c, t.cmds = s.cmds ++ [c] := by
  cases hf : s.inflight with
  | some f => exact (step_inflight_handshake hr hf (hs.handshake (by simp [hf])) h).1
  | none =>
    cases hp : s.rsp with
    | none => simp [State.cmdReady, hr, hf, hp] at hc
    | some r =>
      rcases step_offer_cases hr hf hp h with ⟨-, rfl⟩ | ⟨-, rfl⟩
      · exact .inl rfl
      · exact hostMove_cmds s

/-- Settles O9: the block is idle, has a command in flight or offers a response, and the step's rule for each. -/
theorem oneResponseForEachCommand : Obligations.OneResponseForEachCommand := by
  unfold Obligations.OneResponseForEachCommand
  intro s t hs h
  refine ⟨fun hc c cs hcmds => ?_, fun hr hc => step_cmds_of_not_ready hs hr hc h, fun hr f hf => ?_,
    fun hr r hp => ?_, fun hr => ?_⟩
  · obtain ⟨hr, hi, hp⟩ := cmdReady_iff.mp hc
    rw [step_takes hr hi hp hcmds] at h
    exact beginCommand_handshake (s := { s with cmds := cs }) hi hp h
  · exact (step_inflight_handshake hr hf (hs.handshake (by simp [hf])) h).2
  · have hi := hs.inflight_of_rsp hp
    rcases step_offer_cases hr hi hp h with ⟨hready, rfl⟩ | ⟨hready, rfl⟩
    · exact ⟨by simp [hready], fun _ => ⟨rfl, cmdReady_iff.mpr ⟨hr, hi, rfl⟩⟩⟩
    · exact ⟨fun _ => (hostMove_fixed s).2.1.trans hp, by simp [hready]⟩
  · simp [State.rspValid, hr, Option.isSome_iff_exists]

/-! ## Accesses held -/

/-- R60, R190: `src_req` is a SRC access held out of reset. -/
theorem srcReq_iff {s : State} : s.srcReq = true ↔ s.rstN = true ∧ ∃ f, s.inflight = some f ∧ f.hold = .src := by
  cases hf : s.inflight with
  | none => simp [State.srcReq, hf]
  | some f => simp [srcReq_inflight hf]

/-- R60, R190: `out_we` is an OUT access held out of reset. -/
theorem outWe_iff {s : State} : s.outWe = true ↔ s.rstN = true ∧ ∃ f, s.inflight = some f ∧ f.hold = .out := by
  cases hf : s.inflight with
  | none => simp [State.outWe, hf]
  | some f => simp [outWe_inflight hf]

/-- R67: without its port's acknowledge an access is still held after a step; nothing is answered and no register changes. -/
theorem step_keeps_access {s t : State} {f : Flight} (hr : s.rstN = true) (hf : s.inflight = some f)
    (ha : s.acks f.hold = false) (h : step s = .next t) :
    t.inflight = s.inflight ∧ t.rsp = s.rsp ∧ t.regs = s.regs := by
  obtain rfl := Host.Outcome.next.inj ((step_held hr hf ha).symm.trans h)
  obtain ⟨hregs, hrsp, hinfl⟩ := hostMove_fixed s
  exact ⟨hinfl, hrsp, hregs⟩

/-- Settles O56: the request of a port is the access held there, which a step keeps; out of reset the request follows. -/
theorem accessesAreHeldUntilAcknowledged : Obligations.AccessesAreHeldUntilAcknowledged := by
  unfold Obligations.AccessesAreHeldUntilAcknowledged
  refine fun s => ⟨srcReq_iff, outWe_iff, fun t h => ⟨fun hreq ha => ?_, fun hreq ha => ?_⟩⟩
  · obtain ⟨hr, f, hf, hhold⟩ := srcReq_iff.mp hreq
    obtain ⟨hinfl, hrsp, hregs⟩ := step_keeps_access hr hf (by rw [hhold]; exact ha) h
    exact ⟨hinfl, hrsp, hregs, fun hr' => srcReq_iff.mpr ⟨hr', f, hinfl.trans hf, hhold⟩⟩
  · obtain ⟨hr, f, hf, hhold⟩ := outWe_iff.mp hreq
    obtain ⟨hinfl, hrsp, hregs⟩ := step_keeps_access hr hf (by rw [hhold]; exact ha) h
    exact ⟨hinfl, hrsp, hregs, fun hr' => outWe_iff.mpr ⟨hr', f, hinfl.trans hf, hhold⟩⟩

end Sys2Proof.Machine
end

section

/-! Proofs of the CONSTRUCT statements (spec/40_construct.md R80 to R95): how it answers each kind of source, the context it
makes, and what that context does not depend on. -/

namespace Sys2Proof.Machine

/-! ## The kinds of source -/

/-- R82, R85: the sources in which CONSTRUCT finds nothing to decode: null, empty, of whitespace alone, or of whitespace
alone from an in-range offset on. -/
def NothingToDecode (rd : Nat → CharCode) (z : Bool) (len off : Word) : Prop :=
  z = true ∨ len = 0#32 ∨ (∀ j < len.toNat, isWs (rd j) = true) ∨
    (off.toNat ≤ len.toNat ∧ ∀ j, off.toNat ≤ j → j < len.toNat → isWs (rd j) = true)

/-- R81, R179: a source holds nothing to decode, or has its offset beyond a text that is not all whitespace, or has a trimmed
view. -/
theorem construct_source_cases (rd : Nat → CharCode) (z : Bool) (len off : Word) :
    NothingToDecode rd z len off ∨
    (z = false ∧ len.toNat < off.toNat ∧ ∃ j < len.toNat, isWs (rd j) = false) ∨
    (z = false ∧ ∃ a e, TrimmedView rd len.toNat off.toNat a e) := by
  cases z with
  | true => exact .inl (.inl rfl)
  | false =>
    rcases Nat.lt_or_ge len.toNat off.toNat with hoff | hoff
    · by_cases hall : ∀ j < len.toNat, isWs (rd j) = true
      · exact .inl (.inr (.inr (.inl hall)))
      · exact .inr (.inl ⟨rfl, hoff, by simpa using hall⟩)
    · rcases trimmedView_or_blank rd hoff with hv | hblank
      · exact .inr (.inr ⟨rfl, hv⟩)
      · exact .inl (.inr (.inr (.inr ⟨hoff, hblank⟩)))

/-- R93: whether there is something to decode is a matter of the text's own characters. -/
theorem NothingToDecode.congr {rd rd' : Nat → CharCode} {z : Bool} {len off : Word}
    (hrd : ∀ j < len.toNat, rd j = rd' j) (h : NothingToDecode rd z len off) : NothingToDecode rd' z len off := by
  rcases h with hz | hlen | hall | ⟨hoff, hblank⟩
  · exact .inl hz
  · exact .inr (.inl hlen)
  · exact .inr (.inr (.inl fun j hj => hrd j hj ▸ hall j hj))
  · exact .inr (.inr (.inr ⟨hoff, fun j h1 hj => hrd j hj ▸ hblank j h1 hj⟩))

/-- R84, R93: the trimmed view is a matter of the text's own characters. -/
theorem TrimmedView.congr {rd rd' : Nat → CharCode} {len off a e : Nat} (hrd : ∀ j < len, rd j = rd' j)
    (h : TrimmedView rd len off a e) : TrimmedView rd' len off a e := by
  have hlt := h.nonempty
  have hstop := h.stop
  refine ⟨h.start, hlt, hstop, fun j h1 h2 => ?_, fun j h1 h2 => ?_, ?_, ?_⟩
  · exact hrd j (by omega) ▸ h.leading j h1 h2
  · exact hrd j h2 ▸ h.trailing j h1 h2
  · exact hrd a (by omega) ▸ h.first
  · exact hrd (e - 1) (by omega) ▸ h.last

/-! ## The answer for each kind -/

/-- R82, R85, R171: with nothing to decode CONSTRUCT answers EmptyInput. -/
theorem exec_construct_nothing {z : Bool} {len off : Word} {s : State} (h : NothingToDecode s.srcReadNew z len off) :
    exec (.construct z len off) s = .next (s.respond .emptyInput 0#32) := by
  by_cases hnull : z = true ∨ len = 0#32
  · exact execConstruct_null hnull
  · obtain ⟨hz, hlen⟩ := not_or.mp hnull
    obtain rfl : z = false := Bool.eq_false_iff.mpr hz
    by_cases hall : ∀ j < len.toNat, isWs (s.srcReadNew j) = true
    · exact execConstruct_blank hlen hall
    · obtain ⟨hoff, hblank⟩ := ((h.resolve_left hz).resolve_left hlen).resolve_left hall
      obtain ⟨i, hi, hws⟩ : ∃ i < len.toNat, isWs (s.srcReadNew i) = false := by simpa using hall
      exact execConstruct_blankView hi hws hoff hblank

/-- R83, R177: an offset beyond a text that is not all whitespace. -/
theorem exec_construct_offset {len off : Word} {s : State} (hoff : len.toNat < off.toNat)
    (h : ∃ j < len.toNat, isWs (s.srcReadNew j) = false) :
    exec (.construct false len off) s = .next (s.respond .offsetOutOfRange 0#32) := by
  obtain ⟨j, hj, hws⟩ := h
  exact execConstruct_offset hj hws hoff

/-- R86, R172: a trimmed view of a length that is no multiple of 4. -/
theorem exec_construct_malformed {len off : Word} {s : State} {a e : Nat}
    (hv : TrimmedView s.srcReadNew len.toNat off.toNat a e) (hm : (e - a) % 4 ≠ 0) :
    exec (.construct false len off) s = .next (s.respond .malformedLength 0#32) := by
  rw [exec, execConstruct_view hv, if_pos hm]

/-- R87 to R89: a trimmed view of whole quartets. -/
theorem exec_construct_view {len off : Word} {s : State} {a e : Nat}
    (hv : TrimmedView s.srcReadNew len.toNat off.toNat a e) (hm : (e - a) % 4 = 0) :
    exec (.construct false len off) s =
      .next ({ s with regs := s.regs.newContext s.srcReadNew len a e, srcDisturbed := s.flightDisturbed }.respond
        .ok (Word.ofNat (3 * ((e - a) / 4) - (paddingOf s.srcReadNew e).toNat))) := by
  rw [exec, execConstruct_view hv, if_neg (not_not.mpr hm)]

/-- R93, R199: a null or an empty source needs no SRC access. -/
theorem needsSource_construct_null {z : Bool} {len : Word} (h : z = true ∨ len = 0#32) (s : State) (off : Word) (d : Nat) :
    needsSource s (.construct z len off) d = false := by
  rcases h with rfl | rfl <;> simp [needsSource]

/-- Settles O25: every cause is a source with nothing to decode, and the null and the empty one need no access. -/
theorem constructEmptyInput : Obligations.ConstructEmptyInput := by
  unfold Obligations.ConstructEmptyInput
  exact fun z len off s h => ⟨exec_construct_nothing h, fun hnull => needsSource_construct_null hnull s off⟩

/-- Settles O26: the text's character that is no whitespace passes the test of R82, and the offset fails that of R83. -/
theorem constructOffsetOutOfRange : Obligations.ConstructOffsetOutOfRange := by
  unfold Obligations.ConstructOffsetOutOfRange
  exact fun len off s j hj hws hoff => exec_construct_offset hoff ⟨j, hj, hws⟩

/-- Settles O27: the trimmed view passes every test before that of R86. -/
theorem constructMalformedLength : Obligations.ConstructMalformedLength := by
  unfold Obligations.ConstructMalformedLength
  exact fun len off s a e hv hm => exec_construct_malformed hv hm

/-! ## The context -/

/-- R87: the padding count as a number. -/
theorem toNat_paddingOf (rd : Nat → CharCode) (e : Nat) : (paddingOf rd e).toNat =
    if rd (e - 1) = 0x3D#16 ∧ rd (e - 2) = 0x3D#16 then 2 else if rd (e - 1) = 0x3D#16 then 1 else 0 := by
  rw [paddingOf, apply_ite BitVec.toNat, apply_ite BitVec.toNat]
  rfl

/-- R88: a view of whole quartets decodes to at least one byte, and to fewer than 2^32. -/
theorem TrimmedView.decodedLength_bounds {rd : Nat → CharCode} {len : Word} {off a e : Nat}
    (hv : TrimmedView rd len.toNat off a e) (hm : (e - a) % 4 = 0) :
    1 ≤ 3 * ((e - a) / 4) - (paddingOf rd e).toNat ∧ 3 * ((e - a) / 4) - (paddingOf rd e).toNat < 2 ^ 32 := by
  have hp := paddingOf_le rd e
  have hlt := hv.nonempty
  have hstop := hv.stop
  omega

/-- Settles O28: the registers are those of a new context over the view, which meets R32. -/
theorem constructMakesTheContext : Obligations.ConstructMakesTheContext := by
  unfold Obligations.ConstructMakesTheContext
  intro len off s a e p hv hm hp
  obtain rfl : p = (paddingOf s.srcReadNew e).toNat := hp.trans (toNat_paddingOf _ e).symm
  obtain ⟨hone, hlt⟩ := hv.decodedLength_bounds hm
  refine ⟨hone, hlt, Regs.newContext { s.regs with lastErr := .ok } s.srcReadNew len a e, ?_,
    Regs.contextInv_newContext _ hv hm, Regs.contentLen_newContext _ hv hm, exec_construct_view hv hm⟩
  rw [BitVec.ofNat_toNat, BitVec.setWidth_eq]
  rfl

/-- Settles O29: a CONSTRUCT that raises does nothing but respond. -/
theorem failedConstructKeepsTheContext : Obligations.FailedConstructKeepsTheContext := by
  unfold Obligations.FailedConstructKeepsTheContext
  intro z len off s
  obtain ⟨t, ht⟩ := execConstruct_total z len off s
  rcases construct_next_cases ht with ⟨code, -, rfl⟩ | ⟨a, e, -, -, rfl⟩
  · exact ⟨_, _, ht, rfl, fun _ => rfl⟩
  · exact ⟨_, _, ht, rfl, fun hne => absurd rfl hne⟩

/-! ## What the context depends on -/

/-- R92: but for LAST_ERR, nothing of the old registers is in a new context. -/
theorem Regs.newContext_congr (r r' : Regs) {rd rd' : Nat → CharCode} {e : Nat} (hp : paddingOf rd e = paddingOf rd' e)
    (len : Word) (a : Nat) (code : StatusCode) :
    { r.newContext rd len a e with lastErr := code } = { r'.newContext rd' len a e with lastErr := code } := by
  simp only [Regs.newContext, hp]

/-- R40, R92, R93: on texts of the same characters a CONSTRUCT answers the same, and what it makes is the same. -/
theorem exec_construct_congr {s s' : State} {len : Word} (z : Bool) (off : Word)
    (hrd : ∀ j < len.toNat, s.srcReadNew j = s'.srcReadNew j) :
    ∃ t t', exec (.construct z len off) s = .next t ∧ exec (.construct z len off) s' = .next t' ∧ t'.rsp = t.rsp ∧
      (t.regs.lastErr = .ok → t'.regs = t.regs) := by
  rcases construct_source_cases s.srcReadNew z len off with h | ⟨rfl, hoff, j, hj, hws⟩ | ⟨rfl, a, e, hv⟩
  · exact ⟨_, _, exec_construct_nothing h, exec_construct_nothing (h.congr hrd), rfl, nofun⟩
  · exact ⟨_, _, exec_construct_offset hoff ⟨j, hj, hws⟩, exec_construct_offset hoff ⟨j, hj, hrd j hj ▸ hws⟩, rfl, nofun⟩
  · have hv' := hv.congr hrd
    by_cases hm : (e - a) % 4 = 0
    · have hlt := hv.nonempty
      have hstop := hv.stop
      have hp : paddingOf s.srcReadNew e = paddingOf s'.srcReadNew e :=
        paddingOf_congr (hrd _ (by omega)) (hrd _ (by omega))
      refine ⟨_, _, exec_construct_view hv hm, exec_construct_view hv' hm, ?_, fun _ => ?_⟩
      · rw [State.respond_rsp, State.respond_rsp, hp]
      · exact Regs.newContext_congr s'.regs s.regs hp.symm len a .ok
    · exact ⟨_, _, exec_construct_malformed hv hm, exec_construct_malformed hv' hm, rfl, nofun⟩

/-- Settles O30: undisturbed, CONSTRUCT reads SRC, and the two texts agree. -/
theorem constructDependsOnItsTextAlone : Obligations.ConstructDependsOnItsTextAlone := by
  unfold Obligations.ConstructDependsOnItsTextAlone
  intro z len off s s' t r hd hd' hsrc ht hr
  have hrd : ∀ j < len.toNat, s.srcReadNew j = s'.srcReadNew j := by
    rw [srcReadNew_undisturbed hd, srcReadNew_undisturbed hd']
    exact hsrc
  obtain ⟨u, t', hu, ht', hrsp, hregs⟩ := exec_construct_congr z off hrd
  obtain rfl := Host.Outcome.next.inj (hu.symm.trans ht)
  obtain ⟨r', hr', hcode⟩ := exec_responds hu
  obtain rfl := Option.some.inj (hr'.symm.trans hr)
  exact ⟨t', ht', hrsp.trans hr, fun hok => hregs (hcode.trans hok)⟩

/-! ## Whitespace and offset -/

/-- A text is held part by part. -/
theorem holdsText_append {src : Memory 16} {a : Nat} {xs ys : List CharCode} :
    HoldsText src a (xs ++ ys) ↔ HoldsText src a xs ∧ HoldsText src (a + xs.length) ys := by
  unfold HoldsText
  refine ⟨fun h => ⟨fun i hi => ?_, fun i hi => ?_⟩, fun ⟨hx, hy⟩ i hi => ?_⟩
  · rw [h i (by simp; omega), List.getElem_append_left hi]
  · rw [Nat.add_assoc, h (xs.length + i) (by simpa using hi), List.getElem_append_right (Nat.le_add_right _ _)]
    simp
  · rcases Nat.lt_or_ge i xs.length with hlt | hge
    · rw [hx i hlt, List.getElem_append_left hlt]
    · rw [List.getElem_append_right hge, ← hy (i - xs.length) (by simp at hi; omega)]
      congr 1
      omega

/-- An index inside a text held reads as one of its characters. -/
theorem HoldsText.read_mem {src : Memory 16} {a : Nat} {cs : List CharCode} (h : HoldsText src a cs) {j : Nat}
    (h1 : a ≤ j) (h2 : j < a + cs.length) : src.read j ∈ cs := by
  obtain ⟨i, rfl⟩ := Nat.exists_eq_add_of_le h1
  rw [h i (by omega)]
  exact List.getElem_mem _

/-- The character `k` before a text's end. -/
theorem HoldsText.read_from_end {src : Memory 16} {a : Nat} {cs : List CharCode} (h : HoldsText src a cs) {k : Nat}
    (h1 : 1 ≤ k) (h2 : k ≤ cs.length) : src.read (a + cs.length - k) = cs[cs.length - k] := by
  rw [Nat.add_sub_assoc h2, h]

/-- R84, R95: what is left after a skipped beginning is trimmed to the content between the whitespace. -/
theorem trimmedView_of_holdsText {src : Memory 16} {pre before content after : List CharCode}
    (hbefore : ∀ c ∈ before, isWs c = true) (hafter : ∀ c ∈ after, isWs c = true) (hne : content ≠ [])
    (hfirst : ∀ c, content.head? = some c → isWs c = false) (hlast : ∀ c, content.getLast? = some c → isWs c = false)
    (h : HoldsText src 0 (pre ++ before ++ content ++ after)) :
    TrimmedView src.read (pre ++ before ++ content ++ after).length pre.length (pre.length + before.length)
      (pre.length + before.length + content.length) := by
  simp only [holdsText_append, List.length_append, Nat.zero_add] at h
  obtain ⟨⟨⟨-, hb⟩, hc⟩, ha⟩ := h
  have hpos : 0 < content.length := List.length_pos_iff.mpr hne
  refine ⟨by omega, by omega, by simp only [List.length_append]; omega, fun j h1 h2 => ?_, fun j h1 h2 => ?_, ?_, ?_⟩
  · exact hbefore _ (hb.read_mem h1 h2)
  · exact hafter _ (ha.read_mem h1 (by simpa [Nat.add_assoc] using h2))
  · rw [← Nat.add_zero (pre.length + before.length), hc 0 hpos]
    exact hfirst _ (List.head?_eq_getElem? .. ▸ List.getElem?_eq_getElem hpos)
  · rw [hc.read_from_end le_rfl hpos]
    exact hlast _ (List.getLast?_eq_getElem? .. ▸ List.getElem?_eq_getElem (by omega))

/-- R87: the padding count of a content held in SRC, by the content's own characters. -/
theorem HoldsText.paddingOf_eq {src : Memory 16} {a : Nat} {cs : List CharCode} (h : HoldsText src a cs)
    (hlen : 2 ≤ cs.length) : paddingOf src.read (a + cs.length) = paddingOf (cs.getD · 0#16) cs.length := by
  have hlast : src.read (a + cs.length - 1) = cs.getD (cs.length - 1) 0#16 := by
    rw [h.read_from_end le_rfl (by omega), List.getD_eq_getElem]
  have hprev : src.read (a + cs.length - 2) = cs.getD (cs.length - 2) 0#16 := by
    rw [h.read_from_end (by omega) hlen, List.getD_eq_getElem]
  simp only [paddingOf, hlast, hprev]

/-- R84, R87 to R89, R95: CONSTRUCT of a text whose trimmed view is the content `cs`: only INITIAL_CURSOR depends on where
the content begins. -/
theorem exec_construct_content {s : State} {len off : Word} {a : Nat} {cs : List CharCode}
    (hd : s.flightDisturbed = false) (hv : TrimmedView s.src.read len.toNat off.toNat a (a + cs.length))
    (hc : HoldsText s.src a cs) (hm : cs.length % 4 = 0) :
    ∃ t, exec (.construct false len off) s = .next t ∧
      t.rsp = some ⟨.ok, Word.ofNat (3 * (cs.length / 4) - (paddingOf (cs.getD · 0#16) cs.length).toNat)⟩ ∧
      t.regs.decodedLength = Word.ofNat (3 * (cs.length / 4) - (paddingOf (cs.getD · 0#16) cs.length).toNat) ∧
      t.regs.paddingCount = paddingOf (cs.getD · 0#16) cs.length ∧ t.regs.initialCursor.toNat = a := by
  have hread := srcReadNew_undisturbed hd
  have hsize : a + cs.length - a = cs.length := Nat.add_sub_cancel_left ..
  have hne := hv.nonempty
  have hp := hc.paddingOf_eq (by omega)
  have hexec := exec_construct_view (s := s) (hread ▸ hv) (by rwa [hsize])
  rw [hread, hsize, hp] at hexec
  refine ⟨_, hexec, rfl, ?_, hp, Word.toNat_ofNat hv.start_lt⟩
  rw [State.respond_regs, Regs.newContext_decodedLength, hsize, hp]

/-- Settles O31: the content is the trimmed view of either text. -/
theorem whitespaceAndOffsetLaws : Obligations.WhitespaceAndOffsetLaws := by
  unfold Obligations.WhitespaceAndOffsetLaws
  intro pre before content after len off len' s s' hbefore hafter hne hm hfirst hlast hd hd' hc hlen h' hlen' hoff
  have hv : TrimmedView s.src.read len.toNat (0#32).toNat 0 (0 + content.length) := by
    have := trimmedView_of_holdsText (src := s.src) (pre := []) (before := []) (after := []) (by simp) (by simp) hne
      hfirst hlast (by simpa using hc)
    simpa [hlen] using this
  have hv' := trimmedView_of_holdsText hbefore hafter hne hfirst hlast h'
  rw [← hlen', ← hoff] at hv'
  have hc' : HoldsText s'.src (off.toNat + before.length) content := by
    have := (holdsText_append.mp (holdsText_append.mp h').1).2
    simpa [hoff] using this
  obtain ⟨t, ht, hrsp, hdec, hpad, hinit⟩ := exec_construct_content hd hv hc hm
  obtain ⟨t', ht', hrsp', hdec', hpad', hinit'⟩ := exec_construct_content hd' hv' hc' hm
  exact ⟨t, t', _, ht, ht', hrsp, hrsp', hdec, hdec', hpad'.trans hpad.symm, hinit, hoff ▸ hinit'⟩

end Sys2Proof.Machine
end

section

/-! Proofs of the datapath statements (spec/41_read.md R100 to R109, R118): the lookup table, the packer and the quartet
function. -/

namespace Sys2Proof.Machine

/-! ## The lookup table -/

/-- R101: the value of an entry as a number, by the ranges of the alphabet. -/
theorem lut_value_toNat (c : BitVec 8) : (lut c).value.toNat =
    if 0x41 ≤ c.toNat ∧ c.toNat ≤ 0x5A then c.toNat - 0x41
    else if 0x61 ≤ c.toNat ∧ c.toNat ≤ 0x7A then c.toNat - 0x47
    else if 0x30 ≤ c.toNat ∧ c.toNat ≤ 0x39 then c.toNat + 4
    else if c.toNat = 0x2B then 62
    else if c.toNat = 0x2F then 63
    else 0 := by
  simp only [lut, LutEntry.invalid]
  split_ifs <;> simp only [BitVec.toNat_ofNat] <;> omega

/-- R103: an entry that is not valid is the sentinel. -/
theorem lut_eq_invalid {c : BitVec 8} (h : (lut c).valid = false) : lut c = .invalid := by
  simp only [lut] at h ⊢
  split_ifs at h ⊢
  rfl

/-- R103: the word of a valid entry. -/
theorem LutEntry.word_of_valid {e : LutEntry} (h : e.valid = true) : e.word = 1#1 ++ e.value := by
  rw [LutEntry.word, h]
  rfl

/-- R101: how many entries are valid. -/
theorem lut_valid_count : ((List.range 256).filter (fun n => (lut (BitVec.ofNat 8 n)).valid)).length = 64 := by decide

/-- Settles O32: the ranges of the valid entries, their values by those ranges, and the sentinel everywhere else. -/
theorem lookupTableContents : Obligations.LookupTableContents := by
  unfold Obligations.LookupTableContents
  refine ⟨fun c => ⟨fun h => ?_, fun h => ?_, fun h => ?_, fun h => ?_, fun h => ?_, (lut_valid_iff c).mp, fun h => ?_,
    LutEntry.word_of_valid⟩, lut_valid_count⟩
  · exact ⟨(lut_valid_iff c).mpr (by omega), by rw [lut_value_toNat, if_pos h]⟩
  · exact ⟨(lut_valid_iff c).mpr (by omega), by rw [lut_value_toNat, if_neg (by omega), if_pos h]⟩
  · exact ⟨(lut_valid_iff c).mpr (by omega), by rw [lut_value_toNat, if_neg (by omega), if_neg (by omega), if_pos h]⟩
  · exact ⟨(lut_valid_iff c).mpr (by omega), by rw [lut_value_toNat, h]; rfl⟩
  · exact ⟨(lut_valid_iff c).mpr (by omega), by rw [lut_value_toNat, h]; rfl⟩
  · rw [lut_eq_invalid h]
    exact ⟨rfl, rfl⟩

/-! ## The packer -/

/-- R104: byte 0 in bit-slice form. -/
theorem pack_fst (b1 b2 b3 b4 : Sextet) : (pack b1 b2 b3 b4).1 = b1 ++ b2.extractLsb' 4 2 := by
  have hlow : ∀ b : Sextet, b.setWidth 8 >>> 4 = (b.extractLsb' 4 2).setWidth 8 := by decide
  rw [pack, hlow, ← BitVec.setWidth_append_eq_shiftLeft_setWidth_or, BitVec.setWidth_eq]

/-- R104: byte 1 in bit-slice form. -/
theorem pack_snd (b1 b2 b3 b4 : Sextet) : (pack b1 b2 b3 b4).2.1 = b2.extractLsb' 0 4 ++ b3.extractLsb' 2 4 := by
  have hhigh : ∀ b : Sextet, b.setWidth 8 <<< 4 = (b.extractLsb' 0 4).setWidth 8 <<< 4 := by decide
  have hlow : ∀ b : Sextet, b.setWidth 8 >>> 2 = (b.extractLsb' 2 4).setWidth 8 := by decide
  rw [pack, hhigh, hlow, ← BitVec.setWidth_append_eq_shiftLeft_setWidth_or, BitVec.setWidth_eq]

/-- R104: byte 2 in bit-slice form. -/
theorem pack_thd (b1 b2 b3 b4 : Sextet) : (pack b1 b2 b3 b4).2.2 = b3.extractLsb' 0 2 ++ b4 := by
  have hhigh : ∀ b : Sextet, b.setWidth 8 <<< 6 = (b.extractLsb' 0 2).setWidth 8 <<< 6 := by decide
  rw [pack, hhigh, ← BitVec.setWidth_append_eq_shiftLeft_setWidth_or, BitVec.setWidth_eq]

/-- R104: the source's formulas, computed on naturals and stored into 8 bits. -/
theorem pack_toNat (b1 b2 b3 b4 : Sextet) :
    (pack b1 b2 b3 b4).1.toNat = (b1.toNat <<< 2 ||| b2.toNat >>> 4) % 256 ∧
    (pack b1 b2 b3 b4).2.1.toNat = (b2.toNat <<< 4 ||| b3.toNat >>> 2) % 256 ∧
    (pack b1 b2 b3 b4).2.2.toNat = (b3.toNat <<< 6 ||| b4.toNat) % 256 := by
  have hbyte (b : Sextet) : b.toNat % 256 = b.toNat := Nat.mod_eq_of_lt (b.isLt.trans (by decide))
  have hshift (b : Sextet) (k : Nat) : (b.toNat >>> k) % 256 = b.toNat >>> k :=
    Nat.mod_eq_of_lt ((Nat.shiftRight_le _ _).trans_lt (b.isLt.trans (by decide)))
  have hor (a b : Nat) : (a ||| b) % 256 = (a % 256 ||| b % 256) := Nat.or_mod_two_pow (n := 8)
  simp [pack, hor, hbyte, hshift]

/-- R105: four lanes of 6 bits cut into three of 8 are the same 24 bits. -/
theorem append_lanes (b1 b2 b3 b4 : Sextet) :
    (b1 ++ b2.extractLsb' 4 2) ++ (b2.extractLsb' 0 4 ++ b3.extractLsb' 2 4) ++ (b3.extractLsb' 0 2 ++ b4) =
      b1 ++ b2 ++ b3 ++ b4 := by
  refine BitVec.eq_of_getLsbD_eq fun i hi => ?_
  simp only [BitVec.getLsbD_append, BitVec.getLsbD_extractLsb']
  interval_cases i <;> simp

/-- Settles O33: the formulas, the slices, and the slices put together. -/
theorem packerConvertsLanes : Obligations.PackerConvertsLanes := by
  unfold Obligations.PackerConvertsLanes
  intro b1 b2 b3 b4
  refine ⟨pack_toNat b1 b2 b3 b4, ?_, ?_⟩
  · rw [BitVec.extractLsb'_eq_self, BitVec.extractLsb'_eq_self]
    exact Prod.ext (pack_fst ..) (Prod.ext (pack_snd ..) (pack_thd ..))
  · rw [pack_fst, pack_snd, pack_thd]
    exact append_lanes b1 b2 b3 b4

/-- Settles O34: the slices that make a byte are all it depends on. -/
theorem discardedBitsHaveNoEffect : Obligations.DiscardedBitsHaveNoEffect := by
  unfold Obligations.DiscardedBitsHaveNoEffect
  intro b1 b2 b3 b4 b2' b3' b4'
  refine ⟨fun h => ?_, fun h h' => ?_⟩
  · rw [pack_fst, pack_fst, h]
  · rw [pack_snd, pack_snd, h, h']

/-! ## The quartet function -/

/-- Settles O35: the quartet is clean, or reports its first bad character. -/
theorem quartetFunction : Obligations.QuartetFunction := by
  unfold Obligations.QuartetFunction
  exact fun g rd bound cur k hb _ _ => ⟨fun h => quartet_clean hb h true, fun bad => quartet_bad hb,
    fun h => (clean_or_reportsBad rd cur k).resolve_left h⟩

/-- R118: without the alphabet check a quartet of codes below 256 always answers its bytes. -/
theorem quartet_unchecked {garbage : Nat → Byte} {rd : Nat → CharCode} {bound cur : Nat} (hb : cur + 4 ≤ bound)
    (h : ∀ i < 4, (rd (cur + i)).toNat < 256) (k : Nat) :
    quartet false garbage rd bound cur k = .good ((quartetBytes false garbage rd cur).take k) := by
  rw [quartet, if_pos hb, rangeFault_none h]
  rfl

/-- R118: byte `j` of a quartet without the alphabet check reads entries `j` and `j + 1`. -/
theorem quartetBytes_unchecked (garbage : Nat → Byte) (rd : Nat → CharCode) (cur : Nat) {j : Nat} (hj : j < 3) :
    (quartetBytes false garbage rd cur)[j]? = some
      (if (entryOf (rd (cur + j))).valid = true ∧ (entryOf (rd (cur + j + 1))).valid = true then streamByte rd cur j
      else garbage j) := by
  interval_cases j <;> simp [quartetBytes, streamByte, Nat.add_assoc]

/-- Settles O36: the bytes are the first `k` of the lanes, each by the two entries it reads. -/
theorem legacyQuartet : Obligations.LegacyQuartet := by
  unfold Obligations.LegacyQuartet
  intro g rd bound cur k hb hk h
  refine ⟨_, quartet_unchecked hb h k, by simpa [quartetBytes] using hk, fun j y hy => ?_⟩
  obtain ⟨hjk, hy⟩ : j < k ∧ (quartetBytes false g rd cur)[j]? = some y := by
    simpa only [List.getElem?_take, Option.ite_none_right_eq_some] using hy
  rw [quartetBytes_unchecked g rd cur (by omega)] at hy
  obtain rfl := Option.some.inj hy
  split <;> rfl

end Sys2Proof.Machine
end

section

/-! Proofs of the statements about one READ (spec/41_read.md R110 to R121, R124): when it raises, what it delivers, where it
stops, and what its answer depends on. -/

namespace Sys2Proof.Machine

/-! ## The preconditions -/

/-- R111: a buffer of 3 bytes or more has room for a triplet, a smaller one has none. -/
theorem capOf_eq_zero {n : Word} : capOf n = 0 ↔ n.toNat < 3 := by
  unfold capOf
  omega

/-- R113, R176: a READ on a block that is not constructed. -/
theorem exec_read_not_constructed {s : State} (hv : s.regs.valid = false) (n : Word) :
    exec (.read n) s = .next (s.respond .notConstructed 0#32) := by
  rw [exec, execRead, whenConstructed_invalid hv]

/-- R113, R174: a READ into a buffer without room for a triplet. -/
theorem exec_read_too_small {s : State} {n : Word} (hv : s.regs.valid = true) (hn : capOf n = 0) :
    exec (.read n) s = .next (s.respond .bufferTooSmall 0#32) := by
  rw [exec, execRead, whenConstructed_valid hv, if_pos hn, raise_eq]

/-- Settles O37: the two preconditions, in their order. -/
theorem readPreconditions : Obligations.ReadPreconditions := by
  unfold Obligations.ReadPreconditions
  exact fun n s => ⟨fun hv => exec_read_not_constructed hv n, fun hv hn => exec_read_too_small hv (capOf_eq_zero.mpr hn)⟩

/-! ## The two ways a READ decodes -/

/-- R113, R32: a READ that passes its preconditions, on a constructed block in order. -/
structure CanRead (s : State) (n : Word) : Prop where
  valid : s.regs.valid = true
  context : s.regs.ContextInv
  room : capOf n ≠ 0
  outForm : s.out.wf

theorem State.StoreInv.context {s : State} (h : s.StoreInv) (hv : s.regs.valid = true) : s.regs.ContextInv :=
  (Regs.inv_of_valid hv).mp h.regs

theorem State.StoreInv.canRead {s : State} (h : s.StoreInv) (hv : s.regs.valid = true) {n : Word} (hn : capOf n ≠ 0) :
    CanRead s n :=
  ⟨hv, h.context hv, hn, h.outForm⟩

theorem State.Inv.canRead {s : State} (h : s.Inv) (hv : s.regs.valid = true) {n : Word} (hn : 3 ≤ n.toNat) :
    CanRead s n :=
  h.store.canRead hv fun hz => absurd (capOf_eq_zero.mp hz) (by omega)

/-- R112, R114: every quartet in reach of a READ of `n` bytes is clean. -/
def ReachClean (s : State) (n : Word) : Prop :=
  ∀ q, s.regs.decodedPosition.toNat + 3 * q < s.regs.decodedLength.toNat → 3 * q < capOf n →
    CleanQuartet s.srcRead (s.regs.sourceCursor.toNat + 4 * q)
      (s.regs.bytesOfQuartetAt (s.regs.decodedPosition.toNat + 3 * q))

/-- R112: `q` clean quartets, then one in reach of a READ of `n` bytes that reports the index `bad`. -/
structure FirstBad (s : State) (n : Word) (q bad : Nat) : Prop where
  reach : s.regs.decodedPosition.toNat + 3 * q < s.regs.decodedLength.toNat
  room : 3 * q < capOf n
  clean : ∀ p < q, CleanQuartet s.srcRead (s.regs.sourceCursor.toNat + 4 * p)
    (s.regs.bytesOfQuartetAt (s.regs.decodedPosition.toNat + 3 * p))
  bad : ReportsBad s.srcRead (s.regs.sourceCursor.toNat + 4 * q)
    (s.regs.bytesOfQuartetAt (s.regs.decodedPosition.toNat + 3 * q)) bad

/-- R111, R179: the quartets in reach are clean, or there is a first one that is not. -/
theorem reachClean_or_firstBad (s : State) (n : Word) : ReachClean s n ∨ ∃ q bad, FirstBad s n q bad :=
  (reach_clean_or_bad s n).imp_right fun ⟨q, bad, h1, h2, h3, h4⟩ => ⟨q, bad, h1, h2, h3, h4⟩

/-- R117: the state after a READ of `n` bytes that met no bad character. -/
def State.delivered (s : State) (n : Word) : State :=
  { s.afterBytes n with
    regs := { s.regs with
      sourceCursor := Word.ofNat (s.regs.sourceCursor.toNat + 4 * ((s.regs.readCount n + 2) / 3))
      decodedPosition := Word.ofNat (s.regs.decodedPosition.toNat + s.regs.readCount n) } }.respond
    .ok (Word.ofNat (s.regs.readCount n))

/-- R112: the state after a READ of `n` bytes that met a bad character at index `bad`. -/
def State.reported (s : State) (n : Word) (bad : Nat) : State :=
  (s.afterBytes n).respond .malformedCharacter (Word.ofNat bad)

/-- R117: a READ whose run is done. -/
theorem CanRead.exec_done {s : State} {n : Word} (h : CanRead s n) (hd : (s.runOf n).stop = .done) :
    exec (.read n) s = .next (s.delivered n) := by
  rw [exec, execRead_run h.valid h.room, runOf_done h.context hd]
  rfl

/-- R114, R115: a run over clean quartets is done. -/
theorem CanRead.runOf_stop {s : State} {n : Word} (h : CanRead s n) (hc : ReachClean s n) :
    (s.runOf n).stop = .done := by
  rw [runOf_clean h.context hc]

/-- R117: a READ with every quartet in reach clean. -/
theorem CanRead.exec_clean {s : State} {n : Word} (h : CanRead s n) (hc : ReachClean s n) :
    exec (.read n) s = .next (s.delivered n) :=
  h.exec_done (h.runOf_stop hc)

/-- R112: a READ with a first bad quartet in reach. -/
theorem CanRead.exec_bad {s : State} {n : Word} {q bad : Nat} (h : CanRead s n) (hb : FirstBad s n q bad) :
    exec (.read n) s = .next (s.reported n bad) := by
  rw [exec, execRead_run h.valid h.room, (runOf_bad h.context hb.reach hb.room hb.clean hb.bad).1]
  rfl

/-- R113, R116, R117: a READ answers OK only when its run is done. -/
theorem exec_read_ok {s t : State} {n w : Word} (hs : s.StoreInv) (h : exec (.read n) s = .next t)
    (hr : t.rsp = some ⟨.ok, w⟩) : CanRead s n ∧ (s.runOf n).stop = .done ∧ t = s.delivered n := by
  rcases execRead_next h with ⟨-, rfl⟩ | ⟨-, -, rfl⟩ | ⟨-, -, j, -, rfl⟩ | ⟨hv, hn, hd, -⟩
  · cases hr
  · cases hr
  · cases hr
  · have hc := hs.canRead hv hn
    exact ⟨hc, hd, Host.Outcome.next.inj (h.symm.trans (hc.exec_done hd))⟩

/-- R11, R120, R121: what a READ returns and the registers it moves are bounded by the buffer, the content and the source. -/
theorem Regs.ContextInv.readCount_bounds {r : Regs} (h : r.ContextInv) (n : Word) :
    r.readCount n ≤ capOf n ∧ r.decodedPosition.toNat + r.readCount n ≤ r.decodedLength.toNat ∧
      r.sourceCursor.toNat + 4 * ((r.readCount n + 2) / 3) ≤ r.srcLen.toNat := by
  obtain ⟨hcur, hpos, -, -⟩ := h.at_quartet
  have hle := h.position
  have hinside := h.shape.inside
  have hlength := h.shape.length
  have hmod := r.readCount_mod n
  have hcap : r.readCount n ≤ capOf n := Nat.min_le_left _ _
  have hrest : r.readCount n ≤ r.decodedLength.toNat - r.decodedPosition.toNat := Nat.min_le_right _ _
  omega

/-! ## The bytes -/

/-- R43: a run of the stream's bytes stored at the buffer's beginning, and the rest of OUT. -/
theorem read_writeRun_streamRun {m : Memory 8} (hm : m.wf) (rd : Nat → CharCode) (init a k : Nat) :
    (∀ j < k, (m.writeRun 0 (streamRun rd init a k)).read j = streamByte rd init (a + j)) ∧
      ∀ j, k ≤ j → (m.writeRun 0 (streamRun rd init a k)).read j = m.read j := by
  refine ⟨fun j hj => ?_, fun j hj => Memory.read_writeRun_outside _ _ _ (.inr (by simpa using hj))⟩
  have h := Memory.read_writeRun_inside hm 0 (streamRun rd init a k) (j := j) (by simpa using hj)
  rw [Nat.zero_add] at h
  simpa [streamRun] using h

/-- R122: OUT after a READ that met no bad character. -/
theorem CanRead.delivered_out {s : State} {n : Word} (h : CanRead s n) (hd : (s.runOf n).stop = .done) :
    (s.delivered n).out = s.out.writeRun 0
      (streamRun s.srcRead s.regs.initialCursor.toNat s.regs.decodedPosition.toNat (s.regs.readCount n)) := by
  change s.out.writeRun 0 (s.runOf n).bytes = _
  rw [runOf_done h.context hd]

/-- R112: OUT after a READ that met a bad character behind `q` clean quartets. -/
theorem CanRead.reported_out {s : State} {n : Word} {q bad : Nat} (h : CanRead s n) (hb : FirstBad s n q bad) :
    (s.reported n bad).out = s.out.writeRun 0
      (streamRun s.srcRead s.regs.initialCursor.toNat s.regs.decodedPosition.toNat (3 * q)) := by
  change s.out.writeRun 0 (s.runOf n).bytes = _
  rw [(runOf_bad h.context hb.reach hb.room hb.clean hb.bad).2]

/-- Settles O39: the state that a READ over clean quartets delivers, and the bytes it stored. -/
theorem readDeliversTheDecodedStream : Obligations.ReadDeliversTheDecodedStream := by
  unfold Obligations.ReadDeliversTheDecodedStream
  intro n s hs hv hn hclean
  have hc := hs.canRead hv hn
  have hbytes := read_writeRun_streamRun hc.outForm s.srcRead s.regs.initialCursor.toNat s.regs.decodedPosition.toNat
    (s.regs.readCount n)
  rw [← hc.delivered_out (hc.runOf_stop hclean)] at hbytes
  exact ⟨s.delivered n, s.regs.readCount n, rfl, hc.exec_clean hclean, rfl, hbytes⟩

/-- Settles O41: a READ that answers OK has delivered, and its registers hold what it moved them to. -/
theorem bytesPerRead : Obligations.BytesPerRead := by
  unfold Obligations.BytesPerRead
  intro n s t w hs hv h hr
  obtain ⟨hc, -, rfl⟩ := exec_read_ok hs.store h hr
  obtain ⟨hcap, hpos, hcur⟩ := hc.context.readCount_bounds n
  have hlt := capOf_lt n
  obtain rfl : Word.ofNat (s.regs.readCount n) = w := congrArg Response.data (Option.some.inj hr)
  have hw : (Word.ofNat (s.regs.readCount n)).toNat = s.regs.readCount n := Word.toNat_ofNat (by omega)
  rw [hw]
  exact ⟨rfl, Word.toNat_ofNat (by omega), Word.toNat_ofNat (by omega)⟩

/-! ## End-of-stream -/

/-- R116: at end-of-stream nothing remains to read, and before it a READ with room returns something. -/
theorem CanRead.readCount_eq_zero {s : State} {n : Word} (h : CanRead s n) :
    s.regs.readCount n = 0 ↔ s.regs.decodedPosition = s.regs.decodedLength := by
  have hroom := h.room
  have hle := h.context.position
  rw [← BitVec.toNat_inj, Regs.readCount]
  omega

/-- R116: at end-of-stream no quartet is in reach. -/
theorem reachClean_at_end {s : State} (h : s.regs.decodedPosition = s.regs.decodedLength) (n : Word) :
    ReachClean s n := fun q hq _ => absurd hq (by rw [h]; omega)

/-- R116, R199: at end-of-stream a READ reads no quartet. -/
theorem CanRead.needsSource_at_end {s : State} {n : Word} (h : CanRead s n)
    (he : s.regs.decodedPosition = s.regs.decodedLength) (d : Nat) : needsSource s (.read n) d = false := by
  have hread : (s.runOf n).quartetsRead = 0 := by
    rw [runOf_clean h.context (reachClean_at_end he n), h.readCount_eq_zero.mpr he]
    simp [Run.quartetsRead, Run.quartetsGood]
  simp [needsSource, hread]

/-- R116: at end-of-stream a READ moves nothing and writes nothing. -/
theorem CanRead.delivered_at_end {s : State} {n : Word} (h : CanRead s n)
    (he : s.regs.decodedPosition = s.regs.decodedLength) :
    (s.delivered n).rsp = some ⟨.ok, 0#32⟩ ∧ (s.delivered n).out = s.out ∧
      (s.delivered n).regs = { s.regs with lastErr := .ok } := by
  have hzero := h.readCount_eq_zero.mpr he
  refine ⟨?_, ?_, ?_⟩
  · simp [State.delivered, hzero]
  · rw [h.delivered_out (h.runOf_stop (reachClean_at_end he n)), hzero]
    rfl
  · simp [State.delivered, hzero]

/-- Settles O38: a READ returns 0 exactly when nothing remains. -/
theorem readAtEndOfStream : Obligations.ReadAtEndOfStream := by
  unfold Obligations.ReadAtEndOfStream
  intro n s hs hv hn
  have hc := hs.canRead hv hn
  refine ⟨fun he => ?_, fun t h hr => ?_⟩
  · obtain ⟨hrsp, hout, hregs⟩ := hc.delivered_at_end he
    exact ⟨hc.needsSource_at_end he, _, hc.exec_clean (reachClean_at_end he n), hrsp, hout, rfl, hregs⟩
  · obtain ⟨hw, -, -⟩ := bytesPerRead n s t 0#32 hs hv h hr
    exact hc.readCount_eq_zero.mp hw.symm

/-! ## A bad character -/

/-- R106, R108: the index reported is one of the quartet's four. -/
theorem ReportsBad.exists_offset {rd : Nat → CharCode} {cur k bad : Nat} (h : ReportsBad rd cur k bad) :
    ∃ i < 4, bad = cur + i := by
  rcases h with ⟨i, hi, hbad, -⟩ | ⟨-, i, hi, -, hbad, -⟩ <;> exact ⟨i, hi, hbad⟩

/-- R28, R40: the quartets that remain lie inside the content. -/
theorem Regs.ContextInv.quartet_in_content {r : Regs} (h : r.ContextInv) {q : Nat}
    (hq : r.decodedPosition.toNat + 3 * q < r.decodedLength.toNat) :
    r.sourceCursor.toNat + 4 * q + 4 ≤ r.initialCursor.toNat + r.contentLen := by
  obtain ⟨hcur, -, -, hpos⟩ := h.at_quartet
  have hlength := h.shape.length
  have hpad := h.padding
  have hp := hpos (by omega)
  omega

/-- R112: where the first bad character stands, and the quartets before it. -/
theorem FirstBad.index {s : State} {n : Word} {q bad : Nat} (h : FirstBad s n q bad) (hc : s.regs.ContextInv) :
    (bad - s.regs.sourceCursor.toNat) / 4 = q ∧ bad < s.regs.srcLen.toNat := by
  obtain ⟨i, hi, rfl⟩ := h.bad.exists_offset
  have hin := hc.quartet_in_content h.reach
  have hcontent := hc.content
  omega

/-- Settles O40: the state that a READ with a first bad quartet reports in, and the bytes it stored. -/
theorem readReportsTheFirstBadCharacter : Obligations.ReadReportsTheFirstBadCharacter := by
  unfold Obligations.ReadReportsTheFirstBadCharacter
  intro n s q bad hs hv hreach hroom hclean hbad
  have hb : FirstBad s n q bad := ⟨hreach, hroom, hclean, hbad⟩
  have hc := hs.store.canRead hv (n := n) (Nat.ne_zero_of_lt hroom)
  obtain ⟨hq, hlt⟩ := hb.index hc.context
  have hbytes := read_writeRun_streamRun hc.outForm s.srcRead s.regs.initialCursor.toNat s.regs.decodedPosition.toNat
    (3 * q)
  rw [← hc.reported_out hb] at hbytes
  exact ⟨hq, hlt, s.reported n bad, hc.exec_bad hb, rfl, hbytes⟩

/-! ## A READ repeated -/

/-- R41: a READ of an undisturbed text reads SRC. -/
theorem srcRead_undisturbed {s : State} (h : s.srcDisturbed = false) : s.srcRead = s.src.read := by
  funext i
  simp [State.srcRead, h]

/-- The decoding does not look at LAST_ERR. -/
theorem readRun_withLastErr (rd : Nat → CharCode) (garbage : Nat → Byte) (r : Regs) (code : StatusCode)
    (cap fuel cur pos out : Nat) :
    readRun rd garbage { r with lastErr := code } cap fuel cur pos out = readRun rd garbage r cap fuel cur pos out := by
  induction fuel generalizing cur pos out with
  | zero => rfl
  | succ fuel ih =>
    simp only [readRun, ih]
    rfl

/-- R112: on an undisturbed text a READ leaves nothing changed but OUT, LAST_ERR and the response. -/
theorem reported_undisturbed {s : State} (hd : s.srcDisturbed = false) (n : Word) (bad : Nat) :
    s.reported n bad = { s with
      regs := { s.regs with lastErr := .malformedCharacter }
      rsp := some ⟨.malformedCharacter, Word.ofNat bad⟩
      out := s.out.writeRun 0 (s.runOf n).bytes } := by
  simp [State.reported, State.respond, State.afterBytes, State.countDraw, State.outWriteRun, State.readDraws, hd,
    alphabetCheck_on]

/-- R112: what it decoded, a READ repeated decodes again. -/
theorem runOf_reported {s : State} (hd : s.srcDisturbed = false) (n : Word) (bad : Nat) :
    (s.reported n bad).runOf n = s.runOf n := by
  rw [reported_undisturbed hd]
  exact readRun_withLastErr ..

/-- A run of contents stored twice is stored once. -/
theorem Memory.writeRun_writeRun {w : Nat} {m : Memory w} (hm : m.wf) (a : Nat) (vs : List (BitVec w)) :
    (m.writeRun a vs).writeRun a vs = m.writeRun a vs := by
  have hm' := Memory.writeRun_wf hm a vs
  refine Memory.ext_read (Memory.writeRun_wf hm' a vs) hm' fun i => ?_
  by_cases hi : i < a ∨ a + vs.length ≤ i
  · exact Memory.read_writeRun_outside _ _ _ hi
  · obtain ⟨j, rfl⟩ := Nat.exists_eq_add_of_le (show a ≤ i by omega)
    rw [Memory.read_writeRun_inside hm' a vs (by omega), Memory.read_writeRun_inside hm a vs (by omega)]

/-- R112, R181: a READ repeated reports in the state it is in. -/
theorem reported_reported {s : State} (hm : s.out.wf) (hd : s.srcDisturbed = false) (n : Word) (bad : Nat) :
    (s.reported n bad).reported n bad = s.reported n bad := by
  have hd' : (s.reported n bad).srcDisturbed = false := hd
  rw [reported_undisturbed hd', runOf_reported hd, reported_undisturbed hd, Memory.writeRun_writeRun hm]

/-- Settles O43: the second READ's run ends as the first one's did, and reports in the same state. -/
theorem repeatedReadReportsAgain : Obligations.RepeatedReadReportsAgain := by
  unfold Obligations.RepeatedReadReportsAgain
  intro n s t d hs hd h hr
  rcases execRead_next h with ⟨-, rfl⟩ | ⟨-, -, rfl⟩ | ⟨hv, hn, bad, hstop, rfl⟩ | ⟨-, -, -, rfl⟩
  · cases hr
  · cases hr
  · change exec (.read n) (s.reported n bad) = .next (s.reported n bad)
    rw [exec, execRead_run (s := s.reported n bad) hv hn, runOf_reported hd, hstop]
    exact congrArg _ (reported_reported hs.outForm hd n bad)
  · cases hr

/-! ## What a READ depends on -/

/-- R106, R108: a quartet of the same characters elsewhere is clean too. -/
theorem CleanQuartet.congr {rd rd' : Nat → CharCode} {cur cur' k : Nat} (hrd : ∀ i < 4, rd' (cur' + i) = rd (cur + i))
    (h : CleanQuartet rd cur k) : CleanQuartet rd' cur' k :=
  ⟨fun i hi => hrd i hi ▸ h.1 i hi, fun i hi hk => hrd i hi ▸ h.2 i hi hk⟩

/-- R106, R108: a quartet of the same characters elsewhere reports the same position. -/
theorem ReportsBad.congr {rd rd' : Nat → CharCode} {cur cur' k i : Nat} (hrd : ∀ i < 4, rd' (cur' + i) = rd (cur + i))
    (h : ReportsBad rd cur k (cur + i)) : ReportsBad rd' cur' k (cur' + i) := by
  rcases h with ⟨j, hj, hbad, hcode, hlow⟩ | ⟨hrange, j, hj, hk, hbad, hentry, hlow⟩
  · obtain rfl := Nat.add_left_cancel hbad
    exact .inl ⟨i, hj, rfl, hrd i hj ▸ hcode, fun l hl => hrd l (by omega) ▸ hlow l hl⟩
  · obtain rfl := Nat.add_left_cancel hbad
    exact .inr ⟨fun l hl => hrd l hl ▸ hrange l hl, i, hj, hk, rfl, hrd i hj ▸ hentry,
      fun l hl => hrd l (by omega) ▸ hlow l hl⟩

/-- R122: byte `j` of the stream is a matter of the characters of its own quartet. -/
theorem streamByte_congr {rd rd' : Nat → CharCode} {init init' j : Nat}
    (hrd : ∀ i < 4, rd' (init' + 4 * (j / 3) + i) = rd (init + 4 * (j / 3) + i)) :
    streamByte rd' init' j = streamByte rd init j := by
  simp only [streamByte, hrd 0 (by omega), hrd 1 (by omega), hrd 2 (by omega), hrd 3 (by omega)]

/-- R124: two contexts of the same content, read so far to the same position. -/
structure SameContent (s s' : State) : Prop where
  length : s'.regs.decodedLength = s.regs.decodedLength
  position : s'.regs.decodedPosition = s.regs.decodedPosition
  padding : s'.regs.paddingCount = s.regs.paddingCount
  chars : ∀ j < s.regs.contentLen,
    s'.srcRead (s'.regs.initialCursor.toNat + j) = s.srcRead (s.regs.initialCursor.toNat + j)

section

variable {s s' : State} (h : SameContent s s') (hc : s.regs.ContextInv) (hc' : s'.regs.ContextInv)

include h

theorem SameContent.readCount (n : Word) : s'.regs.readCount n = s.regs.readCount n := by
  rw [Regs.readCount, Regs.readCount, h.length, h.position]

theorem SameContent.bytesOfQuartetAt (pos : Nat) : s'.regs.bytesOfQuartetAt pos = s.regs.bytesOfQuartetAt pos := by
  rw [Regs.bytesOfQuartetAt, Regs.bytesOfQuartetAt, h.length, h.padding]

include hc

/-- R124: the streams of the two contents are the same. -/
theorem SameContent.streamByte {j : Nat} (hj : j < s.regs.decodedLength.toNat) :
    streamByte s'.srcRead s'.regs.initialCursor.toNat j = streamByte s.srcRead s.regs.initialCursor.toNat j := by
  refine streamByte_congr fun i hi => ?_
  have hlength := hc.shape.length
  rw [Nat.add_assoc, Nat.add_assoc]
  exact h.chars _ (by omega)

/-- R122, R124: runs of the stream that end inside it are the same. -/
theorem SameContent.streamRun {k : Nat} (hk : s.regs.decodedPosition.toNat + k ≤ s.regs.decodedLength.toNat) :
    streamRun s'.srcRead s'.regs.initialCursor.toNat s'.regs.decodedPosition.toNat k =
      streamRun s.srcRead s.regs.initialCursor.toNat s.regs.decodedPosition.toNat k := by
  rw [h.position]
  refine List.map_congr_left fun j hj => h.streamByte hc ?_
  have := List.mem_range.mp hj
  omega

include hc'

/-- R120: the two cursors stand at the same place of the content. -/
theorem SameContent.cursor : s'.regs.sourceCursor.toNat + s.regs.initialCursor.toNat =
    s.regs.sourceCursor.toNat + s'.regs.initialCursor.toNat := by
  have hcur := hc.cursor
  have hcur' := hc'.cursor
  rw [h.position] at hcur'
  omega

/-- R124: the quartets in reach hold the same characters. -/
theorem SameContent.quartet {q : Nat} (hq : s.regs.decodedPosition.toNat + 3 * q < s.regs.decodedLength.toNat) :
    ∀ i < 4, s'.srcRead (s'.regs.sourceCursor.toNat + 4 * q + i) = s.srcRead (s.regs.sourceCursor.toNat + 4 * q + i) := by
  intro i hi
  have hin := hc.quartet_in_content hq
  have hcur := hc.cursor
  have hshift := h.cursor hc hc'
  have := h.chars (s.regs.sourceCursor.toNat + 4 * q + i - s.regs.initialCursor.toNat) (by omega)
  rwa [show s'.regs.initialCursor.toNat + (s.regs.sourceCursor.toNat + 4 * q + i - s.regs.initialCursor.toNat) =
      s'.regs.sourceCursor.toNat + 4 * q + i by omega,
    show s.regs.initialCursor.toNat + (s.regs.sourceCursor.toNat + 4 * q + i - s.regs.initialCursor.toNat) =
      s.regs.sourceCursor.toNat + 4 * q + i by omega] at this

/-- R124: the quartets in reach of one are clean when those of the other are. -/
theorem SameContent.reachClean {n : Word} (hclean : ReachClean s n) : ReachClean s' n := by
  intro q hq hroom
  rw [h.position, h.length] at hq
  rw [h.position, h.bytesOfQuartetAt]
  exact (hclean q hq hroom).congr (h.quartet hc hc' hq)

/-- R106, R124: the first bad character is at the same place of the content. -/
theorem SameContent.firstBad {n : Word} {q bad : Nat} (hb : FirstBad s n q bad) :
    ∃ bad', FirstBad s' n q bad' ∧ bad' + s.regs.initialCursor.toNat = bad + s'.regs.initialCursor.toNat := by
  obtain ⟨i, -, rfl⟩ := hb.bad.exists_offset
  have hshift := h.cursor hc hc'
  refine ⟨s'.regs.sourceCursor.toNat + 4 * q + i, ⟨?_, hb.room, fun p hp => ?_, ?_⟩, by omega⟩
  · rw [h.position, h.length]
    exact hb.reach
  · rw [h.position, h.bytesOfQuartetAt]
    have hreach := hb.reach
    exact (hb.clean p hp).congr (h.quartet hc hc' (by omega))
  · rw [h.position, h.bytesOfQuartetAt]
    exact hb.bad.congr (h.quartet hc hc' hb.reach)

end

/-- Below their length, runs stored in two memories read the same. -/
theorem read_writeRun_congr {w : Nat} {m m' : Memory w} (hm : m.wf) (hm' : m'.wf) (vs : List (BitVec w)) {j : Nat}
    (hj : j < vs.length) : (m'.writeRun 0 vs).read j = (m.writeRun 0 vs).read j := by
  rw [← Nat.zero_add j, Memory.read_writeRun_inside hm' 0 vs hj, Memory.read_writeRun_inside hm 0 vs hj]

/-- R124: the bytes that the two READs deliver are the same. -/
theorem SameContent.read_delivered {s s' : State} {n : Word} (h : SameContent s s') (hc : CanRead s n) (hc' : CanRead s' n)
    (hclean : ReachClean s n) : ∀ j < s.regs.readCount n, (s'.delivered n).out.read j = (s.delivered n).out.read j := by
  intro j hj
  have hclean' := h.reachClean hc.context hc'.context hclean
  obtain ⟨-, hle, -⟩ := hc.context.readCount_bounds n
  rw [hc'.delivered_out (hc'.runOf_stop hclean'), hc.delivered_out (hc.runOf_stop hclean), h.readCount,
    h.streamRun hc.context hle]
  exact read_writeRun_congr hc.outForm hc'.outForm _ (by rwa [streamRun_length])

/-- R112, R124: the bytes before the bad quartet are the same. -/
theorem SameContent.read_reported {s s' : State} {n : Word} {q bad bad' : Nat} (h : SameContent s s') (hc : CanRead s n)
    (hc' : CanRead s' n) (hb : FirstBad s n q bad) (hb' : FirstBad s' n q bad') :
    ∀ j < 3 * q, (s'.reported n bad').out.read j = (s.reported n bad).out.read j := by
  intro j hj
  rw [hc'.reported_out hb', hc.reported_out hb, h.streamRun hc.context hb.reach.le]
  exact read_writeRun_congr hc.outForm hc'.outForm _ (by rwa [streamRun_length])

/-- R124: a READ over clean quartets answers the same, and moves the position alike. -/
theorem SameContent.delivered {s s' : State} (h : SameContent s s') (n : Word) :
    (s'.delivered n).rsp = (s.delivered n).rsp ∧
      (s'.delivered n).regs.decodedPosition = (s.delivered n).regs.decodedPosition := by
  simp only [State.delivered, State.respond_rsp, State.respond_regs, h.readCount, h.position, and_self]

/-- Settles O44: both READs find no room, or both deliver, or both report, the same run of the stream. -/
theorem readDependsOnTheContentAlone : Obligations.ReadDependsOnTheContentAlone := by
  unfold Obligations.ReadDependsOnTheContentAlone
  intro n s s' t r hs hs' hv hv' hd hd' hlen hpos hpad hchars ht hr
  have hsame : SameContent s s' := ⟨hlen, hpos, hpad, by rwa [srcRead_undisturbed hd, srcRead_undisturbed hd']⟩
  by_cases hn : capOf n = 0
  · obtain rfl := Host.Outcome.next.inj ((exec_read_too_small hv hn).symm.trans ht)
    obtain rfl := Option.some.inj hr
    exact ⟨_, _, exec_read_too_small hv' hn, rfl, rfl, hpos, nofun, nofun⟩
  · have hc := hs.store.canRead hv hn
    have hc' := hs'.store.canRead hv' hn
    rcases reachClean_or_firstBad s n with hclean | ⟨q, bad, hb⟩
    · obtain rfl := Host.Outcome.next.inj ((hc.exec_clean hclean).symm.trans ht)
      obtain ⟨hrsp, hmoved⟩ := hsame.delivered n
      refine ⟨_, r, hc'.exec_clean (hsame.reachClean hc.context hc'.context hclean), hrsp.trans hr, rfl, hmoved,
        fun _ => ⟨rfl, fun j hj => hsame.read_delivered hc hc' hclean j ?_⟩, ?_⟩ <;> obtain rfl := Option.some.inj hr
      · obtain ⟨hcap, -, -⟩ := hc.context.readCount_bounds n
        rwa [Word.toNat_ofNat (hcap.trans_lt (capOf_lt n))] at hj
      · exact nofun
    · obtain ⟨bad', hb', hshift⟩ := hsame.firstBad hc.context hc'.context hb
      obtain rfl := Host.Outcome.next.inj ((hc.exec_bad hb).symm.trans ht)
      obtain rfl := Option.some.inj hr
      obtain ⟨hq, hlt⟩ := hb.index hc.context
      obtain ⟨-, hlt'⟩ := hb'.index hc'.context
      refine ⟨_, _, hc'.exec_bad hb', rfl, rfl, hpos, nofun, fun _ => ?_⟩
      rw [Word.toNat_ofNat (n := bad) (by omega), Word.toNat_ofNat (n := bad') (by omega), hq]
      exact ⟨hshift, hsame.read_reported hc hc' hb hb'⟩

end Sys2Proof.Machine
end

section

/-! READs one after another (spec/41_read.md R122), and the round trip through the RFC 4648 encoding (R123). -/

namespace Sys2Proof.Machine

/-! ## READs to the end -/

/-- A run of contents stored at a buffer's beginning is what the buffer holds. -/
theorem bufferBytes_writeRun {m : Memory 8} (hm : m.wf) (bs : List Byte) :
    bufferBytes (m.writeRun 0 bs) bs.length = bs := by
  refine List.ext_getElem (by simp [bufferBytes]) fun j _ hj => ?_
  have h := Memory.read_writeRun_inside hm 0 bs hj
  rw [Nat.zero_add] at h
  simpa [bufferBytes] using h

/-- R122: the buffer after a READ that answered OK. -/
theorem CanRead.delivered_bufferBytes {s : State} {n : Word} (h : CanRead s n) (hd : (s.runOf n).stop = .done) :
    bufferBytes (s.delivered n).out (s.regs.readCount n) =
      streamRun s.srcRead s.regs.initialCursor.toNat s.regs.decodedPosition.toNat (s.regs.readCount n) := by
  have hbytes := bufferBytes_writeRun h.outForm (streamRun s.srcRead s.regs.initialCursor.toNat
    s.regs.decodedPosition.toNat (s.regs.readCount n))
  rw [streamRun_length] at hbytes
  rw [h.delivered_out hd, hbytes]

/-- R197: the READs of a sequence that all answer OK: the first one's bytes, then those of the rest. -/
theorem readAll_cons {n : Word} {ns : List Word} {s t : State} {bs : List Byte}
    (h : readAll (n :: ns) s = some (bs, t)) : ∃ u w cs, exec (.read n) s = .next u ∧ u.rsp = some ⟨.ok, w⟩ ∧
      readAll ns u = some (cs, t) ∧ bs = bufferBytes u.out w.toNat ++ cs := by
  rw [readAll] at h
  split at h
  · next u hu =>
    split at h
    · next w hw =>
      obtain ⟨⟨cs, t'⟩, hr, he⟩ := Option.map_eq_some_iff.mp h
      obtain ⟨rfl, rfl⟩ := Prod.mk.inj he
      exact ⟨u, w, cs, hu, hw, hr, rfl⟩
    · cases h
  · cases h

/-- R122: READs that all answer OK on an undisturbed text deliver the bytes of the stream from the position they started at
to the one they reached, and keep the length. -/
theorem readAll_stream {ns : List Word} {s t : State} {bs : List Byte} (hs : s.StoreInv) (hd : s.srcDisturbed = false)
    (h : readAll ns s = some (bs, t)) :
    s.regs.decodedPosition.toNat ≤ t.regs.decodedPosition.toNat ∧ t.regs.decodedLength = s.regs.decodedLength ∧
      bs = streamRun s.src.read s.regs.initialCursor.toNat s.regs.decodedPosition.toNat
        (t.regs.decodedPosition.toNat - s.regs.decodedPosition.toNat) := by
  induction ns generalizing s bs with
  | nil =>
    obtain ⟨rfl, rfl⟩ := Prod.mk.inj (Option.some.inj h)
    simp
  | cons n ns ih =>
    obtain ⟨u, w, cs, hu, hw, hr, rfl⟩ := readAll_cons h
    have hsu := exec_storeInv hs hu
    obtain ⟨hc, hdone, rfl⟩ := exec_read_ok hs hu hw
    obtain ⟨hcap, hle, -⟩ := hc.context.readCount_bounds n
    have hlt := capOf_lt n
    obtain rfl : Word.ofNat (s.regs.readCount n) = w := congrArg Response.data (Option.some.inj hw)
    have hpos : (s.delivered n).regs.decodedPosition.toNat = s.regs.decodedPosition.toNat + s.regs.readCount n :=
      Word.toNat_ofNat (by omega)
    obtain ⟨ih1, ih2, ih3⟩ := ih hsu hd hr
    rw [hpos] at ih1 ih3
    refine ⟨by omega, ih2, ?_⟩
    rw [Word.toNat_ofNat (by omega), hc.delivered_bufferBytes hdone, ih3, srcRead_undisturbed hd]
    change _ ++ streamRun s.src.read s.regs.initialCursor.toNat _ _ = _
    rw [← streamRun_add]
    congr 1
    omega

/-- R122: READs from an undisturbed context's beginning to its end deliver its whole stream. -/
theorem readAll_whole {ns : List Word} {s t : State} {bs : List Byte} (hs : s.StoreInv) (hd : s.srcDisturbed = false)
    (hpos : s.regs.decodedPosition = 0#32) (h : readAll ns s = some (bs, t))
    (hend : t.regs.decodedPosition = t.regs.decodedLength) :
    bs = streamRun s.src.read s.regs.initialCursor.toNat 0 s.regs.decodedLength.toNat := by
  obtain ⟨-, hlen, hbs⟩ := readAll_stream hs hd h
  rw [hbs, hend, hlen, hpos]
  rfl

/-- R122: byte `j` of a run of the stream from its beginning. -/
theorem getElem?_streamRun {rd : Nat → CharCode} {init k j : Nat} {b : Byte} (h : (streamRun rd init 0 k)[j]? = some b) :
    b = streamByte rd init j := by
  obtain ⟨hj, rfl⟩ := List.getElem?_eq_some_iff.mp h
  simp [streamRun]

/-- Settles O45: both cuts deliver the whole stream. -/
theorem chunkingInvariance : Obligations.ChunkingInvariance := by
  unfold Obligations.ChunkingInvariance
  intro s t u ns ms bs cs hs _ hd hpos _ _ ht htend hu huend
  rw [readAll_whole hs.store hd hpos ht htend, readAll_whole hs.store hd hpos hu huend]
  exact ⟨rfl, streamRun_length .., fun j b => getElem?_streamRun⟩

/-! ## The characters of the encoding -/

/-- R101, K2: the table gives an alphabet character its value back. -/
theorem entryOf_alphabetChar : ∀ v : Sextet, entryOf (alphabetChar v) = ⟨true, v⟩ := by decide

/-- R9, R10: an alphabet character has a code below 256, and is neither whitespace nor `=`. -/
theorem alphabetChar_spec : ∀ v : Sextet,
    (alphabetChar v).toNat < 256 ∧ isWs (alphabetChar v) = false ∧ alphabetChar v ≠ 0x3D#16 := by decide

/-- R123: the four 6-bit lanes of three bytes. -/
def encodedLane (x y z : Byte) : Nat → Sextet
  | 0 => x.extractLsb' 2 6
  | 1 => x.extractLsb' 0 2 ++ y.extractLsb' 4 4
  | 2 => y.extractLsb' 0 4 ++ z.extractLsb' 6 2
  | _ => z.extractLsb' 0 6

/-- R123: character `i` of the quartet that encodes up to three bytes: the lanes that hold a part of them, then padding. -/
def quartetChar (chunk : List Byte) (i : Nat) : CharCode :=
  if i ≤ chunk.length then alphabetChar (encodedLane (chunk.getD 0 0#8) (chunk.getD 1 0#8) (chunk.getD 2 0#8) i)
  else 0x3D#16

/-- R123: one to three bytes are encoded as one quartet. -/
theorem rfcEncode_chunk {chunk : List Byte} (h1 : 1 ≤ chunk.length) (h3 : chunk.length ≤ 3) :
    rfcEncode chunk = (List.range 4).map (quartetChar chunk) := by
  match chunk with
  | [] => simp at h1
  | [_] => simp [rfcEncode, quartetChar, encodedLane, List.range_succ]
  | [_, _] => simp [rfcEncode, quartetChar, encodedLane, List.range_succ]
  | [_, _, _] => simp [rfcEncode, quartetChar, encodedLane, List.range_succ]
  | _ :: _ :: _ :: _ :: _ => simp only [List.length_cons] at h3; omega

/-- R123: the encoding is that of the first three bytes, then that of the rest. -/
theorem rfcEncode_take_drop (bytes : List Byte) :
    rfcEncode bytes = rfcEncode (bytes.take 3) ++ rfcEncode (bytes.drop 3) := by
  match bytes with
  | [] => rfl
  | [_] => rfl
  | [_, _] => rfl
  | _ :: _ :: _ :: _ => rfl

/-- R123: four characters for every three bytes or part of them. -/
theorem length_rfcEncode (bytes : List Byte) : (rfcEncode bytes).length = 4 * ((bytes.length + 2) / 3) := by
  induction bytes using rfcEncode.induct with
  | case1 => rfl
  | case2 a => simp [rfcEncode]
  | case3 a b => simp [rfcEncode]
  | case4 a b c rest ih =>
    simp only [rfcEncode, List.length_cons, ih]
    omega

/-- R10, R101: no character of the encoding is whitespace. -/
theorem isWs_rfcEncode {bytes : List Byte} {c : CharCode} (h : c ∈ rfcEncode bytes) : isWs c = false := by
  have halpha (v : Sextet) : isWs (alphabetChar v) = false := (alphabetChar_spec v).2.1
  have hpad : isWs 0x3D#16 = false := by decide
  induction bytes using rfcEncode.induct with
  | case1 => simp [rfcEncode] at h
  | case2 a =>
    simp only [rfcEncode, List.mem_cons, List.not_mem_nil, or_false] at h
    rcases h with rfl | rfl | rfl | rfl <;> simp only [halpha, hpad]
  | case3 a b =>
    simp only [rfcEncode, List.mem_cons, List.not_mem_nil, or_false] at h
    rcases h with rfl | rfl | rfl | rfl <;> simp only [halpha, hpad]
  | case4 a b c rest ih =>
    simp only [rfcEncode, List.mem_cons] at h
    rcases h with rfl | rfl | rfl | rfl | h
    · exact halpha _
    · exact halpha _
    · exact halpha _
    · exact halpha _
    · exact ih h

/-- R123: bytes `3 q` on are encoded by quartet `q`. -/
theorem HoldsText.quartet {src : Memory 16} {a q : Nat} {bytes : List Byte} (h : HoldsText src a (rfcEncode bytes))
    (hq : 3 * q < bytes.length) : HoldsText src (a + 4 * q) (rfcEncode ((bytes.drop (3 * q)).take 3)) := by
  induction q generalizing a bytes with
  | zero =>
    rw [rfcEncode_take_drop, holdsText_append] at h
    exact h.1
  | succ q ih =>
    rw [rfcEncode_take_drop, holdsText_append, length_rfcEncode, List.length_take, Nat.min_eq_left (by omega)] at h
    have := ih h.2 (by rw [List.length_drop]; omega)
    rwa [List.drop_drop, Nat.add_assoc, show 4 * ((3 + 2) / 3) + 4 * q = 4 * (q + 1) by omega,
      show 3 + 3 * q = 3 * (q + 1) by omega] at this

/-! ## One quartet of the encoding -/

/-- R104, R123: lanes 0 and 1 hold the first byte. -/
theorem pack_encodedLane_fst (x y z : Byte) (b3 b4 : Sextet) :
    (pack (encodedLane x y z 0) (encodedLane x y z 1) b3 b4).1 = x := by
  have hsplit : ∀ x : Byte, x.extractLsb' 2 6 ++ x.extractLsb' 0 2 = x := by decide
  simp only [pack_fst, encodedLane, BitVec.extractLsb'_append_eq_left, hsplit]

/-- R104, R123: lanes 1 and 2 hold the second byte. -/
theorem pack_encodedLane_snd (x y z : Byte) (b1 b4 : Sextet) :
    (pack b1 (encodedLane x y z 1) (encodedLane x y z 2) b4).2.1 = y := by
  have hsplit : ∀ y : Byte, y.extractLsb' 4 4 ++ y.extractLsb' 0 4 = y := by decide
  simp only [pack_snd, encodedLane, BitVec.extractLsb'_append_eq_right, BitVec.extractLsb'_append_eq_left, hsplit]

/-- R104, R123: lanes 2 and 3 hold the third byte. -/
theorem pack_encodedLane_thd (x y z : Byte) (b1 b2 : Sextet) :
    (pack b1 b2 (encodedLane x y z 2) (encodedLane x y z 3)).2.2 = z := by
  have hsplit : ∀ z : Byte, z.extractLsb' 6 2 ++ z.extractLsb' 0 6 = z := by decide
  simp only [pack_thd, encodedLane, BitVec.extractLsb'_append_eq_right, hsplit]

section

variable {src : Memory 16} {a : Nat} {chunk : List Byte} (h : HoldsText src a (rfcEncode chunk))
  (h1 : 1 ≤ chunk.length) (h3 : chunk.length ≤ 3)

include h h1 h3

/-- R123: the characters of a quartet of the encoding. -/
theorem HoldsText.read_quartet {i : Nat} (hi : i < 4) : src.read (a + i) = quartetChar chunk i := by
  rw [rfcEncode_chunk h1 h3] at h
  rw [h i (by simpa using hi), List.getElem_map, List.getElem_range]

/-- R101, R123: the entries of the lanes that hold a part of the bytes. -/
theorem HoldsText.entryOf_quartet {i : Nat} (hi : i < 4) (hk : i ≤ chunk.length) : entryOf (src.read (a + i)) =
    ⟨true, encodedLane (chunk.getD 0 0#8) (chunk.getD 1 0#8) (chunk.getD 2 0#8) i⟩ := by
  rw [h.read_quartet h1 h3 hi, quartetChar, if_pos hk, entryOf_alphabetChar]

/-- R106, R108: a quartet of the encoding is clean. -/
theorem HoldsText.cleanQuartet : CleanQuartet src.read a chunk.length := by
  refine ⟨fun i hi => ?_, fun i hi hk => by rw [h.entryOf_quartet h1 h3 hi hk]⟩
  rw [h.read_quartet h1 h3 hi, quartetChar]
  split
  · exact (alphabetChar_spec _).1
  · decide

/-- R87: the padding of a quartet of the encoding makes up for the bytes it lacks. -/
theorem HoldsText.paddingOf_quartet : (paddingOf src.read (a + 4)).toNat = 3 - chunk.length := by
  have hpad {i : Nat} (hi : i < 4) : src.read (a + i) = 0x3D#16 ↔ chunk.length < i := by
    rw [h.read_quartet h1 h3 hi, quartetChar]
    split
    · next hle => exact iff_of_false (alphabetChar_spec _).2.2 (by omega)
    · next hle => exact iff_of_true rfl (by omega)
  rw [toNat_paddingOf, Nat.add_sub_assoc (by omega), Nat.add_sub_assoc (by omega)]
  simp only [hpad (show 4 - 1 < 4 by omega), hpad (show 4 - 2 < 4 by omega)]
  split_ifs <;> omega

/-- R104, R123: a quartet of the encoding decodes to the bytes it encodes. -/
theorem HoldsText.streamByte_quartet {i : Nat} (hi : i < chunk.length) : streamByte src.read a i = chunk[i] := by
  have hvalue {j : Nat} (hj : j < 4) (hk : j ≤ chunk.length) : (entryOf (src.read (a + j))).value =
      encodedLane (chunk.getD 0 0#8) (chunk.getD 1 0#8) (chunk.getD 2 0#8) j := by
    rw [h.entryOf_quartet h1 h3 hj hk]
  have hcases : i = 0 ∨ i = 1 ∨ i = 2 := by omega
  rw [← List.getD_eq_getElem (d := 0#8)]
  rcases hcases with rfl | rfl | rfl
  · change (pack (entryOf (src.read (a + 0))).value (entryOf (src.read (a + 1))).value _ _).1 = _
    rw [hvalue (by omega) (by omega), hvalue (by omega) (by omega), pack_encodedLane_fst]
  · change (pack _ (entryOf (src.read (a + 1))).value (entryOf (src.read (a + 2))).value _).2.1 = _
    rw [hvalue (by omega) (by omega), hvalue (by omega) (by omega), pack_encodedLane_snd]
  · change (pack _ _ (entryOf (src.read (a + 2))).value (entryOf (src.read (a + 3))).value).2.2 = _
    rw [hvalue (by omega) (by omega), hvalue (by omega) (by omega), pack_encodedLane_thd]

end

/-! ## The round trip -/

/-- R122: byte `i` of the triplet of quartet `q`. -/
theorem streamByte_triplet (rd : Nat → CharCode) (a q : Nat) {i : Nat} (hi : i < 3) :
    streamByte rd a (3 * q + i) = streamByte rd (a + 4 * q) i := by
  have hdiv : (3 * q + i) / 3 = q := by omega
  have hmod : (3 * q + i) % 3 = i % 3 := by omega
  have hzero : i / 3 = 0 := by omega
  simp only [streamByte, hdiv, hmod, hzero, Nat.mul_zero, Nat.add_zero]

/-- The bytes that quartet `q` encodes: three, or what is left of them. -/
theorem length_chunk (bytes : List Byte) (q : Nat) :
    ((bytes.drop (3 * q)).take 3).length = min 3 (bytes.length - 3 * q) := by
  rw [List.length_take, List.length_drop]

section

variable {src : Memory 16} {a : Nat} {bytes : List Byte} (h : HoldsText src a (rfcEncode bytes))

include h

/-- R106, R108, R123: every quartet of the encoding is clean. -/
theorem HoldsText.cleanQuartet_at {q : Nat} (hq : 3 * q < bytes.length) :
    CleanQuartet src.read (a + 4 * q) (min 3 (bytes.length - 3 * q)) := by
  have hlen := length_chunk bytes q
  rw [← hlen]
  exact (h.quartet hq).cleanQuartet (by omega) (by omega)

/-- R122, R123: the stream of the encoding is what it encodes. -/
theorem HoldsText.streamByte_rfcEncode {j : Nat} (hj : j < bytes.length) : streamByte src.read a j = bytes[j] := by
  obtain ⟨q, i, hi, rfl⟩ : ∃ q i, i < 3 ∧ j = 3 * q + i := ⟨j / 3, j % 3, by omega, by omega⟩
  have hlen := length_chunk bytes q
  rw [streamByte_triplet _ _ _ hi, (h.quartet (q := q) (by omega)).streamByte_quartet (by omega) (by omega) (by omega),
    List.getElem_take, List.getElem_drop]

theorem HoldsText.streamRun_rfcEncode : streamRun src.read a 0 bytes.length = bytes := by
  refine List.ext_getElem (streamRun_length ..) fun j _ hj => ?_
  simpa [streamRun] using h.streamByte_rfcEncode hj

/-- R87, R123: the padding of the encoding makes up for the bytes its last quartet lacks. -/
theorem HoldsText.paddingOf_rfcEncode (hne : bytes ≠ []) :
    (paddingOf src.read (a + (rfcEncode bytes).length)).toNat = 3 * ((bytes.length + 2) / 3) - bytes.length := by
  have hpos := List.length_pos_iff.mpr hne
  have hlen := length_chunk bytes ((bytes.length - 1) / 3)
  have hlast := h.quartet (q := (bytes.length - 1) / 3) (by omega)
  rw [length_rfcEncode, show a + 4 * ((bytes.length + 2) / 3) = a + 4 * ((bytes.length - 1) / 3) + 4 by omega,
    hlast.paddingOf_quartet (by omega) (by omega), hlen]
  omega

end

/-- R84, R123: the encoding is its own trimmed view. -/
theorem trimmedView_rfcEncode {src : Memory 16} {bytes : List Byte} (h : HoldsText src 0 (rfcEncode bytes))
    (hne : bytes ≠ []) : TrimmedView src.read (rfcEncode bytes).length 0 0 (rfcEncode bytes).length := by
  have hpos := List.length_pos_iff.mpr hne
  have hne' : rfcEncode bytes ≠ [] := List.length_pos_iff.mp (by rw [length_rfcEncode]; omega)
  have := trimmedView_of_holdsText (src := src) (pre := []) (before := []) (after := []) (List.forall_mem_nil _)
    (List.forall_mem_nil _) hne' (fun c hc => isWs_rfcEncode (List.mem_of_mem_head? hc))
    (fun c hc => isWs_rfcEncode (List.mem_of_getLast? hc)) (by simpa using h)
  simpa using this

/-- R81, R89, R123: CONSTRUCT on the encoding of a non-empty byte sequence makes a context of its length, at its beginning. -/
theorem exec_construct_rfcEncode {bytes : List Byte} {len : Word} {s : State} (hs : s.StoreInv)
    (hd : s.flightDisturbed = false) (h : HoldsText s.src 0 (rfcEncode bytes)) (hlen : len.toNat = (rfcEncode bytes).length)
    (hne : bytes ≠ []) : ∃ t, exec (.construct false len 0#32) s = .next t ∧ t.StoreInv ∧ t.regs.valid = true ∧
      t.srcRead = s.src.read ∧ t.regs.initialCursor = 0#32 ∧ t.regs.sourceCursor = 0#32 ∧
      t.regs.decodedPosition = 0#32 ∧ t.regs.decodedLength.toNat = bytes.length := by
  have hread := srcReadNew_undisturbed hd
  have hquartets := length_rfcEncode bytes
  have hview := trimmedView_rfcEncode h hne
  rw [← hlen] at hview
  have hexec := exec_construct_view (s := s) (off := 0#32) (hread ▸ hview) (by omega)
  refine ⟨_, hexec, exec_storeInv hs hexec, rfl, srcRead_undisturbed hd, rfl, rfl, rfl, ?_⟩
  have hpad := h.paddingOf_rfcEncode hne
  rw [Nat.zero_add, ← hlen] at hpad
  rw [State.respond_regs, Regs.toNat_decodedLength_newContext _ _ _ le_rfl, hread, hpad]
  omega

/-- R114, R115: quartet `q` of a context read from its beginning produces three bytes, or what is left of them. -/
theorem Regs.ContextInv.bytesOfQuartetAt_start {r : Regs} (h : r.ContextInv) {q : Nat} (hq : 3 * q < r.decodedLength.toNat) :
    r.bytesOfQuartetAt (3 * q) = min 3 (r.decodedLength.toNat - 3 * q) := by
  have hlength := h.shape.length
  have hpad := h.padding
  exact h.shape.bytesAt (by omega)

/-- Settles O46: the context that CONSTRUCT makes of the encoding is clean and its stream is the byte sequence, which one READ
delivers whole. -/
theorem decodingInvertsEncoding : Obligations.DecodingInvertsEncoding := by
  unfold Obligations.DecodingInvertsEncoding
  intro bytes len n s hs hd htext hlen hroom
  refine ⟨fun hne => ?_, ?_⟩
  · obtain ⟨t, ht, hst, hv, hread, hinit, hcur, hpos, hdec⟩ := exec_construct_rfcEncode hs.store hd htext hlen hne
    have hsize := List.length_pos_iff.mpr hne
    have hcap : bytes.length ≤ capOf n := hroom
    have hlt := capOf_lt n
    have hc : CanRead t n := hst.canRead hv (by omega)
    have hclean : ReachClean t n := by
      intro q hq _
      simp only [hpos, BitVec.toNat_ofNat, Nat.zero_mod, Nat.zero_add] at hq ⊢
      rw [hread, hcur, hc.context.bytesOfQuartetAt_start hq, hdec]
      exact htext.cleanQuartet_at (hdec ▸ hq)
    have hcount : t.regs.readCount n = bytes.length := by
      rw [Regs.readCount, hdec, hpos]
      exact Nat.min_eq_right hcap
    have hbytes := hc.delivered_bufferBytes (hc.runOf_stop hclean)
    rw [hcount, hread, hinit, hpos] at hbytes
    refine ⟨t, t.delivered n, ht, hc.exec_clean hclean, ?_, hbytes.trans htext.streamRun_rfcEncode, ?_, hdec⟩
    · simp only [State.delivered, State.respond_rsp, hcount]
    · change (Word.ofNat _).toNat = _
      rw [hpos, hcount, Word.toNat_ofNat (by simp only [BitVec.toNat_ofNat]; omega)]
      simp
  · rintro rfl
    obtain rfl : len = 0#32 := BitVec.eq_of_toNat_eq hlen
    exact ⟨_, exec_construct_nothing (.inr (.inl rfl)), rfl⟩

end Sys2Proof.Machine
end

section

/-! Proofs of the statements about the state queries (spec/42_state_queries.md): LENGTH, POSITION, REWIND, SETPOS and PEEK
(R140 to R144), and the stream read again after REWIND (R145). -/

namespace Sys2Proof.Machine

/-! ## LENGTH and POSITION -/

/-- R140 to R143, R176: the commands of this chapter that an unconstructed block answers with NotConstructed. -/
theorem exec_query_not_constructed {i : Instr} {s : State} (hv : s.regs.valid = false)
    (hi : i = .length ∨ i = .position ∨ i = .rewind ∨ ∃ v, i = .setpos v) :
    exec i s = .next (s.respond .notConstructed 0#32) := by
  rcases hi with rfl | rfl | rfl | ⟨v, rfl⟩
  · rw [exec, execLength, whenConstructed_invalid hv]
  · rw [exec, execPosition, whenConstructed_invalid hv]
  · rw [exec, execRewind, whenConstructed_invalid hv]
  · rw [exec, execSetpos, whenConstructed_invalid hv]

theorem exec_length {s : State} (hv : s.regs.valid = true) :
    exec .length s = .next (s.respond .ok s.regs.decodedLength) := by
  rw [exec, execLength, whenConstructed_valid hv, complete_eq]

theorem exec_position {s : State} (hv : s.regs.valid = true) :
    exec .position s = .next (s.respond .ok s.regs.decodedPosition) := by
  rw [exec, execPosition, whenConstructed_valid hv, complete_eq]

/-- R32, R140: a content of one quartet or more, of which at most two characters are padding, decodes to something. -/
theorem Regs.ContextInv.one_le_decodedLength {r : Regs} (h : r.ContextInv) : 1 ≤ r.decodedLength.toNat := by
  obtain ⟨hlength, hcontent⟩ := h.length
  have hpad := h.padding
  omega

/-- Settles O49: both commands respond with their register, or with NotConstructed. -/
theorem lengthAndPosition : Obligations.LengthAndPosition := by
  unfold Obligations.LengthAndPosition
  exact fun s => ⟨fun hv => ⟨exec_length hv, exec_position hv⟩,
    fun hv => ⟨exec_query_not_constructed hv (.inl rfl), exec_query_not_constructed hv (.inr (.inl rfl))⟩,
    fun hs hv => (hs.store.context hv).one_le_decodedLength⟩

/-! ## REWIND and SETPOS -/

theorem exec_rewind {s : State} (hv : s.regs.valid = true) : exec .rewind s = .next (s.rewound.respond .ok 0#32) := by
  rw [exec, execRewind, whenConstructed_valid hv, complete_eq]

/-- R143: there is no seeking to a position but 0. -/
theorem exec_setpos_nonzero {s : State} (hv : s.regs.valid = true) {v : Word} (h : v ≠ 0#32) :
    exec (.setpos v) s = .next (s.respond .unsupported 0#32) := by
  rw [exec, execSetpos, whenConstructed_valid hv, if_pos h, raise_eq]

/-- R26, R142: the beginning of a context is not its end. -/
theorem Regs.ContextInv.eos_at_start {r : Regs} (h : r.ContextInv) (hpos : r.decodedPosition = 0#32) : r.eos = false := by
  have hlen := h.one_le_decodedLength
  have hne : r.decodedPosition ≠ r.decodedLength := fun he => by
    rw [← he, hpos] at hlen
    exact absurd hlen (by decide)
  rw [Regs.eos, decide_eq_false hne, Bool.and_false]

/-- Settles O50: a rewind keeps the invariant and stands at the context's beginning, so it is not at its end. -/
theorem rewindAndSetpos : Obligations.RewindAndSetpos := by
  unfold Obligations.RewindAndSetpos
  refine fun s v => ⟨fun hv => ⟨exec_rewind hv, exec_setpos_zero s, fun hs t ht => ?_, exec_setpos_nonzero hv⟩,
    fun hv => ⟨exec_query_not_constructed hv (.inr (.inr (.inl rfl))),
      exec_query_not_constructed hv (.inr (.inr (.inr ⟨v, rfl⟩)))⟩⟩
  have hst := exec_storeInv hs.store ht
  obtain rfl := Host.Outcome.next.inj ((exec_rewind hv).symm.trans ht)
  exact (hst.context hv).eos_at_start rfl

/-! ## PEEK -/

/-- R26: the number that a word laid out as STATUS is. -/
theorem ofNat_of_statusLayout (c : BitVec 4) (e v : Bool) :
    0#24 ++ c ++ 0#2 ++ BitVec.ofBool e ++ BitVec.ofBool v =
      BitVec.ofNat 32 ((if v = true then 1 else 0) + (if e = true then 2 else 0) + 16 * c.toNat) := by
  revert c e v
  decide

theorem Regs.eos_iff {r : Regs} : r.eos = true ↔ r.valid = true ∧ r.decodedPosition = r.decodedLength := by
  rw [Regs.eos, Bool.and_eq_true, decide_eq_true_eq]

/-- R26: VALID in bit 0, EOS in bit 1 and LAST_ERR from bit 4 on. -/
theorem Regs.statusWord_eq (r : Regs) : r.statusWord = BitVec.ofNat 32 ((if r.valid = true then 1 else 0) +
    (if r.valid = true ∧ r.decodedPosition = r.decodedLength then 2 else 0) + 16 * r.lastErr.code.toNat) := by
  rw [Regs.statusWord, ofNat_of_statusLayout]
  simp only [Regs.eos_iff]

theorem exec_peek (r : Reg) (s : State) : exec (.peek r) s = .next (s.respond .ok (s.regs.read r)) := by
  rw [exec, execPeek, complete_eq]

/-- Settles O52: PEEK responds with the register read, STATUS by its fields, and above 7 the command is ILLEGAL. -/
theorem peekReadsTheRegisterFile : Obligations.PeekReadsTheRegisterFile := by
  unfold Obligations.PeekReadsTheRegisterFile
  refine fun s a1 => ⟨fun r => ⟨decode_peek r a1, ?_⟩, rfl, fun a0 h => ?_⟩
  · rw [exec_peek]
    cases r with
    | status => rw [Regs.read, Regs.statusWord_eq]; rfl
    | config => rw [Regs.read_config]; rfl
    | paddingCount => rw [Regs.read, ← BitVec.ofNat_toNat]; rfl
    | srcLen | initialCursor | sourceCursor | decodedPosition | decodedLength => rfl
  · rw [decode_badRegister h, exec_illegal]
    rfl

/-! ## The stream after REWIND -/

/-- R197: what every READ keeps, a sequence of READs keeps. -/
theorem readAll_keeps {P : State → Prop} (hread : ∀ {n s t}, P s → exec (.read n) s = .next t → P t) {ns : List Word}
    {s t : State} {bs : List Byte} (hs : P s) (h : readAll ns s = some (bs, t)) : P t := by
  induction ns generalizing s bs with
  | nil =>
    obtain ⟨-, rfl⟩ := Prod.mk.inj (Option.some.inj h)
    exact hs
  | cons n ns ih =>
    obtain ⟨u, w, cs, hu, -, hr, -⟩ := readAll_cons h
    exact ih (hread hs hu) hr

/-- R117: a READ whose run is done met no bad character. -/
theorem CanRead.reachClean {s : State} {n : Word} (h : CanRead s n) (hd : (s.runOf n).stop = .done) : ReachClean s n := by
  rcases reachClean_or_firstBad s n with hclean | ⟨q, bad, hb⟩
  · exact hclean
  · rw [(runOf_bad h.context hb.reach hb.room hb.clean hb.bad).1] at hd
    cases hd

/-- R124: after a READ each, two undisturbed contexts of the same content are still that, at the same position. -/
theorem SameContent.after_delivered {s s' : State} (h : SameContent s s') (hd : s.srcDisturbed = false)
    (hd' : s'.srcDisturbed = false) (n : Word) : SameContent (s.delivered n) (s'.delivered n) := by
  have hchars := h.chars
  rw [srcRead_undisturbed hd, srcRead_undisturbed hd'] at hchars
  refine ⟨h.length, (h.delivered n).2, h.padding, ?_⟩
  rw [srcRead_undisturbed (s := s.delivered n) hd, srcRead_undisturbed (s := s'.delivered n) hd']
  exact hchars

/-- R124: READs that all answer OK on an undisturbed context do so on every other one of the same content. -/
theorem readAll_of_sameContent {ns : List Word} {s s' t : State} {bs : List Byte} (h : SameContent s s') (hs : s.StoreInv)
    (hs' : s'.StoreInv) (hv' : s'.regs.valid = true) (hd : s.srcDisturbed = false) (hd' : s'.srcDisturbed = false)
    (hr : readAll ns s = some (bs, t)) : ∃ cs t', readAll ns s' = some (cs, t') ∧ SameContent t t' := by
  induction ns generalizing s s' bs with
  | nil =>
    obtain ⟨-, rfl⟩ := Prod.mk.inj (Option.some.inj hr)
    exact ⟨[], s', rfl, h⟩
  | cons n ns ih =>
    obtain ⟨u, w, cs, hu, hw, hr, -⟩ := readAll_cons hr
    have hsu := exec_storeInv hs hu
    obtain ⟨hc, hdone, rfl⟩ := exec_read_ok hs hu hw
    have hc' := hs'.canRead hv' hc.room
    have hu' := hc'.exec_clean (h.reachClean hc.context hc'.context (hc.reachClean hdone))
    have hw' := (h.delivered n).1.trans hw
    obtain ⟨cs', t', hr', ht⟩ := ih (h.after_delivered hd hd' n) hsu (exec_storeInv hs' hu') hv' hd hd' hr
    exact ⟨bufferBytes (s'.delivered n).out w.toNat ++ cs', t', by rw [readAll, hu']; simp only [hw', hr']; rfl, ht⟩

/-- R122, R124: READs to the end of two undisturbed contexts of the same content, both at their beginning, deliver the same
bytes. -/
theorem readAll_whole_of_sameContent {ns ms : List Word} {s s' t t' : State} {bs cs : List Byte} (h : SameContent s s')
    (hs : s.StoreInv) (hs' : s'.StoreInv) (hv : s.regs.valid = true) (hd : s.srcDisturbed = false)
    (hd' : s'.srcDisturbed = false) (hpos : s.regs.decodedPosition = 0#32) (hr : readAll ns s = some (bs, t))
    (hend : t.regs.decodedPosition = t.regs.decodedLength) (hr' : readAll ms s' = some (cs, t'))
    (hend' : t'.regs.decodedPosition = t'.regs.decodedLength) : cs = bs := by
  have hpos' := h.position.trans hpos
  have hstream := h.streamRun (hs.context hv) (k := s.regs.decodedLength.toNat) (by rw [hpos]; simp)
  rw [srcRead_undisturbed hd, srcRead_undisturbed hd', hpos, hpos'] at hstream
  rw [readAll_whole hs' hd' hpos' hr' hend', readAll_whole hs hd hpos hr hend, h.length]
  exact hstream

/-- R142: `x` has the content of `s` as an undisturbed context, which a rewind of `x` puts back to where `s` stands. -/
structure RewindsTo (s x : State) : Prop where
  store : x.StoreInv
  valid : x.regs.valid = true
  undisturbed : x.srcDisturbed = false
  same : SameContent s x.rewound

/-- R40, R51, R142: a READ leaves all that a rewind goes back to. -/
theorem RewindsTo.read {s x y : State} {n : Word} (h : RewindsTo s x) (hy : exec (.read n) x = .next y) :
    RewindsTo s y := by
  obtain ⟨-, hinit, hlen, hpad, hv⟩ := exec_context_of_not_construct (by simp) hy
  have hframe := exec_frame_of_not_construct (by simp) hy
  have hsrc : y.src = x.src := by rw [hframe]
  have hd : y.srcDisturbed = false := by
    rw [hframe]
    exact h.undisturbed
  have hchars := h.same.chars
  rw [srcRead_undisturbed (s := x.rewound) h.undisturbed] at hchars
  refine ⟨exec_storeInv h.store hy, hv.trans h.valid, hd, hlen.trans h.same.length, h.same.position,
    hpad.trans h.same.padding, ?_⟩
  rw [srcRead_undisturbed (s := y.rewound) hd, State.rewound_src, State.rewound_regs, hsrc, hinit]
  exact hchars

/-- R142: at its beginning, a context is what a rewind goes back to. -/
theorem RewindsTo.refl {s : State} (hs : s.StoreInv) (hv : s.regs.valid = true) (hd : s.srcDisturbed = false)
    (hpos : s.regs.decodedPosition = 0#32) : RewindsTo s s :=
  ⟨hs, hv, hd, rfl, hpos.symm, rfl, fun _ _ => rfl⟩

/-- Settles O51: the READs keep all that the rewind goes back to, so it stands at the same content's beginning, which the
same READs read to its end again; and any READs that do deliver the same bytes. -/
theorem rewindLaw : Obligations.RewindLaw := by
  unfold Obligations.RewindLaw
  intro s t ns bs hs hv hd hpos _ hr hend
  have ht := readAll_keeps RewindsTo.read (.refl hs.store hv hd hpos) hr
  have hsame : SameContent s (t.rewound.respond .ok 0#32) :=
    ⟨ht.same.length, ht.same.position, ht.same.padding, ht.same.chars⟩
  have hu := exec_storeInv ht.store (exec_rewind ht.valid)
  have hwhole {ms cs v} (hv' : readAll ms (t.rewound.respond .ok 0#32) = some (cs, v))
      (hend' : v.regs.decodedPosition = v.regs.decodedLength) : cs = bs :=
    readAll_whole_of_sameContent hsame hs.store hu hv hd ht.undisturbed hpos hr hend hv' hend'
  obtain ⟨cs, v, hagain, hvt⟩ := readAll_of_sameContent hsame hs.store hu ht.valid hd ht.undisturbed hr
  have hendv : v.regs.decodedPosition = v.regs.decodedLength := by rw [hvt.position, hvt.length, hend]
  refine ⟨_, exec_rewind ht.valid, rfl, ⟨v, hwhole hagain hendv ▸ hagain, hendv⟩, fun ms cs v _ hms hend' => ?_⟩
  obtain ⟨-, hlen, -⟩ := readAll_stream hu ht.undisturbed hms
  exact ⟨hwhole hms hend', hlen.trans hsame.length⟩

end Sys2Proof.Machine
end

section

/-! Proof of the statement about the unsupported operations WRITE, SEEK and SETLEN (spec/43_unsupported.md R160 to R162). -/

namespace Sys2Proof.Machine

/-- R160 to R162: the three unsupported operations are one command, which the state decides by VALID alone. -/
theorem exec_unsupportedOperation {i : Instr} (hi : i = .write ∨ i = .seek ∨ i = .setlen) (s : State) :
    exec i s = whenConstructed s (.next (s.respond .unsupported 0#32)) := by
  rcases hi with rfl | rfl | rfl
  · rw [exec, execWrite, raise_eq]
  · rw [exec, execSeek, raise_eq]
  · rw [exec, execSetlen, raise_eq]

/-- Settles O53: a response writes LAST_ERR and nothing else of the registers, and VALID decides which response it is. -/
theorem writeSeekSetlenAreUnsupported : Obligations.WriteSeekSetlenAreUnsupported := by
  unfold Obligations.WriteSeekSetlenAreUnsupported
  refine fun i s hi => ⟨fun hv => ?_, fun hv => ?_⟩
  · rw [exec_unsupportedOperation hi, whenConstructed_valid hv]
    rfl
  · rw [exec_unsupportedOperation hi, whenConstructed_invalid hv]
    rfl

end Sys2Proof.Machine
end

section

/-! Proofs of the statements about errors and the idle block (spec/60_exceptions.md R170, R176, spec/30_encoding.md R66,
spec/70_reset_and_hazards.md R187). -/

namespace Sys2Proof.Machine

/-! ## Before a CONSTRUCT has succeeded -/

/-- R176: the commands an unconstructed block refuses are READ, the queries but PEEK, and the unsupported operations. -/
theorem exec_not_constructed {i : Instr} {s : State} (hv : s.regs.valid = false)
    (hc : ∀ z len off, i ≠ .construct z len off) (hp : ∀ r, i ≠ .peek r) (hi : ∀ c, i ≠ .illegal c) :
    exec i s = .next (s.respond .notConstructed 0#32) := by
  cases i with
  | construct z len off => exact absurd rfl (hc z len off)
  | read n => exact exec_read_not_constructed hv n
  | length | position | rewind | setpos v => exact exec_query_not_constructed hv (by simp)
  | write | seek | setlen => rw [exec_unsupportedOperation (by simp), whenConstructed_invalid hv]
  | peek r => exact absurd rfl (hp r)
  | illegal c => exact absurd rfl (hi c)

/-- Settles O24: the refusal responds and does nothing else. -/
theorem unconstructedBlockAnswersNotConstructed : Obligations.UnconstructedBlockAnswersNotConstructed := by
  unfold Obligations.UnconstructedBlockAnswersNotConstructed
  exact fun _ _ => exec_not_constructed

/-! ## What each command answers -/

/-- R176: a command that needs a constructed block answers NotConstructed, or what it answers on one. -/
theorem answer_of_whenConstructed {s u t : State} {code : StatusCode} {data : Word} {r : Response}
    (h : whenConstructed s (.next (u.respond code data)) = .next t) (hr : t.rsp = some r) :
    r = ⟨.notConstructed, 0#32⟩ ∨ r = ⟨code, data⟩ := by
  cases hv : s.regs.valid with
  | false =>
    obtain rfl := Host.Outcome.next.inj ((whenConstructed_invalid hv _).symm.trans h)
    exact .inl (Option.some.inj hr).symm
  | true =>
    obtain rfl := Host.Outcome.next.inj ((whenConstructed_valid hv _).symm.trans h)
    exact .inr (Option.some.inj hr).symm

/-- R81, R170: the three errors of CONSTRUCT carry no data. -/
theorem answer_of_construct {z : Bool} {len off : Word} {s t : State} {r : Response}
    (h : exec (.construct z len off) s = .next t) (hr : t.rsp = some r) :
    r = ⟨.emptyInput, 0#32⟩ ∨ r = ⟨.offsetOutOfRange, 0#32⟩ ∨ r = ⟨.malformedLength, 0#32⟩ ∨ ∃ data, r = ⟨.ok, data⟩ := by
  rw [exec] at h
  rcases execConstruct_cases z len off s with ⟨-, he⟩ | ⟨-, code, hcode, he⟩ | ⟨-, a, e, -, -, he⟩ <;>
    obtain rfl := Host.Outcome.next.inj (he.symm.trans h) <;> obtain rfl := Option.some.inj hr
  · exact .inl rfl
  · rcases hcode with rfl | rfl | rfl <;> simp
  · exact .inr (.inr (.inr ⟨_, rfl⟩))

/-- R112, R113, R170: of the errors of READ only MalformedCharacter carries data. -/
theorem answer_of_read {n : Word} {s t : State} {r : Response} (h : exec (.read n) s = .next t) (hr : t.rsp = some r) :
    r = ⟨.notConstructed, 0#32⟩ ∨ r = ⟨.bufferTooSmall, 0#32⟩ ∨ (∃ data, r = ⟨.malformedCharacter, data⟩) ∨
      ∃ data, r = ⟨.ok, data⟩ := by
  rcases execRead_next h with ⟨-, rfl⟩ | ⟨-, -, rfl⟩ | ⟨-, -, i, -, rfl⟩ | ⟨-, -, -, rfl⟩ <;>
    obtain rfl := Option.some.inj hr
  · exact .inl rfl
  · exact .inr (.inl rfl)
  · exact .inr (.inr (.inl ⟨_, rfl⟩))
  · exact .inr (.inr (.inr ⟨_, rfl⟩))

/-- R143: SETPOS of a non-zero position is an unsupported operation like WRITE, SEEK and SETLEN. -/
theorem exec_setpos_of_ne_zero {v : Word} (hv : v ≠ 0#32) (s : State) :
    exec (.setpos v) s = whenConstructed s (.next (s.respond .unsupported 0#32)) := by
  rw [exec, execSetpos, if_pos hv, raise_eq]

/-- Settles O20: the numbers of the codes, and each command's code and data by the answers it has. -/
theorem statusCodesOfEachCommand : Obligations.StatusCodesOfEachCommand := by
  unfold Obligations.StatusCodesOfEachCommand
  refine ⟨rfl, fun i s t r h hr => ?_⟩
  cases i with
  | construct z len off => rcases answer_of_construct h hr with rfl | rfl | rfl | ⟨data, rfl⟩ <;> simp
  | read n => rcases answer_of_read h hr with rfl | rfl | ⟨data, rfl⟩ | ⟨data, rfl⟩ <;> simp
  | length | position | rewind => rcases answer_of_whenConstructed h hr with rfl | rfl <;> simp
  | setpos v =>
    by_cases hv : v = 0#32
    · rw [hv, exec_setpos_zero] at h
      rcases answer_of_whenConstructed h hr with rfl | rfl <;> simp
    · rw [exec_setpos_of_ne_zero hv] at h
      rcases answer_of_whenConstructed h hr with rfl | rfl <;> simp [hv]
  | write | seek | setlen =>
    rw [exec_unsupportedOperation (by simp)] at h
    rcases answer_of_whenConstructed h hr with rfl | rfl <;> simp
  | peek p =>
    obtain rfl := Host.Outcome.next.inj ((exec_peek p s).symm.trans h)
    obtain rfl := Option.some.inj hr
    simp
  | illegal c =>
    obtain rfl := Host.Outcome.next.inj ((exec_illegal c s).symm.trans h)
    obtain rfl := Option.some.inj hr
    simp

/-! ## The idle block -/

/-- R67, R187: an idle block with no command at its pins leaves the step to the outside world. -/
theorem step_idle_no_command {s : State} (hr : s.rstN = true) (hi : s.inflight = none) (hp : s.rsp = none)
    (hc : s.cmds = []) : step s = .next s.hostMove := by
  rw [step_idle hr hi hp, acceptCommand, hc]

/-- Settles O10: the outside world writes no register, and changes nothing where it has nothing to do. -/
theorem idleBlockKeepsItsRegisters : Obligations.IdleBlockKeepsItsRegisters := by
  unfold Obligations.IdleBlockKeepsItsRegisters
  intro s hr hi hp hc
  obtain ⟨hregs, -, -⟩ := hostMove_fixed s
  exact ⟨cmdReady_iff.mpr ⟨hr, hi, hp⟩, s.hostMove, step_idle_no_command hr hi hp hc, hregs, hostMove_nil⟩

end Sys2Proof.Machine
end

section

/-! Proofs of the statements about reset and the flight of a command (spec/70_reset_and_hazards.md R190, R192, R196, R199,
spec/30_encoding.md R67). -/

namespace Sys2Proof.Machine

/-! ## In reset -/

/-- R190: in reset a step resets the block, and the outside world makes one move. -/
theorem step_in_reset {s : State} (hr : s.rstN = false) : step s = .next s.enterReset.hostMove := by
  simp [step, clockStep, hr]

/-- R190: in reset no output is driven. -/
theorem outputs_in_reset {s : State} (hr : s.rstN = false) :
    s.cmdReady = false ∧ s.rspValid = false ∧ s.srcReq = false ∧ s.outWe = false := by
  refine ⟨by simp [State.cmdReady, hr], by simp [State.rspValid, hr], ?_, ?_⟩
  · rw [← Bool.not_eq_true, srcReq_iff]
    simp [hr]
  · rw [← Bool.not_eq_true, outWe_iff]
    simp [hr]

/-- Settles O13: the outside world's move leaves the registers, the flight and the response as reset made them. -/
theorem resetClearsTheBlock : Obligations.ResetClearsTheBlock := by
  unfold Obligations.ResetClearsTheBlock
  intro s hr
  obtain ⟨hready, hvalid, hreq, hwe⟩ := outputs_in_reset hr
  obtain ⟨hregs, hrsp, hinfl⟩ := hostMove_fixed s.enterReset
  exact ⟨hready, hvalid, hreq, hwe, s.enterReset.hostMove, step_in_reset hr, fun r => hregs ▸ read_reset r, hinfl, hrsp,
    fun hr' => cmdReady_iff.mpr ⟨hr', hinfl, hrsp⟩⟩

/-! ## A command abandoned -/

/-- R192: an abandoned READ leaves free values below its cap. -/
theorem abandonedOut_read {s : State} {f : Flight} {n : Word} (hf : s.inflight = some f) (hc : f.cmd = .read n) :
    s.abandonedOut = s.out.fillBelow (Config.abandonedByte s.draws) (capOf n) := by
  simp [State.abandonedOut, hf, hc]

/-- R42, R192: of the commands only an abandoned READ can change OUT. -/
theorem abandonedOut_of_not_read {s : State} {f : Flight} (hf : s.inflight = some f) (hc : ∀ n, f.cmd ≠ .read n) :
    s.abandonedOut = s.out := by
  unfold State.abandonedOut
  split
  · next n hn => exact absurd (by simpa [hf] using hn) (hc n)
  all_goals rfl

/-- R192: reset leaves alone every OUT byte that is not below the cap of an abandoned READ. -/
theorem read_abandonedOut_outside {s : State} {f : Flight} (hf : s.inflight = some f) {a : Nat}
    (ha : ∀ n, f.cmd = .read n → capOf n ≤ a) : s.abandonedOut.read a = s.out.read a := by
  by_cases hc : ∃ n, f.cmd = .read n
  · obtain ⟨n, hc⟩ := hc
    rw [abandonedOut_read hf hc, Memory.read_fillBelow_outside _ _ _ (ha n hc)]
  · rw [abandonedOut_of_not_read hf fun n hn => hc ⟨n, hn⟩]

/-- Settles O14: OUT after reset, below the cap of an abandoned READ and elsewhere. -/
theorem resetAbandonsTheCommandInFlight : Obligations.ResetAbandonsTheCommandInFlight := by
  unfold Obligations.ResetAbandonsTheCommandInFlight
  intro s f hr hf hin
  refine ⟨s.enterReset, ?_, rfl, rfl, rfl, rfl, fun a ha => read_abandonedOut_outside hf ha, fun n a hc hwf ha => ?_⟩
  · rw [step_in_reset hr, hostMove_nil (s := s.enterReset) hin]
  · rw [State.enterReset_out, abandonedOut_read hf hc]
    exact Memory.read_fillBelow_inside hwf _ _ ha

/-! ## The end of a flight -/

/-- R67, R196: a step that ends a flight has the effect of the command itself, but at the OUT indexes where the host's bytes
are kept. -/
theorem step_lands_effect {s t : State} {f : Flight} (h : s.Inv) (hr : s.rstN = true) (hf : s.inflight = some f)
    (hs : step s = .next t) (ht : t.inflight = none) :
    ∃ u, exec f.cmd { s with inflight := none } = .next u ∧
      t = { u with out := t.out, keptIndexes := [], flightDisturbed := false, draws := t.draws } ∧
      (∀ a ∈ s.keptIndexes, t.out.read a = s.out.read a) ∧
      (∀ a, a ∉ s.keptIndexes → t.out.read a = u.out.read a) := by
  obtain ⟨u, hu, rfl⟩ := step_lands hr hf hs ht
  have hform := (exec_storeInv (s := { s with inflight := none }) (h.store.of_eq rfl rfl rfl rfl) hu).outForm
  exact ⟨u, hu, rfl, fun a ha => Memory.read_restore_inside _ hform ha, fun a ha => Memory.read_restore_outside _ _ ha⟩

/-- R196, log 8: the indexes listed after a host write to OUT during a READ. -/
theorem hostOutWrite_keptIndexes_read {s : State} {f : Flight} {n : Word} (hf : s.inflight = some f)
    (hc : f.cmd = .read n) (i : Nat) (b : Byte) :
    (s.hostOutWrite i b).keptIndexes =
      if i < n.toNat ∧ Config.hostByteKept s.draws i = true then s.keptIndexes ++ [i] else s.keptIndexes := by
  have hbuf := inFlightBuffer_read hf hc i
  by_cases hi : i < n.toNat
  · rw [hostOutWrite_inside (by simpa [hbuf] using hi)]
    simp [hi]
  · rw [hostOutWrite_outside (by simpa [hbuf] using hi)]
    simp [hi]

/-- Settles O48: what a host write stores and lists, and what the end of the READ's flight restores. -/
theorem hostWritesDuringReadAreKeptOrOverwritten : Obligations.HostWritesDuringReadAreKeptOrOverwritten := by
  unfold Obligations.HostWritesDuringReadAreKeptOrOverwritten
  refine ⟨fun s f n i b hwf hf hc => ⟨?_, ?_, fun a ha => ?_, hostOutWrite_keptIndexes_read hf hc i b⟩,
    fun s t f n h hr hf hc hs ht => ?_⟩
  · rw [inFlightBuffer_read hf hc, decide_eq_true_iff]
  · rw [hostOutWrite_out, Memory.read_write_same hwf]
  · rw [hostOutWrite_out, Memory.read_write_other _ _ ha]
  · obtain ⟨u, hu, hframe, hkept, hother⟩ := step_lands_effect h hr hf hs ht
    rw [hc] at hu
    exact ⟨u, hu, (congrArg State.rsp hframe :), (congrArg State.regs hframe :), hkept, hother⟩

/-! ## Termination -/

/-- R67: the quartets done once the access held has been acknowledged. -/
theorem Flight.doneNow_eq (f : Flight) : f.doneNow = if f.hold = .out then f.done + 1 else f.done := by
  unfold Flight.doneNow
  split <;> simp [*]

/-- R67: with the acknowledge of the access that the command in flight holds, the command goes on. -/
theorem step_acknowledged {s : State} {f : Flight} (hr : s.rstN = true) (hf : s.inflight = some f)
    (ha : s.acks f.hold = true) : step s = resumeCommand s f := by
  rw [step_inflight hr hf, continueCommand, if_pos ha]

/-- R67, R199: a command that goes on and comes to wait holds its next access, and nothing else changes. -/
theorem resumeCommand_waits {s : State} {f : Flight} {p : Port} (h : waitsAt s f.cmd f.doneNow = some p) :
    resumeCommand s f = .next { s with inflight := some ⟨f.cmd, p, f.doneNow⟩ } := by
  rw [resumeCommand, h]

/-- R199: a command that goes on and waits nowhere completes with a response. -/
theorem resumeCommand_completes {s : State} {f : Flight} (h : s.regs.Inv) (hw : waitsAt s f.cmd f.doneNow = none) :
    ∃ t r, resumeCommand s f = .next t ∧ t.inflight = none ∧ t.rsp = some r := by
  obtain ⟨u, hu⟩ := exec_total (s := { s with inflight := none }) h f.cmd
  obtain ⟨r, hrsp, -⟩ := exec_responds hu
  have hidle : u.inflight = none := congrArg State.inflight (exec_frame hu)
  rw [resumeCommand, hw, hu]
  exact ⟨_, r, rfl, hidle, hrsp⟩

/-- R199: an idle block whose ports acknowledge completes the command at its pins. -/
theorem step_completes_command {s : State} {c : Command} {cs : List Command} (h : s.Inv) (hr : s.rstN = true)
    (hi : s.inflight = none) (hp : s.rsp = none) (hsrc : s.srcAck = true) (hout : s.outAck = true)
    (hc : s.cmds = c :: cs) : ∃ t r, step s = .next t ∧ t.cmds = cs ∧ t.inflight = none ∧ t.rsp = some r := by
  obtain ⟨t, ht⟩ := exec_total (s := { s with cmds := cs }) h.regs (decode c)
  obtain ⟨hcmds, hidle, hrsp⟩ := exec_handshake (s := { s with cmds := cs }) hi ht
  obtain ⟨r, hrsp⟩ := Option.isSome_iff_exists.mp hrsp
  have hruns := beginCommand_runs (s := { s with cmds := cs }) (waitsAt_acks hsrc hout (decode c) 0)
  exact ⟨t, r, by rw [step_takes hr hi hp hc, hruns, ht], hcmds, hidle, hrsp⟩

/-- R67, R199: a command in flight whose access is acknowledged completes, or goes on to an access of the other port, for
a quartet that its buffer has room for. -/
theorem step_acknowledged_cases {s : State} {f : Flight} (h : s.Inv) (hr : s.rstN = true) (hf : s.inflight = some f)
    (ha : s.acks f.hold = true) :
    (∃ t r, step s = .next t ∧ t.inflight = none ∧ t.rsp = some r) ∨
    ∃ p, p ≠ f.hold ∧ s.acks p = false ∧ step s = .next { s with inflight := some ⟨f.cmd, p, f.doneNow⟩ } ∧
      ∀ n, f.cmd = .read n → 3 * f.doneNow < capOf n := by
  rw [step_acknowledged hr hf ha]
  cases hw : waitsAt s f.cmd f.doneNow with
  | none => exact .inl (resumeCommand_completes h.regs hw)
  | some p =>
    have hp := waitsAt_not_acks hw
    have hother : p ≠ f.hold := fun he => by simp [he, ha] at hp
    refine .inr ⟨p, hother, hp, resumeCommand_waits hw, fun n hc => ?_⟩
    have hfits := waitsAt_fits hw
    rw [hc] at hfits
    exact hfits.2

/-- Settles O11: the idle block takes its command to the end; a command in flight goes on where its access is acknowledged
and is held where it is not; and the step that ends a flight is the command's own. -/
theorem everyCommandTerminates : Obligations.EveryCommandTerminates := by
  unfold Obligations.EveryCommandTerminates
  refine ⟨fun s c cs => step_completes_command, fun s f h hr hf => ⟨fun hsrc hout => ?_, fun ha => ?_,
    fun t hs ht => step_lands_effect h hr hf hs ht, fun ha hin => ?_⟩⟩
  · rw [step_acknowledged hr hf (by cases hold : f.hold <;> simp [hsrc, hout])]
    exact resumeCommand_completes h.regs (waitsAt_acks hsrc hout _ _)
  · rw [← f.doneNow_eq]
    exact step_acknowledged_cases h hr hf ha
  · rw [step_held hr hf ha, hostMove_nil hin]

end Sys2Proof.Machine
end

section

/-! Proof of the statement about the ports that each command needs (spec/70_reset_and_hazards.md R199, spec/40_construct.md
R93, spec/41_read.md R109 to R116, R121). -/

namespace Sys2Proof.Machine

/-! ## The quartets of a READ -/

/-- R109, R113: a READ that passes its preconditions needs SRC for each quartet that it reads. -/
theorem CanRead.needsSource_iff {s : State} {n : Word} (h : CanRead s n) (d : Nat) :
    needsSource s (.read n) d = true ↔ d < (s.runOf n).quartetsRead := by
  simp [needsSource, h.valid, h.room]

/-- R109, R113: a READ that passes its preconditions needs OUT for each good quartet. -/
theorem CanRead.needsOutput_iff {s : State} {n : Word} (h : CanRead s n) (d : Nat) :
    needsOutput s (.read n) d = true ↔ d < (s.runOf n).quartetsGood := by
  simp [needsOutput, h.valid, h.room]

/-- R121: a run that is done has read the quartets of the bytes it returns, all of them good. -/
theorem CanRead.quartets_of_done {s : State} {n : Word} (h : CanRead s n) (hd : (s.runOf n).stop = .done) :
    (s.runOf n).quartetsRead = (s.regs.readCount n + 2) / 3 ∧
      (s.runOf n).quartetsGood = (s.regs.readCount n + 2) / 3 := by
  rw [runOf_done h.context hd]
  simp [Run.quartetsRead, Run.quartetsGood]

/-- R112: a run that meets a bad character has read its quartet, and those before it, which are good. -/
theorem FirstBad.quartets {s : State} {n : Word} {q bad : Nat} (h : FirstBad s n q bad) (hc : s.regs.ContextInv) :
    (s.runOf n).quartetsRead = q + 1 ∧ (s.runOf n).quartetsGood = q := by
  obtain ⟨hstop, hbytes⟩ := runOf_bad hc h.reach h.room h.clean h.bad
  have hgood : (s.runOf n).quartetsGood = q := by
    rw [Run.quartetsGood, hbytes, streamRun_length]
    omega
  exact ⟨by rw [Run.quartetsRead, hstop, hgood], hgood⟩

/-- R112: a READ answers MalformedCharacter only for a first bad quartet, with the index of its bad character. -/
theorem CanRead.firstBad_of_malformed {s t : State} {n x : Word} (h : CanRead s n) (ht : exec (.read n) s = .next t)
    (hr : t.rsp = some ⟨.malformedCharacter, x⟩) : ∃ q, FirstBad s n q x.toNat := by
  rcases reachClean_or_firstBad s n with hclean | ⟨q, bad, hb⟩
  · obtain rfl := Host.Outcome.next.inj ((h.exec_clean hclean).symm.trans ht)
    cases hr
  · obtain rfl := Host.Outcome.next.inj ((h.exec_bad hb).symm.trans ht)
    obtain rfl : Word.ofNat bad = x := congrArg Response.data (Option.some.inj hr)
    obtain ⟨-, hlt⟩ := hb.index h.context
    rw [Word.toNat_ofNat (by omega)]
    exact ⟨q, hb⟩

/-! ## The accesses of a READ -/

/-- R114, R116: before end-of-stream a READ reads at least one quartet. -/
theorem CanRead.needsSource_before_end {s : State} {n : Word} (h : CanRead s n)
    (hlt : s.regs.decodedPosition.toNat < s.regs.decodedLength.toNat) : needsSource s (.read n) 0 = true := by
  rw [h.needsSource_iff]
  rcases reachClean_or_firstBad s n with hclean | ⟨q, bad, hb⟩
  · obtain ⟨hread, -⟩ := h.quartets_of_done (h.runOf_stop hclean)
    have hcount : s.regs.readCount n ≠ 0 := by
      rw [ne_eq, h.readCount_eq_zero, ← BitVec.toNat_inj]
      omega
    omega
  · obtain ⟨hread, -⟩ := hb.quartets h.context
    omega

/-- R121, R199: a READ that answers OK needs both ports for each quartet of the bytes it returns. -/
theorem read_ok_needs {s t : State} {n w : Word} (hs : s.Inv) (h : exec (.read n) s = .next t)
    (hr : t.rsp = some ⟨.ok, w⟩) (d : Nat) :
    (needsSource s (.read n) d = true ↔ 3 * d < w.toNat) ∧ (needsOutput s (.read n) d = true ↔ 3 * d < w.toNat) := by
  obtain ⟨hc, hd, -⟩ := exec_read_ok hs.store h hr
  have hcount : w.toNat = s.regs.readCount n := (bytesPerRead n s t w hs hc.valid h hr).1
  obtain ⟨hread, hgood⟩ := hc.quartets_of_done hd
  rw [hc.needsSource_iff, hc.needsOutput_iff, hread, hgood, hcount]
  omega

/-- R109, R112, R199: a READ that answers MalformedCharacter needs SRC up to the bad quartet and OUT before it. -/
theorem CanRead.malformed_needs {s t : State} {n x : Word} (h : CanRead s n) (ht : exec (.read n) s = .next t)
    (hr : t.rsp = some ⟨.malformedCharacter, x⟩) (d : Nat) :
    (needsSource s (.read n) d = true ↔ d ≤ (x.toNat - s.regs.sourceCursor.toNat) / 4) ∧
      (needsOutput s (.read n) d = true ↔ d < (x.toNat - s.regs.sourceCursor.toNat) / 4) := by
  obtain ⟨q, hb⟩ := h.firstBad_of_malformed ht hr
  obtain ⟨hread, hgood⟩ := hb.quartets h.context
  obtain ⟨hq, -⟩ := hb.index h.context
  rw [h.needsSource_iff, h.needsOutput_iff, hread, hgood, hq]
  exact ⟨Nat.lt_succ_iff, Iff.rfl⟩

/-- R113, R199: a READ that fails a precondition needs no port. -/
theorem read_refused_needs_no_port {s : State} {n : Word} (h : s.regs.valid = false ∨ n.toNat < 3) (d : Nat) :
    needsSource s (.read n) d = false ∧ needsOutput s (.read n) d = false := by
  rw [← capOf_eq_zero] at h
  rcases h with hv | hn
  · simp [needsSource, needsOutput, hv]
  · simp [needsSource, needsOutput, hn]

/-! ## The other commands, and the waits -/

/-- R199: only CONSTRUCT and READ access a port. -/
theorem needs_no_port {i : Instr} (hc : ∀ z len off, i ≠ .construct z len off) (hr : ∀ n, i ≠ .read n) (s : State)
    (d : Nat) : needsSource s i d = false ∧ needsOutput s i d = false := by
  cases i with
  | construct z len off => exact absurd rfl (hc z len off)
  | read n => exact absurd rfl (hr n)
  | length | position | rewind | setpos | write | seek | setlen | peek | illegal => exact ⟨rfl, rfl⟩

/-- R67, R199: a command waits at SRC exactly where it needs SRC and SRC does not acknowledge. -/
theorem waitsAt_src_iff (s : State) (i : Instr) (d : Nat) :
    waitsAt s i d = some .src ↔ s.srcAck = false ∧ needsSource s i d = true := by
  unfold waitsAt
  split
  · next h => simpa using h
  · next h =>
    have hno : ¬ (s.srcAck = false ∧ needsSource s i d = true) := by simpa using h
    split <;> simp [hno]

/-- R67, R109, R199: a command waits at OUT exactly where SRC does not hold it, it needs OUT, and OUT does not
acknowledge. -/
theorem waitsAt_out_iff (s : State) (i : Instr) (d : Nat) :
    waitsAt s i d = some .out ↔
      (s.srcAck = true ∨ needsSource s i d = false) ∧ s.outAck = false ∧ needsOutput s i d = true := by
  have hsrc : (s.srcAck = true ∨ needsSource s i d = false) ↔ ¬ (!s.srcAck && needsSource s i d) = true := by
    cases s.srcAck <;> simp
  rw [hsrc]
  unfold waitsAt
  split
  · next h => simp [h]
  · next h => simp [h]

/-- Settles O57: READ by its precondition and by how its run ends, the other commands by their kind, and the wait at each
port. -/
theorem commandsNeedTheirPorts : Obligations.CommandsNeedTheirPorts := by
  unfold Obligations.CommandsNeedTheirPorts
  refine ⟨fun s len off hlen => ⟨by simp [needsSource, hlen], fun d => rfl⟩, fun s n hs hv hn => ?_,
    fun s z len off d hnull => ⟨needsSource_construct_null hnull s off d, rfl⟩,
    fun s n d hno => read_refused_needs_no_port hno d, fun s i d hc hr => needs_no_port hc hr s d,
    fun s i d => ⟨waitsAt_src_iff s i d, waitsAt_out_iff s i d⟩⟩
  have hc := hs.canRead hv hn
  exact ⟨hc.needsSource_before_end, fun t w d ht hr => read_ok_needs hs ht hr d,
    fun t x d ht hr => hc.malformed_needs ht hr d⟩

end Sys2Proof.Machine
end
